-- ==== Sys2Proof/Word.lean ====
section
/-! DEFINITION. The word types of BHC-1. -/

namespace Sys2Proof

/-- A 64-bit register, element or command word (10_state.md R20, 30_encoding.md R80). -/
abbrev Word := BitVec 64

/-- An 8-bit element of HASH, PIX or ALPHA (10_state.md R49 to R51). -/
abbrev Byte := BitVec 8

/-- A host byte address (20_memory.md R60). -/
abbrev Addr := BitVec 32

/-- The 64-bit encoding of a binary64 value: sign in bit 63, exponent in bits 62:52, fraction in
bits 51:0 (00_scope.md R10). `bits64` and `f64` of R9 are the identity on it. -/
abbrev F64 := BitVec 64

end Sys2Proof
end

