-- ==== Sys2Proof/Syntax.lean ====
section
/-! DEFINITION. The commands of BHC-1, one constructor per row of the opcode table. -/

namespace Sys2Proof

/-- The commands of 30_encoding.md R82. `n` is the digit count of field N (R80, R85), kept as the
word holds it, since words with an illegal N decode to the command, which then completes with
IllegalOperand (R81, R84). -/
inductive Instr where
  | nop
  | tolin
  | togam
  | b83enc (n : Nat)
  | b83dec (n : Nat)
  | qdc
  | qmax
  | qac
  | dqdc
  | dqmax
  | dqac
  | fdct
  | idct
  | encode
  | decode
  deriving DecidableEq, Repr

end Sys2Proof
end

