-- ==== Sys2Proof/WellFormed.lean ====
section
/-! DEFINITION. The commands a command word can hold. -/

namespace Sys2Proof

/-- The digit count fits field N, bits 11:8 (30_encoding.md R80). Only there can a term of `Instr` say
more than a word. That N is also 1 to 10 is the engine's check (R81), not the encoding's (log entry 17). -/
def Instr.wf : Instr → Bool
  | .nop => true
  | .tolin => true
  | .togam => true
  | .b83enc n => decide (n < 16)
  | .b83dec n => decide (n < 16)
  | .qdc => true
  | .qmax => true
  | .qac => true
  | .dqdc => true
  | .dqmax => true
  | .dqac => true
  | .fdct => true
  | .idct => true
  | .encode => true
  | .decode => true

end Sys2Proof
end

