-- ==== Sys2Proof/Decode.lean ====
section
/-! DEFINITION. Decoding and encoding of the command word (30_encoding.md R80 to R84). -/

namespace Sys2Proof

/-- Why a word is no command (30_encoding.md R84); each completes with IllegalCommand. -/
inductive DecodeError where
  /-- A bit of 63:12 is 1 (30_encoding.md R81, first check). -/
  | reservedBits
  /-- OPC is not a row of R82 (second check). -/
  | unassignedOpcode
  /-- N is not 0 in a command other than B83ENC and B83DEC (third check). -/
  | strayDigitCount
  deriving DecidableEq, Repr

/-- Field OPC, bits 7:0 (30_encoding.md R80). -/
def opcField (w : Word) : Nat := w.toNat % 256

/-- Field N, bits 11:8 (30_encoding.md R80). -/
def nField (w : Word) : Nat := w.toNat / 256 % 16

/-- Field RSV, bits 63:12 (30_encoding.md R80). -/
def rsvField (w : Word) : Nat := w.toNat / 4096

/-- A command whose N must be 0 (30_encoding.md R80, R81). -/
def withoutDigits (i : Instr) (n : Nat) : Except DecodeError Instr :=
  if n = 0 then .ok i else .error .strayDigitCount

/-- Decoding, in the order of the checks of 30_encoding.md R81. -/
def decode (w : Word) : Except DecodeError Instr :=
  if rsvField w ≠ 0 then .error .reservedBits
  else
    match opcField w with
    | 0x00 => withoutDigits .nop (nField w)
    | 0x01 => withoutDigits .tolin (nField w)
    | 0x02 => withoutDigits .togam (nField w)
    | 0x10 => .ok (.b83enc (nField w))
    | 0x11 => .ok (.b83dec (nField w))
    | 0x20 => withoutDigits .qdc (nField w)
    | 0x21 => withoutDigits .qmax (nField w)
    | 0x22 => withoutDigits .qac (nField w)
    | 0x28 => withoutDigits .dqdc (nField w)
    | 0x29 => withoutDigits .dqmax (nField w)
    | 0x2A => withoutDigits .dqac (nField w)
    | 0x30 => withoutDigits .fdct (nField w)
    | 0x31 => withoutDigits .idct (nField w)
    | 0x40 => withoutDigits .encode (nField w)
    | 0x41 => withoutDigits .decode (nField w)
    | _ => .error .unassignedOpcode

/-- The OPC value of a command (30_encoding.md R82). -/
def opcode : Instr → Nat
  | .nop => 0x00
  | .tolin => 0x01
  | .togam => 0x02
  | .b83enc _ => 0x10
  | .b83dec _ => 0x11
  | .qdc => 0x20
  | .qmax => 0x21
  | .qac => 0x22
  | .dqdc => 0x28
  | .dqmax => 0x29
  | .dqac => 0x2A
  | .fdct => 0x30
  | .idct => 0x31
  | .encode => 0x40
  | .decode => 0x41

/-- The N value of a command (30_encoding.md R80, R82). -/
def digitCount : Instr → Nat
  | .b83enc n => n
  | .b83dec n => n
  | .nop => 0
  | .tolin => 0
  | .togam => 0
  | .qdc => 0
  | .qmax => 0
  | .qac => 0
  | .dqdc => 0
  | .dqmax => 0
  | .dqac => 0
  | .fdct => 0
  | .idct => 0
  | .encode => 0
  | .decode => 0

/-- The command word `OPC | (N << 8)` (30_encoding.md R83). -/
def encode (i : Instr) : Word :=
  BitVec.ofNat 64 (opcode i ||| digitCount i <<< 8)

/-- The command word whose bits the opcode table numbers as `w`: the low `nbits` bits of `w`, the
bits above them 0. BHC-1 takes the word whole, so there is no byte order to choose (log entry 14). -/
def tableWord (nbits w : Nat) : Word := BitVec.ofNat 64 (w % 2 ^ nbits)

/-- The command the decoder reads from a word of the opcode table. -/
def decodeTableWord (nbits w : Nat) : Option Instr :=
  match decode (tableWord nbits w) with
  | .ok i => some i
  | .error _ => none

end Sys2Proof
end

