-- ==== Sys2Proof/Config.lean ====
section
/-! DEFINITION. The implementation parameters of 00_scope.md R5 and the free values: what the spec
leaves to an instance, and what it states no value for. The `opaque` constants have no body, so
a proof about them holds for every value. -/

namespace Sys2Proof

/-- GAMMA_ROUNDING (00_scope.md R5, 41_colorspace.md R102, D6). -/
inductive GammaRounding where
  | nearest
  | trunc
  deriving DecidableEq, Repr

/-- SIZEFLAG_POLICY (00_scope.md R5, 45_codec.md R192, D11). -/
inductive SizeFlagPolicy where
  | reject
  | accept
  deriving DecidableEq, Repr

/-- OVERRANGE_POLICY (00_scope.md R5, 43_quantizer.md R149, D12). -/
inductive OverrangePolicy where
  | literal
  | mask
  | fault
  deriving DecidableEq, Repr

/-- The parameters of one instance that are plain data (00_scope.md R5, 70_reset_and_hazards.md
R253). They stand in the state as data that no step changes, so that a statement about every state
is one about every instance (log entry 5). -/
structure Params where
  pixCap : Nat
  gammaRounding : GammaRounding
  sizeFlagPolicy : SizeFlagPolicy
  overrangePolicy : OverrangePolicy
  deriving DecidableEq, Repr

/-- The range 00_scope.md R5 gives PIX_CAP. -/
def Params.wf (p : Params) : Bool :=
  decide (3 ≤ p.pixCap) && decide (p.pixCap ≤ 0xFFFF0000)

/-- The spec's defaults (00_scope.md R5) and, for PIX_CAP, which has none, the capacity the test
vectors of 95_test_vectors.md use. DESIGN CHOICE for PIX_CAP, unsafe (log entry 5). -/
def Params.default : Params :=
  { pixCap := 0x100000, gammaRounding := .nearest, sizeFlagPolicy := .reject,
    overrangePolicy := .literal }

/-- The two functions an instance supplies, COS_IMPL and POW_IMPL (00_scope.md R5, R12): total
functions of their operands alone, and nothing else is assumed of them. -/
structure Libm where
  cos : F64 → F64
  pow : F64 → F64 → F64

/-- COS_IMPL, a free function (00_scope.md R12, D4; log entry 6). Safe: no value of it can be proved. -/
opaque Config.cosImpl : F64 → F64

/-- POW_IMPL, a free function (00_scope.md R12, D4; log entry 6). Safe: no value of it can be proved. -/
opaque Config.powImpl : F64 → F64 → F64

/-- The functions of this instance. -/
def Config.libm : Libm := { cos := Config.cosImpl, pow := Config.powImpl }

/-- What a byte of HASH or PIX holds after the reset numbered by the first argument, at the host
address of the second, until something writes it (70_reset_and_hazards.md R251; log entry 3). -/
opaque Config.freeByte : Nat → Nat → Byte

/-- What element `3k + c` of COEF holds after a reset until something writes it
(70_reset_and_hazards.md R251; log entry 3). -/
opaque Config.freeWord : Nat → Nat → F64

/-- The operations whose result can be a NaN. -/
inductive NanSource where
  | add
  | mul
  | div
  | signedPow
  deriving DecidableEq, Repr

/-- The sign (bit 52) and fraction (bits 51:0) of a NaN result, which neither the spec nor the
IEEE 754 operations it names fix: a free function of the operation and its operands
(00_scope.md R10; log entry 7). -/
opaque Config.nanPayload : NanSource → F64 → F64 → BitVec 53

/-- The byte of `toGamma` where POW_IMPL takes the value to be truncated outside the range that
41_colorspace.md R103 promises: a free byte, by that value (log entry 8). -/
opaque Config.gammaFree : F64 → Byte

end Sys2Proof
end

