-- ==== Sys2Proof/Machine/Float.lean ====
section
/-! DEFINITION. IEEE 754 binary64 arithmetic on encodings (00_scope.md R10 to R15): every operation computes
its exact result on integers and rounds once, to nearest, ties to even. The corner cases R10 leaves to IEEE
754 (signed zeros, infinities, division by zero) follow that standard: PRESUMED, log entry 16. -/

namespace Sys2Proof.Machine

/-- What an encoding stands for; `fin neg m e` is `m * 2^e`, negated where `neg`. -/
inductive FVal where
  | nan
  | inf (neg : Bool)
  | fin (neg : Bool) (m : Nat) (e : Int)
  deriving DecidableEq, Repr

namespace Fp

/-- Sign, bit 63 (00_scope.md R10). -/
def sign (x : F64) : Bool := decide (2 ^ 63 ≤ x.toNat)

/-- Exponent field, bits 62:52 (00_scope.md R10). -/
def expField (x : F64) : Nat := x.toNat / 2 ^ 52 % 2 ^ 11

/-- Fraction field, bits 51:0 (00_scope.md R10). -/
def frac (x : F64) : Nat := x.toNat % 2 ^ 52

/-- The value of an encoding, subnormals included (00_scope.md R10). -/
def unpack (x : F64) : FVal :=
  if expField x = 2047 then
    if frac x = 0 then .inf (sign x) else .nan
  else if expField x = 0 then .fin (sign x) (frac x) (-1074)
  else .fin (sign x) (2 ^ 52 + frac x) ((expField x : Int) - 1075)

/-- An encoding from its sign and its bits 62:0. -/
def withSign (neg : Bool) (magnitude : Nat) : F64 :=
  BitVec.ofNat 64 (magnitude + if neg then 2 ^ 63 else 0)

/-- The bits 62:0 of infinity. -/
def infMagnitude : Nat := 2047 * 2 ^ 52

def inf (neg : Bool) : F64 := withSign neg infMagnitude

def zero (neg : Bool) : F64 := withSign neg 0

/-- `m / 2^k` to the nearest integer, ties to even. -/
def shiftRightRound (m k : Nat) : Nat :=
  let t := m / 2 ^ k
  let r := m % 2 ^ k
  if 2 ^ k < 2 * r ∨ (2 * r = 2 ^ k ∧ t % 2 = 1) then t + 1 else t

/-- `m * 2^e` rounded to binary64, to nearest, ties to even (00_scope.md R10). `q` is the exponent of the
result's last place; a significand that rounds up to `2^53` carries into the exponent field. -/
def round (neg : Bool) (m : Nat) (e : Int) : F64 :=
  if m = 0 then zero neg
  else
    let q : Int := max ((Nat.log2 m : Int) + e - 52) (-1074)
    let sig := if q ≤ e then m * 2 ^ (e - q).toNat else shiftRightRound m (q - e).toNat
    withSign neg (min ((q + 1074).toNat * 2 ^ 52 + sig) infMagnitude)

/-- A NaN result: sign and fraction are free, the fraction not 0 (log entry 7). -/
def nanOf (src : NanSource) (x y : F64) : F64 :=
  let p := (Config.nanPayload src x y).toNat
  let f := p % 2 ^ 52
  withSign (decide (2 ^ 52 ≤ p)) (infMagnitude + if f = 0 then 2 ^ 51 else f)

def isNaN (x : F64) : Bool := decide (expField x = 2047) && decide (frac x ≠ 0)

/-- `-x`: bit 63 inverted. -/
def neg (x : F64) : F64 := x ^^^ 0x8000000000000000#64

/-- `|x|`: bit 63 cleared (00_scope.md R9). -/
def abs (x : F64) : F64 := x &&& 0x7FFFFFFFFFFFFFFF#64

/-- The signed integer `m * 2^k`. -/
def scaled (neg : Bool) (m k : Nat) : Int :=
  if neg then -((m * 2 ^ k : Nat) : Int) else ((m * 2 ^ k : Nat) : Int)

/-- `x + y` (00_scope.md R10). An exact zero sum is `+0.0` unless both operands are negative. -/
def add (x y : F64) : F64 :=
  match unpack x, unpack y with
  | .nan, _ => nanOf .add x y
  | _, .nan => nanOf .add x y
  | .inf a, .inf b => if a = b then inf a else nanOf .add x y
  | .inf a, .fin _ _ _ => inf a
  | .fin _ _ _, .inf b => inf b
  | .fin a m e, .fin b n f =>
    let q := min e f
    let v := scaled a m (e - q).toNat + scaled b n (f - q).toNat
    if v = 0 then zero (a && b) else round (decide (v < 0)) v.natAbs q

/-- `x - y` (00_scope.md R10). -/
def sub (x y : F64) : F64 := add x (neg y)

/-- `x * y` (00_scope.md R10). -/
def mul (x y : F64) : F64 :=
  match unpack x, unpack y with
  | .nan, _ => nanOf .mul x y
  | _, .nan => nanOf .mul x y
  | .inf a, .inf b => inf (a ^^ b)
  | .inf a, .fin b n _ => if n = 0 then nanOf .mul x y else inf (a ^^ b)
  | .fin a m _, .inf b => if m = 0 then nanOf .mul x y else inf (a ^^ b)
  | .fin a m e, .fin b n f => round (a ^^ b) (m * n) (e + f)

/-- `x / y` (00_scope.md R10): the quotient to more than 55 bits, and one more bit that says whether a
remainder is left, which round as the exact quotient does. -/
def div (x y : F64) : F64 :=
  match unpack x, unpack y with
  | .nan, _ => nanOf .div x y
  | _, .nan => nanOf .div x y
  | .inf _, .inf _ => nanOf .div x y
  | .inf a, .fin b _ _ => inf (a ^^ b)
  | .fin a _ _, .inf b => zero (a ^^ b)
  | .fin a m e, .fin b n f =>
    if n = 0 then
      if m = 0 then nanOf .div x y else inf (a ^^ b)
    else
      let t := m * 2 ^ 110
      round (a ^^ b) (2 * (t / n) + if t % n = 0 then 0 else 1) (e - f - 111)

/-- `float(i)` of a non-negative integer (00_scope.md R10). -/
def ofNat (i : Nat) : F64 := round false i 0

/-- `float(i)` of any integer (00_scope.md R10). -/
def ofInt (i : Int) : F64 := round (decide (i < 0)) i.natAbs 0

/-- The place of an encoding that is no NaN in the order of values; `-0.0` and `+0.0` share one. -/
def key (x : F64) : Int :=
  if sign x then -((x.toNat - 2 ^ 63 : Nat) : Int) else (x.toNat : Int)

/-- `x < y`, false where either is a NaN. -/
def lt (x y : F64) : Bool := !isNaN x && !isNaN y && decide (key x < key y)

/-- `x <= y`, false where either is a NaN. -/
def le (x y : F64) : Bool := !isNaN x && !isNaN y && decide (key x ≤ key y)

/-- The mathematical floor of `m * 2^e`, negated where `neg` (00_scope.md R14). -/
def floorFin (neg : Bool) (m : Nat) (e : Int) : Int :=
  if 0 ≤ e then scaled neg m e.toNat
  else
    let d := 2 ^ (-e).toNat
    if neg then -(((m + (d - 1)) / d : Nat) : Int) else ((m / d : Nat) : Int)

/-- `floorclamp(x, lo, hi)` (00_scope.md R14, D8). -/
def floorclamp (x : F64) (lo hi : Nat) : Nat :=
  match unpack x with
  | .nan => lo
  | .inf true => lo
  | .inf false => hi
  | .fin s m e => (max (lo : Int) (min (hi : Int) (floorFin s m e))).toNat

/-- The literal constants of 00_scope.md R11, each the binary64 nearest to its decimal (log entry 15). -/
def c0_0 : F64 := 0x0000000000000000#64
def c0_5 : F64 := 0x3FE0000000000000#64
def c1_0 : F64 := 0x3FF0000000000000#64
def c2_0 : F64 := 0x4000000000000000#64
def c9_0 : F64 := 0x4022000000000000#64
def c9_5 : F64 := 0x4023000000000000#64
def c166_0 : F64 := 0x4064C00000000000#64
def c255_0 : F64 := 0x406FE00000000000#64
def c12_92 : F64 := 0x4029D70A3D70A3D7#64
def c0_04045 : F64 := 0x3FA4B5DCC63F1412#64
def c0_055 : F64 := 0x3FAC28F5C28F5C29#64
def c1_055 : F64 := 0x3FF0E147AE147AE1#64
def c2_4 : F64 := 0x4003333333333333#64
def c0_0031308 : F64 := 0x3F69A5C37387B719#64

/-- `PI` (00_scope.md R12). -/
def pi : F64 := 0x400921FB54442D18#64

/-- `clamp01(x)` (00_scope.md R14, D8). -/
def clamp01 (x : F64) : F64 :=
  if isNaN x then c0_0
  else if lt x c0_0 then c0_0
  else if lt c1_0 x then c1_0
  else x

/-- `signedPow(x, p)` (00_scope.md R15, D9). -/
def signedPow (fn : Libm) (x p : F64) : F64 :=
  if lt c0_0 x then fn.pow x p
  else if lt x c0_0 then neg (fn.pow (neg x) p)
  else if isNaN x then nanOf .signedPow x p
  else c0_0

end Fp

end Sys2Proof.Machine
end

