-- ==== Sys2Proof/Machine/State.lean ====
section
/-! DEFINITION. The state of BHC-1 and the reasons a step could stop. -/

namespace Sys2Proof.Machine

/-- Faults. BHC-1 has none: every accepted command completes (70_reset_and_hazards.md R266), an error is a
completion with a code (60_exceptions.md R222), and a bus error is a response to the host
(20_memory.md R67). No meaning raises one. -/
inductive Fault where
  deriving DecidableEq, Repr

/-- Refusals. -/
inductive Refusal where
  /-- Raised by an arm of `exec` whose instruction has no meaning yet (none is left); safe. -/
  | notModelled (mnemonic : String)
  deriving DecidableEq, Repr

/-- What a step answers. -/
abbrev Answer (σ : Type) : Type := Host.Outcome σ Fault Refusal

/-- The registers that change between the acceptance of a command and its completion and that the host then
still reads as before: IRQEN, and the error context that acceptance clears (70_reset_and_hazards.md R263;
log entries 9, 10). -/
structure HostView where
  irqen : Bool
  errExp : Word
  errAct : Word
  errPos : Word
  deriving DecidableEq, Repr

/-- The two phases of the engine (10_state.md R52). BUSY holds the accepted command word and what the host reads
until the command completes; what the command will commit is a function of that word and of state that
nothing changes while BUSY (log entry 2). -/
inductive Engine where
  | idle
  | busy (word : Word) (before : HostView)
  deriving DecidableEq, Repr

/-- The access widths of the host port (20_memory.md R60). -/
inductive Width where
  | w8
  | w64
  deriving DecidableEq, Repr

/-- One host access, `MemRead(a, w)` or `MemWrite(a, w, v)` (20_memory.md R63). -/
inductive Access where
  | read (w : Width) (a : Addr)
  | write8 (a : Addr) (v : Byte)
  | write64 (a : Addr) (v : Word)
  deriving DecidableEq, Repr

/-- What can happen next to the block: the inputs of 00_scope.md R7 and 70_reset_and_hazards.md R250, and the
moment, which the spec leaves open (R267), at which the running command completes. -/
inductive Event where
  /-- The host makes one access. -/
  | host (x : Access)
  /-- The latency of the running command has passed: the engine completes it. -/
  | complete
  /-- The platform asserts the reset input (70_reset_and_hazards.md R250, R252). -/
  | assertReset
  /-- The platform releases the reset input (70_reset_and_hazards.md R250). -/
  | releaseReset
  deriving DecidableEq, Repr

/-- The host port's response to an access. -/
inductive Response where
  /-- No access has been made yet. -/
  | none
  /-- The data of an 8-bit read. -/
  | data8 (v : Byte)
  /-- The data of a 64-bit read. -/
  | data64 (v : Word)
  /-- A legal write was taken, whatever it changed. -/
  | written
  /-- The bus error of 20_memory.md R67. -/
  | busError
  /-- The access was made while reset was asserted (70_reset_and_hazards.md R250). -/
  | unanswered
  deriving DecidableEq, Repr

/-- The kinds of error a command can raise (60_exceptions.md R220). -/
inductive ErrKind where
  | dimensionMismatch
  | tooShort
  | lengthMismatch
  | invalidCharacter
  | illegalCommand
  | illegalOperand
  | invalidComponents
  | invalidSize
  | capacityExceeded
  | invalidSizeFlag
  | fieldOverrange
  deriving DecidableEq, Repr

/-- `raise E(exp, act, pos)` (00_scope.md R9, 60_exceptions.md R222): exact integers, narrowed when they are
written to the ERR registers. -/
structure Raise where
  kind : ErrKind
  exp : Nat
  act : Nat
  pos : Nat
  deriving DecidableEq, Repr

/-- The three channels of a grid cell or of a sum: red, green, blue (00_scope.md R9). -/
structure Rgb where
  r : F64
  g : F64
  b : F64
  deriving DecidableEq, Repr

/-- Sparse storage: `(key, value)` pairs, keys strictly rising. A key that is not listed has been written by
nothing since reset. -/
abbrev Store (w : Nat) : Type := List (Nat × BitVec w)

/-- The byte memory of the block, HASH and PIX, by host address (20_memory.md R60): a list of `Host.Cell`. -/
abbrev Memory : Type := Store 8

/-- The coefficient file by element index `3k + c` (10_state.md R48). Its elements are reached whole and have
no byte order (20_memory.md R69; log entry 13). -/
abbrev CoefFile : Type := Store 64

/-- What a command will commit (10_state.md R53): a value for each register it writes, and a run of
elements for each buffer it writes. -/
structure Staged where
  r0 : Option Word := none
  xcomp : Option (BitVec 8) := none
  ycomp : Option (BitVec 8) := none
  qmax : Option (BitVec 8) := none
  maxval : Option F64 := none
  pixLen : Option Word := none
  hashLen : Option (BitVec 16) := none
  /-- From this grid cell on, these cells. -/
  coef : Nat × List Rgb := (0, [])
  /-- From this index of HASH on, these bytes. -/
  hash : Nat × List Byte := (0, [])
  /-- From PIX[0] on, these bytes. -/
  pix : List Byte := []
  deriving DecidableEq, Repr

/-- The state of BHC-1. The fields up to `mem` are the spec's (10_state.md); `resetHeld` is the reset input and
`params` the instance's parameters; `agenda`, `port` and `epoch` are the model's own (log entries 1, 11, 4). -/
structure State where
  /-- CTRL bit 0, IRQEN (10_state.md R22). -/
  irqen : Bool
  /-- The engine phase, STATUS bit 0 BUSY (10_state.md R24, R52). -/
  engine : Engine
  /-- STATUS bit 1, DONE (10_state.md R25). -/
  done : Bool
  /-- STATUS bit 3, CMDLOST (10_state.md R27). -/
  cmdlost : Bool
  /-- STATUS bits 15:8, ERRCODE (10_state.md R28). -/
  errcode : BitVec 8
  /-- WIDTH (10_state.md R30). -/
  width : BitVec 16
  /-- HEIGHT (10_state.md R31). -/
  height : BitVec 16
  /-- XCOMP (10_state.md R32). -/
  xcomp : BitVec 8
  /-- YCOMP (10_state.md R33). -/
  ycomp : BitVec 8
  /-- PUNCH (10_state.md R34). -/
  punch : F64
  /-- PIX_LEN (10_state.md R35). -/
  pixLen : Word
  /-- HASH_LEN (10_state.md R40). -/
  hashLen : BitVec 16
  /-- A0 (10_state.md R37). -/
  a0 : Word
  /-- A1 (10_state.md R38). -/
  a1 : Word
  /-- R0 (10_state.md R39). -/
  r0 : Word
  /-- QMAX (10_state.md R41). -/
  qmax : BitVec 8
  /-- MAXVAL (10_state.md R42). -/
  maxval : F64
  /-- ERR_EXP (10_state.md R43). -/
  errExp : Word
  /-- ERR_ACT (10_state.md R44). -/
  errAct : Word
  /-- ERR_POS (10_state.md R45). -/
  errPos : Word
  /-- COEF (10_state.md R48). -/
  coef : CoefFile
  /-- HASH and PIX (10_state.md R49, R50). -/
  mem : Memory
  /-- The reset input is asserted (70_reset_and_hazards.md R250). -/
  resetHeld : Bool
  /-- The parameters of the instance (00_scope.md R5). -/
  params : Params
  /-- The inputs still to come, oldest first. -/
  agenda : List Event
  /-- The host port's last response. -/
  port : Response
  /-- How many resets there have been. -/
  epoch : Nat
  deriving DecidableEq, Repr

/-- The binary64 encoding of 1.0 (70_reset_and_hazards.md R250). -/
abbrev oneBits : F64 := 0x3FF0000000000000

/-- The block right after reset (70_reset_and_hazards.md R250). COEF, PIX and HASH list nothing: every element
is unspecified (R251). The values of `params.pixCap`, `agenda`, `port` and `epoch` are the model's (log
entries 5, 1, 11, 4). -/
def State.reset : State :=
  { irqen := false
    engine := .idle
    done := false
    cmdlost := false
    errcode := 0
    width := 0
    height := 0
    xcomp := 0
    ycomp := 0
    punch := oneBits
    pixLen := 0
    hashLen := 0
    a0 := 0
    a1 := 0
    r0 := 0
    qmax := 0
    maxval := oneBits
    errExp := 0
    errAct := 0
    errPos := 0
    coef := []
    mem := []
    resetHeld := false
    params := Params.default
    agenda := []
    port := .none
    epoch := 0 }

end Sys2Proof.Machine
end

