-- ==== Sys2Proof/Machine/Flags.lean ====
section
/-! DEFINITION. The STATUS register, the error codes and the interrupt line. -/

namespace Sys2Proof.Machine

/-- The code of an error kind (60_exceptions.md R220). -/
def ErrKind.code : ErrKind → BitVec 8
  | .dimensionMismatch => 1
  | .tooShort => 2
  | .lengthMismatch => 3
  | .invalidCharacter => 4
  | .illegalCommand => 16
  | .illegalOperand => 17
  | .invalidComponents => 18
  | .invalidSize => 19
  | .capacityExceeded => 20
  | .invalidSizeFlag => 21
  | .fieldOverrange => 22

/-- The values ERRCODE takes: 0 and the codes of 60_exceptions.md R220. -/
def legalErrcode (c : BitVec 8) : Bool :=
  decide (c.toNat ≤ 4) || (decide (16 ≤ c.toNat) && decide (c.toNat ≤ 22))

/-- STATUS.BUSY (10_state.md R24). -/
def State.busy (s : State) : Bool :=
  match s.engine with
  | .idle => false
  | .busy _ _ => true

/-- STATUS.ERR, not stored (10_state.md R26). -/
def State.err (s : State) : Bool := decide (s.errcode ≠ 0)

/-- A flag at a bit position. -/
def flagBit (b : Bool) (i : Nat) : Nat := if b then 2 ^ i else 0

/-- STATUS as the host reads it (10_state.md R23): bits 7:4 and 63:16 read 0. -/
def State.status (s : State) : Word :=
  BitVec.ofNat 64
    (flagBit s.busy 0 + flagBit s.done 1 + flagBit s.err 2 + flagBit s.cmdlost 3
      + s.errcode.toNat * 2 ^ 8)

/-- IRQEN and the error context as they stand. -/
def State.hostView (s : State) : HostView :=
  { irqen := s.irqen, errExp := s.errExp, errAct := s.errAct, errPos := s.errPos }

/-- IRQEN and the error context as the host reads them: while BUSY the values from before the command was
accepted (70_reset_and_hazards.md R263). -/
def State.readable (s : State) : HostView :=
  match s.engine with
  | .idle => s.hostView
  | .busy _ before => before

/-- CTRL as the host reads it (10_state.md R22, 70_reset_and_hazards.md R263). -/
def State.ctrl (s : State) : Word := BitVec.ofNat 64 (flagBit s.readable.irqen 0)

/-- The interrupt line (60_exceptions.md R230). -/
def State.irq (s : State) : Bool := s.done && s.irqen

end Sys2Proof.Machine
end

