-- ==== Sys2Proof/Machine/Ops.lean ====
section
/-! DEFINITION. The named operations over buffers and registers, and the life of a command: acceptance,
completion with results, completion with an error, reset. -/

namespace Sys2Proof.Machine

/-- The value listed for a key. -/
def Store.read {w : Nat} : Store w → Nat → Option (BitVec w)
  | [], _ => none
  | (j, v) :: m, k => if j = k then some v else Store.read m k

/-- Lists a value for a key, keeping the keys strictly rising. -/
def Store.write {w : Nat} : Store w → Nat → BitVec w → Store w
  | [], k, v => [(k, v)]
  | (j, u) :: m, k, v =>
    if k < j then (k, v) :: (j, u) :: m
    else if k = j then (k, v) :: m
    else (j, u) :: Store.write m k v

/-- Lists values for consecutive keys, in increasing order. -/
def Store.writeRun {w : Nat} : Store w → Nat → List (BitVec w) → Store w
  | m, _, [] => m
  | m, k, v :: vs => Store.writeRun (Store.write m k v) (k + 1) vs

/-- Keys strictly rising from `lo` on. -/
def Store.risingFrom {w : Nat} : Nat → Store w → Bool
  | _, [] => true
  | lo, (k, _) :: m => decide (lo ≤ k) && Store.risingFrom (k + 1) m

/-- The canonical form of sparse storage. A key that is not listed has no value of its own, so no entry can
equal what an unlisted key holds (log entry 3). -/
def Store.wf {w : Nat} (m : Store w) : Bool := Store.risingFrom 0 m

/-- The canonical form of the byte memory. -/
abbrev Memory.wf (m : Memory) : Bool := Store.wf m

/-- The windows of 20_memory.md R60. -/
abbrev coefBase : Nat := 0x1000
abbrev hashBase : Nat := 0x2000
abbrev alphaBase : Nat := 0x2100
abbrev pixBase : Nat := 0x10000

/-- The number of HASH bytes (00_scope.md R5, HASH_CAP). -/
abbrev hashCap : Nat := 166

/-- The byte of HASH or PIX at a host address; one that nothing has written since reset is free
(70_reset_and_hazards.md R251; log entry 3). -/
def State.byteAt (s : State) (a : Nat) : Byte :=
  (Store.read s.mem a).getD (Config.freeByte s.epoch a)

/-- `HASH[i]` (10_state.md R50, 20_memory.md R62). -/
def State.hashByte (s : State) (i : Nat) : Byte := s.byteAt (hashBase + i)

/-- `PIX[i]` (10_state.md R49, 20_memory.md R65). -/
def State.pixByte (s : State) (i : Nat) : Byte := s.byteAt (pixBase + i)

/-- Element `3k + c` of COEF; one that nothing has written since reset is free (10_state.md R48,
70_reset_and_hazards.md R251). -/
def State.coefElem (s : State) (e : Nat) : F64 :=
  (Store.read s.coef e).getD (Config.freeWord s.epoch e)

/-- `COEF[k][0 .. 2]` (10_state.md R48). -/
def State.coefCell (s : State) (k : Nat) : Rgb :=
  { r := s.coefElem (3 * k), g := s.coefElem (3 * k + 1), b := s.coefElem (3 * k + 2) }

/-- The bytes `HASH[p .. p + n - 1]`. -/
def State.hashField (s : State) (p n : Nat) : List Byte :=
  (List.range n).map fun i => s.hashByte (p + i)

/-- The channels of a cell in storage order. -/
def Rgb.toList (x : Rgb) : List F64 := [x.r, x.g, x.b]

/-- An error context value narrowed to its register (60_exceptions.md R222). -/
def contextWord (v : Nat) : Word := BitVec.ofNat 64 (min v (2 ^ 64 - 1))

/-- Acceptance of the command word `w` (60_exceptions.md R225); what the host reads until completion is kept
(70_reset_and_hazards.md R263). -/
def State.accept (s : State) (w : Word) : State :=
  { s with
    engine := .busy w s.hostView
    done := false
    errcode := 0
    errExp := 0
    errAct := 0
    errPos := 0 }

/-- Commits staged results, all at once (10_state.md R53, 60_exceptions.md R226). -/
def State.commit (s : State) (x : Staged) : State :=
  { s with
    r0 := x.r0.getD s.r0
    xcomp := x.xcomp.getD s.xcomp
    ycomp := x.ycomp.getD s.ycomp
    qmax := x.qmax.getD s.qmax
    maxval := x.maxval.getD s.maxval
    pixLen := x.pixLen.getD s.pixLen
    hashLen := x.hashLen.getD s.hashLen
    coef := Store.writeRun s.coef (3 * x.coef.1) (x.coef.2.flatMap Rgb.toList)
    mem := Store.writeRun (Store.writeRun s.mem (hashBase + x.hash.1) x.hash.2) pixBase x.pix }

/-- Completion without error (60_exceptions.md R220 code 0, R226). -/
def State.finish (s : State) : State :=
  { s with
    engine := .idle
    done := true
    errcode := 0
    errExp := 0
    errAct := 0
    errPos := 0 }

/-- Completion with an error, the one exception of BHC-1: nothing but STATUS and the error context changes
(60_exceptions.md R220, R222, R224, R226). There is no return from it: the engine is IDLE (R228). -/
def State.raise (s : State) (r : Raise) : State :=
  { s with
    engine := .idle
    done := true
    errcode := r.kind.code
    errExp := contextWord r.exp
    errAct := contextWord r.act
    errPos := contextWord r.pos }

/-- Completion of a command whose rule ends in results or in a `raise` (60_exceptions.md R226). -/
def State.complete (s : State) (result : Except Raise Staged) : State :=
  match result with
  | .ok x => (s.commit x).finish
  | .error r => s.raise r

/-- The reset input is asserted: the running command is abandoned, every register takes its reset value and
every buffer element becomes unspecified again (70_reset_and_hazards.md R250 to R253; log entry 12). -/
def State.assertReset (s : State) : State :=
  { State.reset with
    resetHeld := true
    params := s.params
    agenda := s.agenda
    port := s.port
    epoch := s.epoch + 1 }

/-- The reset input is released (70_reset_and_hazards.md R250). -/
def State.releaseReset (s : State) : State := { s with resetHeld := false }

end Sys2Proof.Machine
end

