-- ==== Sys2Proof/Machine/Operands.lean ====
section
/-! DEFINITION. The operand forms of 30_encoding.md R85, the range checks on them, and the image and component
checks that several commands share. -/

namespace Sys2Proof.Machine

/-- A0 as an unsigned integer (30_encoding.md R85). -/
def State.a0Nat (s : State) : Nat := s.a0.toNat

/-- A0 as a binary64 bit pattern (30_encoding.md R85, TOGAM). -/
def State.a0Float (s : State) : F64 := s.a0

/-- A1 as an unsigned integer, a HASH offset or a grid index (30_encoding.md R85). -/
def State.a1Nat (s : State) : Nat := s.a1.toNat

/-- IllegalOperand where an operand exceeds its largest legal value; `pos` is 0 for A0, 1 for A1, 2 for N
(60_exceptions.md R220). -/
def checkAtMost (limit v pos : Nat) : Except Raise Unit :=
  if limit < v then .error ⟨.illegalOperand, limit, v, pos⟩ else .ok ()

/-- The check on field N (30_encoding.md R81). -/
def checkDigits (n : Nat) : Except Raise Unit :=
  if n < 1 ∨ 10 < n then .error ⟨.illegalOperand, 10, n, 2⟩ else .ok ()

/-- The check that a field of `n` characters at A1 lies in HASH (42_base83.md R124, R125). -/
def checkOffset (s : State) (n : Nat) : Except Raise Unit := checkAtMost (hashCap - n) s.a1Nat 1

/-- WIDTH, HEIGHT, XCOMP and YCOMP as integers. -/
def State.w (s : State) : Nat := s.width.toNat
def State.h (s : State) : Nat := s.height.toNat
def State.xc (s : State) : Nat := s.xcomp.toNat
def State.yc (s : State) : Nat := s.ycomp.toNat

/-- `3 * W * H`, exact (00_scope.md R16). -/
def State.need (s : State) : Nat := 3 * s.w * s.h

/-- The component check (44_transform.md R173, R176; 43_quantizer.md R147). -/
def checkComponents (s : State) : Except Raise Unit :=
  if s.xc < 1 ∨ 9 < s.xc ∨ s.yc < 1 ∨ 9 < s.yc then
    .error ⟨.invalidComponents, 9, s.xc ||| s.yc <<< 8, 0⟩
  else .ok ()

/-- The size and capacity checks, in this order (44_transform.md R173, R176; 45_codec.md R202). -/
def checkTarget (s : State) : Except Raise Unit :=
  if s.w = 0 ∨ s.h = 0 then .error ⟨.invalidSize, 1, s.w ||| s.h <<< 16, 0⟩
  else if s.params.pixCap < s.need then .error ⟨.capacityExceeded, s.params.pixCap, s.need, 0⟩
  else .ok ()

/-- `checkImage()` (44_transform.md R173). -/
def checkImage (s : State) : Except Raise Unit :=
  if s.pixLen.toNat ≠ s.need then .error ⟨.dimensionMismatch, s.need, s.pixLen.toNat, 0⟩
  else do
    checkComponents s
    checkTarget s

end Sys2Proof.Machine
end

