-- ==== Sys2Proof/Machine/Base83.lean ====
section
/-! DEFINITION. The base-83 codec: the alphabet, b83enc, b83dec; B83ENC, B83DEC. -/

namespace Sys2Proof.Machine

/-- The ALPHA ROM: the ASCII codes of the 83 symbols, in the order of the format (42_base83.md R120). -/
def alphabet : List Byte :=
  [0x30, 0x31, 0x32, 0x33, 0x34, 0x35, 0x36, 0x37, 0x38, 0x39] ++
  [0x41, 0x42, 0x43, 0x44, 0x45, 0x46, 0x47, 0x48, 0x49, 0x4A, 0x4B, 0x4C, 0x4D] ++
  [0x4E, 0x4F, 0x50, 0x51, 0x52, 0x53, 0x54, 0x55, 0x56, 0x57, 0x58, 0x59, 0x5A] ++
  [0x61, 0x62, 0x63, 0x64, 0x65, 0x66, 0x67, 0x68, 0x69, 0x6A, 0x6B, 0x6C, 0x6D] ++
  [0x6E, 0x6F, 0x70, 0x71, 0x72, 0x73, 0x74, 0x75, 0x76, 0x77, 0x78, 0x79, 0x7A] ++
  [0x23, 0x24, 0x25, 0x2A, 0x2B, 0x2C, 0x2D, 0x2E, 0x3A, 0x3B, 0x3D, 0x3F, 0x40] ++
  [0x5B, 0x5D, 0x5E, 0x5F, 0x7B, 0x7C, 0x7D, 0x7E]

/-- `ALPHA[i]`, for `i` up to 82 (10_state.md R51). -/
def alpha (i : Nat) : Byte := alphabet.getD i 0

/-- The position of a byte in a list, counted from `i`. -/
def positionFrom (b : Byte) : Nat → List Byte → Option Nat
  | _, [] => none
  | i, c :: cs => if c = b then some i else positionFrom b (i + 1) cs

/-- `RLUT(b)`; `none` is INVALID (42_base83.md R121). -/
def rlut (b : Byte) : Option Nat := positionFrom b 0 alphabet

/-- `b83enc(value, n)`: the symbol indices, most significant first (42_base83.md R122). -/
def b83enc (value n : Nat) : List Nat :=
  (List.range n).map fun i => value / 83 ^ (n - 1 - i) % 83

/-- `b83dec`, from the byte at HASH position `p` on, with what has been accumulated (42_base83.md R123). -/
def b83decFrom : List Byte → Nat → Nat → Except Raise Nat
  | [], _, acc => .ok acc
  | b :: bs, p, acc =>
    match rlut b with
    | none => .error ⟨.invalidCharacter, 0, b.toNat, p⟩
    | some d => b83decFrom bs (p + 1) (acc * 83 + d)

/-- `b83dec` of the `n` bytes at HASH position `p` (42_base83.md R123). -/
def State.b83dec (s : State) (p n : Nat) : Except Raise Nat := b83decFrom (s.hashField p n) p 0

/-- What B83ENC stages (42_base83.md R124). -/
def stageB83enc (n : Nat) (s : State) : Except Raise Staged := do
  checkDigits n
  checkOffset s n
  return { hash := (s.a1Nat, (b83enc s.a0Nat n).map alpha) }

/-- What B83DEC stages (42_base83.md R125). -/
def stageB83dec (n : Nat) (s : State) : Except Raise Staged := do
  checkDigits n
  checkOffset s n
  let v ← s.b83dec s.a1Nat n
  return { r0 := some (BitVec.ofNat 64 v) }

/-- B83ENC (42_base83.md R124). -/
def execB83enc (n : Nat) (s : State) : Answer State := .next (s.complete (stageB83enc n s))

/-- B83DEC (42_base83.md R125). -/
def execB83dec (n : Nat) (s : State) : Answer State := .next (s.complete (stageB83dec n s))

end Sys2Proof.Machine
end

