-- ==== Sys2Proof/Machine/ColorSpace.lean ====
section
/-! DEFINITION. The colour-space unit: toLinear, toGamma; TOLIN, TOGAM, and NOP. -/

namespace Sys2Proof.Machine

/-- `toLinear(c)`, for any unsigned `c` (41_colorspace.md R100, R101). -/
def toLinear (fn : Libm) (c : Nat) : F64 :=
  let v := Fp.div (Fp.ofNat c) Fp.c255_0
  if Fp.le v Fp.c0_04045 then Fp.div v Fp.c12_92
  else fn.pow (Fp.div (Fp.add v Fp.c0_055) Fp.c1_055) Fp.c2_4

/-- `trunc(t)` as a byte (41_colorspace.md R102, 00_scope.md R9). R103 promises 0 to 255 of every
POW_IMPL the spec admits; where a value is not finite, is negative or reaches 256, the byte is free
(log entry 8). -/
def truncByte (t : F64) : Byte :=
  match Fp.unpack t with
  | .nan => Config.gammaFree t
  | .inf _ => Config.gammaFree t
  | .fin neg m e =>
    let k := Fp.floorFin false m e
    if (neg = true ∧ m ≠ 0) ∨ 256 ≤ k then Config.gammaFree t else BitVec.ofNat 8 k.toNat

/-- The gamma-encoded value in [0, 1] before scaling (41_colorspace.md R102). -/
def gammaCurve (fn : Libm) (v : F64) : F64 :=
  if Fp.lt v Fp.c0_0031308 then Fp.mul v Fp.c12_92
  else Fp.sub (Fp.mul Fp.c1_055 (fn.pow v (Fp.div Fp.c1_0 Fp.c2_4))) Fp.c0_055

/-- `toGamma(x)` (41_colorspace.md R102). -/
def toGamma (fn : Libm) (mode : GammaRounding) (x : F64) : Byte :=
  let scaled := Fp.mul (gammaCurve fn (Fp.clamp01 x)) Fp.c255_0
  match mode with
  | .nearest => truncByte (Fp.add scaled Fp.c0_5)
  | .trunc => truncByte scaled

/-- `toGamma` of the three channels, as pixel bytes. -/
def toGammaRgb (fn : Libm) (mode : GammaRounding) (x : Rgb) : List Byte :=
  [toGamma fn mode x.r, toGamma fn mode x.g, toGamma fn mode x.b]

/-- What NOP stages: nothing (45_codec.md R210). -/
def stageNop : Except Raise Staged := .ok {}

/-- What TOLIN stages (41_colorspace.md R104). -/
def stageTolin (fn : Libm) (s : State) : Except Raise Staged :=
  .ok { r0 := some (toLinear fn s.a0Nat) }

/-- What TOGAM stages (41_colorspace.md R105). -/
def stageTogam (fn : Libm) (s : State) : Except Raise Staged :=
  .ok { r0 := some ((toGamma fn s.params.gammaRounding s.a0Float).setWidth 64) }

/-- NOP (45_codec.md R210). -/
def execNop (s : State) : Answer State := .next (s.complete stageNop)

/-- TOLIN (41_colorspace.md R104). -/
def execTolin (s : State) : Answer State := .next (s.complete (stageTolin Config.libm s))

/-- TOGAM (41_colorspace.md R105). -/
def execTogam (s : State) : Answer State := .next (s.complete (stageTogam Config.libm s))

end Sys2Proof.Machine
end

