-- ==== Sys2Proof/Machine/Quantizer.lean ====
section
/-! DEFINITION. The quantizer: QDC, QMAX, QAC, DQDC, DQMAX, DQAC. -/

namespace Sys2Proof.Machine

/-- `dcQuant(r, g, b)` (43_quantizer.md R140). -/
def dcQuant (fn : Libm) (mode : GammaRounding) (x : Rgb) : Nat :=
  (toGamma fn mode x.r).toNat <<< 16 ||| (toGamma fn mode x.g).toNat <<< 8
    ||| (toGamma fn mode x.b).toNat

/-- One step of the maximum of 43_quantizer.md R141: a NaN never becomes the maximum. -/
def maxStep (m v : F64) : F64 := if Fp.lt m (Fp.abs v) then Fp.abs v else m

/-- `actualMax` over the AC cells of a grid, in order (43_quantizer.md R141). -/
def actualMax (acs : List Rgb) : F64 :=
  acs.foldl (fun m x => maxStep (maxStep (maxStep m x.r) x.g) x.b) Fp.c0_0

/-- `quantizedMax(m)` (43_quantizer.md R142). -/
def quantizedMax (m : F64) : Nat := Fp.floorclamp (Fp.sub (Fp.mul m Fp.c166_0) Fp.c0_5) 0 82

/-- `float(q + 1) / 166.0` (43_quantizer.md R153). -/
def scaleOf (q : Nat) : F64 := Fp.div (Fp.ofNat (q + 1)) Fp.c166_0

/-- `acScale(grid, n)` from the AC cells of the grid, of which a grid of one cell has none
(43_quantizer.md R143). -/
def acScale (acs : List Rgb) : Nat × F64 :=
  match acs with
  | [] => (0, Fp.c1_0)
  | _ :: _ => (quantizedMax (actualMax acs), scaleOf (quantizedMax (actualMax acs)))

/-- `acQuant(v, maxValue)` (43_quantizer.md R144). -/
def acQuant (fn : Libm) (v maxValue : F64) : Nat :=
  Fp.floorclamp
    (Fp.add (Fp.mul (Fp.signedPow fn (Fp.div v maxValue) Fp.c0_5) Fp.c9_0) Fp.c9_5) 0 18

/-- `acPack(r, g, b, maxValue)` (43_quantizer.md R145). -/
def acPack (fn : Libm) (x : Rgb) (maxValue : F64) : Nat :=
  acQuant fn x.r maxValue * 361 + acQuant fn x.g maxValue * 19 + acQuant fn x.b maxValue

/-- The red code of a DC value of `2^24` or more, and of an AC value of 6859 or more, where the policy does
not fault (43_quantizer.md R149 to R151). -/
def overrangeRed (policy : OverrangePolicy) (p limit v literal masked : Nat) : Except Raise Nat :=
  match policy with
  | .fault => .error ⟨.fieldOverrange, limit, v, p⟩
  | .mask => .ok masked
  | .literal => .ok literal

/-- `dcDequant(v, p)` (43_quantizer.md R150). -/
def dcDequant (fn : Libm) (policy : OverrangePolicy) (v p : Nat) : Except Raise Rgb := do
  let r ← if 2 ^ 24 ≤ v then overrangeRed policy p (2 ^ 24 - 1) v (v >>> 16) (v >>> 16 &&& 255)
    else .ok (v >>> 16)
  return { r := toLinear fn r, g := toLinear fn (v >>> 8 &&& 255), b := toLinear fn (v &&& 255) }

/-- `acUnpack(v, p)` (43_quantizer.md R151). -/
def acUnpack (policy : OverrangePolicy) (v p : Nat) : Except Raise (Nat × Nat × Nat) := do
  let qr ← if 6859 ≤ v then overrangeRed policy p 6858 v (v / 361) (v / 361 % 19) else .ok (v / 361)
  return (qr, v / 19 % 19, v % 19)

/-- `acDequant(q, maxValue, punch)` (43_quantizer.md R152). -/
def acDequant (fn : Libm) (q : Nat) (maxValue punch : F64) : F64 :=
  Fp.mul
    (Fp.mul (Fp.signedPow fn (Fp.div (Fp.ofInt ((q : Int) - 9)) Fp.c9_0) Fp.c2_0) maxValue) punch

/-- `acDequant` of three quantiles (43_quantizer.md R157, 45_codec.md R201). -/
def acDequantRgb (fn : Libm) (q : Nat × Nat × Nat) (maxValue punch : F64) : Rgb :=
  { r := acDequant fn q.1 maxValue punch
    g := acDequant fn q.2.1 maxValue punch
    b := acDequant fn q.2.2 maxValue punch }

/-- The largest value four base-83 digits hold, `83^4 - 1` (43_quantizer.md R155). -/
abbrev maxDcField : Nat := 47458320

/-- The largest value two base-83 digits hold, `83^2 - 1` (43_quantizer.md R157). -/
abbrev maxAcField : Nat := 6888

/-- The grid cells `1 .. n-1` of COEF (43_quantizer.md R147). -/
def State.coefAcs (s : State) (n : Nat) : List Rgb :=
  (List.range (n - 1)).map fun i => s.coefCell (i + 1)

/-- What QDC stages (43_quantizer.md R146). -/
def stageQdc (fn : Libm) (s : State) : Except Raise Staged :=
  .ok { r0 := some (BitVec.ofNat 64 (dcQuant fn s.params.gammaRounding (s.coefCell 0))) }

/-- What QMAX stages (43_quantizer.md R147). -/
def stageQmax (s : State) : Except Raise Staged := do
  checkComponents s
  let scale := acScale (s.coefAcs (s.xc * s.yc))
  return { qmax := some (BitVec.ofNat 8 scale.1), maxval := some scale.2 }

/-- What QAC stages (43_quantizer.md R148). -/
def stageQac (fn : Libm) (s : State) : Except Raise Staged := do
  checkAtMost 80 s.a0Nat 0
  return { r0 := some (BitVec.ofNat 64 (acPack fn (s.coefCell s.a0Nat) s.maxval)) }

/-- What DQDC stages (43_quantizer.md R155). -/
def stageDqdc (fn : Libm) (s : State) : Except Raise Staged := do
  checkAtMost maxDcField s.a0Nat 0
  let x ← dcDequant fn s.params.overrangePolicy s.a0Nat 0
  return { coef := (0, [x]) }

/-- What DQMAX stages (43_quantizer.md R156). -/
def stageDqmax (s : State) : Except Raise Staged := do
  checkAtMost 82 s.a0Nat 0
  return { qmax := some (BitVec.ofNat 8 s.a0Nat), maxval := some (scaleOf s.a0Nat) }

/-- What DQAC stages (43_quantizer.md R157). -/
def stageDqac (fn : Libm) (s : State) : Except Raise Staged := do
  checkAtMost maxAcField s.a0Nat 0
  checkAtMost 80 s.a1Nat 1
  let q ← acUnpack s.params.overrangePolicy s.a0Nat 0
  return { coef := (s.a1Nat, [acDequantRgb fn q s.maxval s.punch]) }

/-- QDC (43_quantizer.md R146). -/
def execQdc (s : State) : Answer State := .next (s.complete (stageQdc Config.libm s))

/-- QMAX (43_quantizer.md R147). -/
def execQmax (s : State) : Answer State := .next (s.complete (stageQmax s))

/-- QAC (43_quantizer.md R148). -/
def execQac (s : State) : Answer State := .next (s.complete (stageQac Config.libm s))

/-- DQDC (43_quantizer.md R155). -/
def execDqdc (s : State) : Answer State := .next (s.complete (stageDqdc Config.libm s))

/-- DQMAX (43_quantizer.md R156). -/
def execDqmax (s : State) : Answer State := .next (s.complete (stageDqmax s))

/-- DQAC (43_quantizer.md R157). -/
def execDqac (s : State) : Answer State := .next (s.complete (stageDqac Config.libm s))

end Sys2Proof.Machine
end

