-- ==== Sys2Proof/Machine/Transform.lean ====
section
/-! DEFINITION. The transform unit: FDCT, IDCT. -/

namespace Sys2Proof.Machine

/-- `for i in [0, n)` over an accumulator, in increasing order (00_scope.md R9). -/
def forRange {α : Type} : Nat → (Nat → α → α) → α → α
  | 0, _, acc => acc
  | n + 1, body, acc => body n (forRange n body acc)

/-- `COS(((PI * float(i)) * float(p)) / float(n))` (00_scope.md R13). -/
def cosTerm (fn : Libm) (i p n : Nat) : F64 :=
  fn.cos (Fp.div (Fp.mul (Fp.mul Fp.pi (Fp.ofNat i)) (Fp.ofNat p)) (Fp.ofNat n))

/-- `fbasis(x, y, px, py)` for an image of `w` by `h` (44_transform.md R170). -/
def fbasis (fn : Libm) (w h x y px py : Nat) : F64 :=
  Fp.mul (cosTerm fn x px w) (cosTerm fn y py h)

/-- The sums of three channels, from `+0.0` on (00_scope.md R13). -/
def Rgb.zero : Rgb := { r := Fp.c0_0, g := Fp.c0_0, b := Fp.c0_0 }

/-- The sums of `fcell` over the pixels of the image in `pix`, rows in increasing `py`, each row in increasing
`px` (44_transform.md R171). -/
def fsum (fn : Libm) (pix : Nat → Byte) (w h x y : Nat) : Rgb :=
  forRange h (fun py acc =>
    forRange w (fun px acc =>
      let t := fbasis fn w h x y px py
      let i := 3 * (py * w + px)
      { r := Fp.add acc.r (Fp.mul t (toLinear fn (pix i).toNat))
        g := Fp.add acc.g (Fp.mul t (toLinear fn (pix (i + 1)).toNat))
        b := Fp.add acc.b (Fp.mul t (toLinear fn (pix (i + 2)).toNat)) }) acc) Rgb.zero

/-- `fcell(x, y)` (44_transform.md R171). -/
def fcell (fn : Libm) (pix : Nat → Byte) (w h x y : Nat) : Rgb :=
  let sum := fsum fn pix w h x y
  let norm := if x = 0 ∧ y = 0 then Fp.c1_0 else Fp.c2_0
  let scale := Fp.div norm (Fp.ofNat (w * h))
  { r := Fp.mul sum.r scale, g := Fp.mul sum.g scale, b := Fp.mul sum.b scale }

/-- The forward grid of the image in PIX: cell `(x, y)` at `k = y * xc + x` (44_transform.md R172). -/
def forwardGrid (fn : Libm) (s : State) : List Rgb :=
  (List.range (s.xc * s.yc)).map fun k => fcell fn s.pixByte s.w s.h (k % s.xc) (k / s.xc)

/-- `ipixel(px, py)` before the conversion to bytes: the sums over the cells of a grid `xc` cells wide, in
increasing `k` (44_transform.md R175). -/
def isum (fn : Libm) (xc w h px py : Nat) : Nat → List Rgb → Rgb → Rgb
  | _, [], acc => acc
  | k, cell :: grid, acc =>
    let t := Fp.mul (cosTerm fn px (k % xc) w) (cosTerm fn py (k / xc) h)
    isum fn xc w h px py (k + 1) grid
      { r := Fp.add acc.r (Fp.mul cell.r t)
        g := Fp.add acc.g (Fp.mul cell.g t)
        b := Fp.add acc.b (Fp.mul cell.b t) }

/-- `ipixel(px, py)` (44_transform.md R175). -/
def ipixel (fn : Libm) (mode : GammaRounding) (grid : List Rgb) (xc w h px py : Nat) : List Byte :=
  toGammaRgb fn mode (isum fn xc w h px py 0 grid Rgb.zero)

/-- The image of a grid: rows in increasing `py`, each row in increasing `px`, three bytes a pixel
(44_transform.md R176, R177); pixel number `i` is `(i mod w, i div w)`. -/
def inverseImage (fn : Libm) (mode : GammaRounding) (grid : List Rgb) (xc w h : Nat) : List Byte :=
  (List.range (w * h)).flatMap fun i => ipixel fn mode grid xc w h (i % w) (i / w)

/-- The grid of `n` cells in COEF (44_transform.md R176). -/
def State.coefGrid (s : State) (n : Nat) : List Rgb := (List.range n).map s.coefCell

/-- What FDCT stages (44_transform.md R174). -/
def stageFdct (fn : Libm) (s : State) : Except Raise Staged := do
  checkImage s
  return { coef := (0, forwardGrid fn s) }

/-- What IDCT stages (44_transform.md R176). -/
def stageIdct (fn : Libm) (s : State) : Except Raise Staged := do
  checkComponents s
  checkTarget s
  return {
    pix := inverseImage fn s.params.gammaRounding (s.coefGrid (s.xc * s.yc)) s.xc s.w s.h
    pixLen := some (BitVec.ofNat 64 s.need) }

/-- FDCT (44_transform.md R174). -/
def execFdct (s : State) : Answer State := .next (s.complete (stageFdct Config.libm s))

/-- IDCT (44_transform.md R176). -/
def execIdct (s : State) : Answer State := .next (s.complete (stageIdct Config.libm s))

end Sys2Proof.Machine
end

