-- ==== Sys2Proof/Machine/Codec.lean ====
section
/-! DEFINITION. The codec sequencer: ENCODE, DECODE. -/

namespace Sys2Proof.Machine

/-- `sizeFlag(xc, yc)`, for counts of at least 1 (45_codec.md R191). -/
def sizeFlag (xc yc : Nat) : Nat := (xc - 1) + (yc - 1) * 9

/-- The horizontal count of a size flag (45_codec.md R192). -/
def flagXc (f : Nat) : Nat := f % 9 + 1

/-- The vertical count of a size flag (45_codec.md R192). -/
def flagYc (f : Nat) : Nat := f / 9 + 1

/-- The length of a hash of `n` cells (45_codec.md R190). -/
def hashLength (n : Nat) : Nat := 4 + 2 * n

/-- `buildHash(grid, xc, yc)` without the scale pair: the symbol indices of the hash (45_codec.md R195). -/
def buildHash (fn : Libm) (mode : GammaRounding) (grid : List Rgb) (xc yc : Nat) : List Nat :=
  b83enc (sizeFlag xc yc) 1
    ++ b83enc (acScale grid.tail).1 1
    ++ b83enc (dcQuant fn mode (grid.headD Rgb.zero)) 4
    ++ grid.tail.flatMap fun x => b83enc (acPack fn x (acScale grid.tail).2) 2

/-- What ENCODE stages (45_codec.md R197). -/
def stageEncode (fn : Libm) (s : State) : Except Raise Staged := do
  checkImage s
  let grid := forwardGrid fn s
  let scale := acScale grid.tail
  return {
    coef := (0, grid)
    qmax := some (BitVec.ofNat 8 scale.1)
    maxval := some scale.2
    hash := (0, (buildHash fn s.params.gammaRounding grid s.xc s.yc).map alpha)
    hashLen := some (BitVec.ofNat 16 (hashLength (s.xc * s.yc))) }

/-- The header checks of DECODE: the size flag, where all pass (45_codec.md R200). -/
def decodeHeader (s : State) : Except Raise Nat := do
  let hl := s.hashLen.toNat
  if hl < 6 then .error ⟨.tooShort, 6, hl, 0⟩
  else
    let f ← s.b83dec 0 1
    if 80 < f ∧ s.params.sizeFlagPolicy = .reject then .error ⟨.invalidSizeFlag, 80, f, 0⟩
    else
      let expected := hashLength (flagXc f * flagYc f)
      if hl ≠ expected then .error ⟨.lengthMismatch, expected, hl, 0⟩
      else return f

/-- The AC terms `k .. k + count - 1` of the hash, in increasing position (45_codec.md R201). -/
def decodeAcs (fn : Libm) (s : State) (mv : F64) : Nat → Nat → Except Raise (List Rgb)
  | 0, _ => .ok []
  | count + 1, k => do
    let v ← s.b83dec (4 + 2 * k) 2
    let q ← acUnpack s.params.overrangePolicy v (4 + 2 * k)
    let rest ← decodeAcs fn s mv count (k + 1)
    return acDequantRgb fn q mv s.punch :: rest

/-- The scale of a decode: 1.0 for a grid of one cell (45_codec.md R204). -/
def decodeScale (n q : Nat) : F64 := if n = 1 then Fp.c1_0 else scaleOf q

/-- Field parsing: max-AC, then DC, then the AC terms (45_codec.md R201). -/
def decodeFields (fn : Libm) (s : State) (n : Nat) : Except Raise (Nat × List Rgb) := do
  let q ← s.b83dec 1 1
  let dcv ← s.b83dec 2 4
  let dc ← dcDequant fn s.params.overrangePolicy dcv 2
  let acs ← decodeAcs fn s (decodeScale n q) (n - 1) 1
  return (q, dc :: acs)

/-- What DECODE stages (45_codec.md R205). -/
def stageDecode (fn : Libm) (s : State) : Except Raise Staged := do
  let f ← decodeHeader s
  let n := flagXc f * flagYc f
  let fields ← decodeFields fn s n
  checkTarget s
  return {
    xcomp := some (BitVec.ofNat 8 (flagXc f))
    ycomp := some (BitVec.ofNat 8 (flagYc f))
    qmax := some (BitVec.ofNat 8 fields.1)
    maxval := some (decodeScale n fields.1)
    coef := (0, fields.2)
    pix := inverseImage fn s.params.gammaRounding fields.2 (flagXc f) s.w s.h
    pixLen := some (BitVec.ofNat 64 s.need) }

/-- ENCODE (45_codec.md R197). -/
def execEncode (s : State) : Answer State := .next (s.complete (stageEncode Config.libm s))

/-- DECODE (45_codec.md R205). -/
def execDecode (s : State) : Answer State := .next (s.complete (stageDecode Config.libm s))

end Sys2Proof.Machine
end

