-- ==== Sys2Proof/Machine/Dispatch.lean ====
section
/-! DEFINITION. One arm per command: `exec i s` performs command `i` in state `s` and completes it. -/

namespace Sys2Proof.Machine

def exec (i : Instr) (s : State) : Host.Outcome State Fault Refusal :=
  match i with
  | .nop => Sys2Proof.Machine.execNop s
  | .tolin => Sys2Proof.Machine.execTolin s
  | .togam => Sys2Proof.Machine.execTogam s
  | .b83enc n => Sys2Proof.Machine.execB83enc n s
  | .b83dec n => Sys2Proof.Machine.execB83dec n s
  | .qdc => Sys2Proof.Machine.execQdc s
  | .qmax => Sys2Proof.Machine.execQmax s
  | .qac => Sys2Proof.Machine.execQac s
  | .dqdc => Sys2Proof.Machine.execDqdc s
  | .dqmax => Sys2Proof.Machine.execDqmax s
  | .dqac => Sys2Proof.Machine.execDqac s
  | .fdct => Sys2Proof.Machine.execFdct s
  | .idct => Sys2Proof.Machine.execIdct s
  | .encode => Sys2Proof.Machine.execEncode s
  | .decode => Sys2Proof.Machine.execDecode s

end Sys2Proof.Machine
end

