-- ==== Sys2Proof/Machine/HostPort.lean ====
section
/-! DEFINITION. The host port: the address map, the registers as the host reads and writes them, and the
effect of one host access (20_memory.md; 10_state.md; 70_reset_and_hazards.md R260 to R263). -/

namespace Sys2Proof.Machine

/-- The rows of the address map, in address order (20_memory.md R60). -/
inductive Row where
  | csr
  | coef
  | gapAfterCoef
  | hash
  | gapAfterHash
  | alpha
  | gapAfterAlpha
  | pix
  | gapAfterPix
  deriving DecidableEq, Repr

/-- The row of a byte address, for a PIX window of `cap` bytes (20_memory.md R60). -/
def rowOf (cap a : Nat) : Row :=
  if a < 0x1000 then .csr
  else if a < 0x1798 then .coef
  else if a < 0x2000 then .gapAfterCoef
  else if a < 0x20A6 then .hash
  else if a < 0x2100 then .gapAfterHash
  else if a < 0x2153 then .alpha
  else if a < 0x10000 then .gapAfterAlpha
  else if a < 0x10000 + cap then .pix
  else .gapAfterPix

/-- Whether a row takes accesses of a width; a reserved row takes both (20_memory.md R60, R63). -/
def Row.takes : Row → Width → Bool
  | .csr, w => decide (w = .w64)
  | .coef, w => decide (w = .w64)
  | .gapAfterCoef, _ => true
  | .hash, w => decide (w = .w8)
  | .gapAfterHash, _ => true
  | .alpha, w => decide (w = .w8)
  | .gapAfterAlpha, _ => true
  | .pix, w => decide (w = .w8)
  | .gapAfterPix, _ => true

/-- The bytes of an access. -/
def Width.bytes : Width → Nat
  | .w8 => 1
  | .w64 => 8

/-- A legal access: aligned, in one row, of that row's width (20_memory.md R63). -/
def legalAccess (cap : Nat) (w : Width) (a : Nat) : Bool :=
  decide (a % w.bytes = 0)
    && (List.range w.bytes).all (fun i => decide (rowOf cap (a + i) = rowOf cap a))
    && (rowOf cap a).takes w

/-- ID (10_state.md R21). -/
abbrev idWord : Word := 0x0000000142484331#64

/-- CSR `n` as the host reads it (10_state.md R20 to R47). While BUSY every register but STATUS reads as before the
command was accepted (70_reset_and_hazards.md R263): CTRL and the error context through `State.readable`
(log entries 9, 10), and the others because nothing changes them until completion. -/
def State.readCsr (s : State) (n : Nat) : Word :=
  match n with
  | 0 => idWord
  | 1 => s.ctrl
  | 2 => s.status
  | 3 => 0
  | 4 => s.width.setWidth 64
  | 5 => s.height.setWidth 64
  | 6 => s.xcomp.setWidth 64
  | 7 => s.ycomp.setWidth 64
  | 8 => s.punch
  | 9 => s.pixLen
  | 10 => s.hashLen.setWidth 64
  | 11 => s.a0
  | 12 => s.a1
  | 13 => s.r0
  | 14 => s.qmax.setWidth 64
  | 15 => s.maxval
  | 16 => s.readable.errExp
  | 17 => s.readable.errAct
  | 18 => s.readable.errPos
  | 19 => BitVec.ofNat 64 s.params.pixCap
  | _ => 0

/-- A host write to CMD: a command starts, or, while BUSY, the word is lost (10_state.md R27, R29;
70_reset_and_hazards.md R262). -/
def State.writeCmd (s : State) (v : Word) : State :=
  if s.busy then { s with cmdlost := true } else s.accept v

/-- A host write to CTRL, at any time (10_state.md R22, 70_reset_and_hazards.md R261). -/
def State.writeCtrl (s : State) (v : Word) : State := { s with irqen := v.getLsbD 0 }

/-- A host write to STATUS, at any time: 1 clears DONE and CMDLOST (10_state.md R23, R25, R27). -/
def State.writeStatus (s : State) (v : Word) : State :=
  { s with done := s.done && !v.getLsbD 1, cmdlost := s.cmdlost && !v.getLsbD 3 }

/-- A host write to a register other than CTRL, STATUS and CMD, while the engine is IDLE: narrow registers
take the low bits, read-only and reserved ones ignore it (10_state.md R20, R30 to R47). -/
def State.writeDataCsr (s : State) (n : Nat) (v : Word) : State :=
  match n with
  | 4 => { s with width := v.setWidth 16 }
  | 5 => { s with height := v.setWidth 16 }
  | 6 => { s with xcomp := v.setWidth 8 }
  | 7 => { s with ycomp := v.setWidth 8 }
  | 8 => { s with punch := v }
  | 9 => { s with pixLen := v }
  | 10 => { s with hashLen := v.setWidth 16 }
  | 11 => { s with a0 := v }
  | 12 => { s with a1 := v }
  | _ => s

/-- A write that the BUSY interval suppresses (70_reset_and_hazards.md R261). -/
def State.unlessBusy (s : State) (t : State) : State := if s.busy then s else t

/-- A host write to CSR `n` (10_state.md R20; 70_reset_and_hazards.md R261, R262). -/
def State.writeCsr (s : State) (n : Nat) (v : Word) : State :=
  match n with
  | 1 => s.writeCtrl v
  | 2 => s.writeStatus v
  | 3 => s.writeCmd v
  | _ => s.unlessBusy (s.writeDataCsr n v)

/-- The data of a legal 64-bit read (20_memory.md R60, R61, R66). -/
def State.load64 (s : State) (a : Nat) : Word :=
  match rowOf s.params.pixCap a with
  | .csr => s.readCsr (a / 8)
  | .coef => s.coefElem ((a - coefBase) / 8)
  | _ => 0

/-- The data of a legal 8-bit read (20_memory.md R60, R62, R64 to R66). -/
def State.load8 (s : State) (a : Nat) : Byte :=
  match rowOf s.params.pixCap a with
  | .hash => s.byteAt a
  | .alpha => alpha (a - alphaBase)
  | .pix => s.byteAt a
  | _ => 0

/-- A legal 64-bit write (20_memory.md R60, R61, R66; 70_reset_and_hazards.md R261). -/
def State.store64 (s : State) (a : Nat) (v : Word) : State :=
  match rowOf s.params.pixCap a with
  | .csr => s.writeCsr (a / 8) v
  | .coef => s.unlessBusy { s with coef := Store.write s.coef ((a - coefBase) / 8) v }
  | _ => s

/-- A legal 8-bit write (20_memory.md R60, R62, R64 to R66; 70_reset_and_hazards.md R261). -/
def State.store8 (s : State) (a : Nat) (v : Byte) : State :=
  match rowOf s.params.pixCap a with
  | .hash => s.unlessBusy { s with mem := Store.write s.mem a v }
  | .pix => s.unlessBusy { s with mem := Store.write s.mem a v }
  | _ => s

/-- The width and address of an access. -/
def Access.width : Access → Width
  | .read w _ => w
  | .write8 _ _ => .w8
  | .write64 _ _ => .w64

def Access.addr : Access → Nat
  | .read _ a => a.toNat
  | .write8 a _ => a.toNat
  | .write64 a _ => a.toNat

/-- The effect of a legal access on the block, the port's response apart: a read has none (20_memory.md
R71). -/
def State.accessEffect (s : State) : Access → State
  | .read _ _ => s
  | .write8 a v => s.store8 a.toNat v
  | .write64 a v => s.store64 a.toNat v

/-- The response to a legal access. -/
def State.accessData (s : State) : Access → Response
  | .read .w8 a => .data8 (s.load8 a.toNat)
  | .read .w64 a => .data64 (s.load64 a.toNat)
  | .write8 _ _ => .written
  | .write64 _ _ => .written

/-- One host access (20_memory.md R63, R67). While reset is asserted the block answers none
(70_reset_and_hazards.md R250); an illegal access is answered by a bus error and changes nothing. -/
def State.hostAccess (s : State) (x : Access) : State :=
  if s.resetHeld then { s with port := .unanswered }
  else if legalAccess s.params.pixCap x.width x.addr then
    { s.accessEffect x with port := s.accessData x }
  else { s with port := .busError }

end Sys2Proof.Machine
end

