-- ==== Sys2Proof/Machine/Engine.lean ====
section
/-! DEFINITION. What each event does: a host access, the completion of the running command, reset. -/

namespace Sys2Proof.Machine

/-- The engine decodes a command word and performs the command (30_encoding.md R81). A word that is no
command completes with IllegalCommand (R84). -/
def performWord (w : Word) (s : State) : Answer State :=
  match decode w with
  | .ok i => exec i s
  | .error _ => .next (s.raise ⟨.illegalCommand, 0, w.toNat, 0⟩)

/-- The running command completes (60_exceptions.md R226). An IDLE engine has nothing to complete. -/
def completeRunning (s : State) : Answer State :=
  match s.engine with
  | .idle => .next s
  | .busy w _ => performWord w s

/-- One event, already taken from the agenda. -/
def handle (e : Event) (s : State) : Answer State :=
  match e with
  | .host x => .next (s.hostAccess x)
  | .complete => completeRunning s
  | .assertReset => .next s.assertReset
  | .releaseReset => .next s.releaseReset

/-- The state in which the engine has just accepted a command word and is to complete it next: `w` latched, as
acceptance leaves it (60_exceptions.md R225), reset released, and the completion first in the agenda. -/
def State.latch (s : State) (w : Word) : State :=
  { s.accept w with resetHeld := false, agenda := .complete :: s.agenda }

end Sys2Proof.Machine
end

