-- ==== Sys2Proof/Machine/Step.lean ====
section
/-! DEFINITION. One step of BHC-1. -/

namespace Sys2Proof.Machine

/-- One step: the oldest event of the agenda happens. With nothing left on the agenda the running command
completes, as every command does (70_reset_and_hazards.md R266), and an IDLE block stays as it is. -/
def step (s : State) : Host.Outcome State Fault Refusal :=
  match s.agenda with
  | [] => completeRunning s
  | e :: rest => handle e { s with agenda := rest }

/-- `s` with a command word latched in the engine, where the next step takes its command from. BHC-1 fetches no
instruction (20_memory.md R77): a word reaches this place by an accepted write to CMD (log entry 14). -/
def State.withFetchWord (s : State) (nbits w : Nat) : State := s.latch (tableWord nbits w)

end Sys2Proof.Machine
end

