-- ==== Sys2Proof/Safety.lean ====
section
/-! DEFINITION. What every state of a run from reset satisfies: the legal states of BHC-1, in the terms the
statements use. -/

namespace Sys2Proof.Machine

/-- The values MAXVAL takes: `1.0`, or `float(q + 1) / 166.0` for some `q` from 0 to 82 (10_state.md R42). -/
def legalMaxval (v : F64) : Prop := v = Fp.c1_0 ∨ ∃ q, q ≤ 82 ∧ v = scaleOf q

/-- A host address inside the HASH or the PIX window (20_memory.md R60). -/
def inByteWindow (cap a : Nat) : Prop :=
  (hashBase ≤ a ∧ a < hashBase + hashCap) ∨ (pixBase ≤ a ∧ a < pixBase + cap)

/-- The invariant of BHC-1. -/
structure State.Inv (s : State) : Prop where
  /-- The byte memory is in canonical form. -/
  memCanonical : Memory.wf s.mem = true
  /-- The coefficient file is in canonical form. -/
  coefCanonical : Store.wf s.coef = true
  /-- Only HASH and PIX are ever written (20_memory.md R60, R66, R67). -/
  memInWindows : ∀ c ∈ s.mem, inByteWindow s.params.pixCap c.1
  /-- Only the 81 cells of COEF are ever written (10_state.md R48). -/
  coefInFile : ∀ c ∈ s.coef, c.1 < 243
  /-- ERRCODE takes no code the spec does not list (60_exceptions.md R220). -/
  errcodeLegal : legalErrcode s.errcode = true
  /-- Without an error there is no error context (60_exceptions.md R220, code 0). -/
  contextClear : s.errcode = 0 → s.errExp = 0 ∧ s.errAct = 0 ∧ s.errPos = 0
  /-- While BUSY, DONE and ERRCODE are 0 (60_exceptions.md R225; 70_reset_and_hazards.md R263). -/
  busyClear : s.busy = true → s.done = false ∧ s.errcode = 0
  /-- QMAX is 0 to 82 (10_state.md R41). -/
  qmaxRange : s.qmax.toNat ≤ 82
  /-- MAXVAL is a legal scale (10_state.md R42). -/
  maxvalLegal : legalMaxval s.maxval
  /-- PIX_CAP is in its range (00_scope.md R5). -/
  paramsValid : s.params.wf = true
  /-- While reset is asserted the engine is IDLE (70_reset_and_hazards.md R252). -/
  heldIdle : s.resetHeld = true → s.engine = .idle

end Sys2Proof.Machine
end

