-- ==== Sys2Proof/Certificates/Slice0/Obligations.lean ====
section
/-! DEFINITION. The statements for the provers, from the numbered rules of the spec. `okState` and `errState`
write out what completion does to STATUS and the error context, so that a statement
`exec i s = .next (…)` says the result and everything that stays as it was. -/

open Sys2Proof Sys2Proof.Machine

namespace Sys2Proof.Statements

/-- Completion without error: BUSY 0, DONE 1, ERRCODE and the error context 0, all else as it was
(60_exceptions.md R220, R226). -/
def okState (s : State) : State :=
  { s with engine := .idle, done := true, errcode := 0, errExp := 0, errAct := 0, errPos := 0 }

/-- Completion with an error code and its context, all else as it was (60_exceptions.md R220, R222, R224). -/
def errState (s : State) (code : BitVec 8) (exp act pos : Nat) : State :=
  { s with
    engine := .idle, done := true, errcode := code, errExp := BitVec.ofNat 64 exp,
    errAct := BitVec.ofNat 64 act, errPos := BitVec.ofNat 64 pos }

/-- The image size as integers. -/
def imageBytes (s : State) : Nat := 3 * s.width.toNat * s.height.toNat

/-- Both component counts are 1 to 9 (10_state.md R32, R33). -/
def componentsLegal (s : State) : Prop :=
  1 ≤ s.xcomp.toNat ∧ s.xcomp.toNat ≤ 9 ∧ 1 ≤ s.ycomp.toNat ∧ s.ycomp.toNat ≤ 9

/-- The target size is legal and fits PIX (44_transform.md R173). -/
def targetLegal (s : State) : Prop :=
  1 ≤ s.width.toNat ∧ 1 ≤ s.height.toNat ∧ imageBytes s ≤ s.params.pixCap

/-- The three values of COEF cell `k`. -/
def cell (s : State) (k : Nat) : F64 × F64 × F64 :=
  (s.coefElem (3 * k), s.coefElem (3 * k + 1), s.coefElem (3 * k + 2))

/-- A grid cell as three values. -/
def triple (x : Rgb) : F64 × F64 × F64 := (x.r, x.g, x.b)

/-- The ASCII code of symbol `i` of the alphabet, for `i` up to 82 (42_base83.md R120). -/
def symbolCode (i : Nat) : Nat :=
  if i < 10 then 0x30 + i
  else if i < 36 then 0x41 + (i - 10)
  else if i < 62 then 0x61 + (i - 36)
  else
    [0x23, 0x24, 0x25, 0x2A, 0x2B, 0x2C, 0x2D, 0x2E, 0x3A, 0x3B, 0x3D, 0x3F, 0x40, 0x5B, 0x5D, 0x5E, 0x5F,
      0x7B, 0x7C, 0x7D, 0x7E].getD (i - 62) 0

/-- The digit at place `i` of `n`, most significant first (42_base83.md R122). -/
def digit (value n i : Nat) : Nat := value / 83 ^ (n - 1 - i) % 83

/-- The number whose base-83 digits these are, most significant first (42_base83.md R123). -/
def number (ds : List Nat) : Nat := ds.foldl (fun acc d => acc * 83 + d) 0

/-- The DC field of a hash with these digits (45_codec.md R193). -/
def dcField (ds : List Nat) : Nat := number [ds.getD 2 0, ds.getD 3 0, ds.getD 4 0, ds.getD 5 0]

/-- The field of AC term `k` of a hash with these digits (45_codec.md R193). -/
def acField (ds : List Nat) (k : Nat) : Nat := number [ds.getD (4 + 2 * k) 0, ds.getD (5 + 2 * k) 0]

/-- The real number a finite binary64 encoding stands for (00_scope.md R10). -/
def value (x : F64) : Option Rat :=
  match Fp.unpack x with
  | .fin neg m e => some ((if neg then -1 else 1) * (m : Rat) * (2 : Rat) ^ e)
  | .inf _ => none
  | .nan => none

/-- `r` is the exact result rounded to binary64, to nearest, ties to even (00_scope.md R10): infinite where the
exact result is at least the midpoint above the largest finite value, and otherwise finite, no finite value
nearer, and of two equally near the one whose last bit is 0. -/
def roundsTo (r : F64) (exact : Rat) : Prop :=
  ((2 ^ 54 - 1) * 2 ^ 970 ≤ |exact| → r = Fp.inf (decide (exact < 0))) ∧
  (|exact| < (2 ^ 54 - 1) * 2 ^ 970 → ∃ v, value r = some v ∧
    ∀ y u, value y = some u → |v - exact| ≤ |u - exact| ∧
      (|v - exact| = |u - exact| → u = v ∨ r.toNat % 2 = 0))

/-- The bytes at HASH position `p` are the symbols of these digits. -/
def spells (s : State) (p : Nat) (ds : List Nat) : Prop :=
  ∀ i (h : i < ds.length), rlut (s.hashByte (p + i)) = some ds[i]

end Sys2Proof.Statements

open Sys2Proof.Statements

/-! ## Encoding -/

/-- 30_encoding.md R80 to R83: the word of every command decodes to the command, digit count included. -/
def Obligations.DecodeOfEncodeIsIdentity : Prop :=
  ∀ i : Instr, i.wf = true → Sys2Proof.decode (Sys2Proof.encode i) = .ok i

/-- 30_encoding.md R80 to R84: a word has at most one meaning, and it is the command whose word it is. -/
def Obligations.EncodeOfDecodeIsIdentity : Prop :=
  ∀ (w : Word) (i : Instr), Sys2Proof.decode w = .ok i → i.wf = true ∧ Sys2Proof.encode i = w

/-- 30_encoding.md R84: exactly the words with a reserved bit, an unassigned OPC, or an N on a command that takes
none are no command. -/
def Obligations.ReservedWordsAreExactlyTheRejected : Prop :=
  ∀ w : Word,
    (∃ e, Sys2Proof.decode w = .error e) ↔
      (w.toNat / 4096 ≠ 0 ∨
        w.toNat % 256 ∉ [0x00, 0x01, 0x02, 0x10, 0x11, 0x20, 0x21, 0x22, 0x28, 0x29, 0x2A, 0x30, 0x31,
          0x40, 0x41] ∨
        (w.toNat / 256 % 16 ≠ 0 ∧ w.toNat % 256 ≠ 0x10 ∧ w.toNat % 256 ≠ 0x11))

/-- 30_encoding.md R83: the words the rule writes out. -/
def Obligations.WrittenOutWordsDecode : Prop :=
  Sys2Proof.decode 0x00#64 = .ok .nop ∧ Sys2Proof.decode 0x01#64 = .ok .tolin ∧
  Sys2Proof.decode 0x02#64 = .ok .togam ∧ Sys2Proof.decode 0x210#64 = .ok (.b83enc 2) ∧
  Sys2Proof.decode 0x410#64 = .ok (.b83enc 4) ∧ Sys2Proof.decode 0xA11#64 = .ok (.b83dec 10) ∧
  Sys2Proof.decode 0x20#64 = .ok .qdc ∧ Sys2Proof.decode 0x21#64 = .ok .qmax ∧
  Sys2Proof.decode 0x22#64 = .ok .qac ∧ Sys2Proof.decode 0x28#64 = .ok .dqdc ∧
  Sys2Proof.decode 0x29#64 = .ok .dqmax ∧ Sys2Proof.decode 0x2A#64 = .ok .dqac ∧
  Sys2Proof.decode 0x30#64 = .ok .fdct ∧ Sys2Proof.decode 0x31#64 = .ok .idct ∧
  Sys2Proof.decode 0x40#64 = .ok .encode ∧ Sys2Proof.decode 0x41#64 = .ok .decode

/-! ## The step and the life of a command -/

/-- The step that completes the running command is `exec` of the command its word decodes to: when the completion
is next on the agenda, and when the agenda is empty (the agenda is the model's, log entry 1). -/
def Obligations.StepRunsTheLatchedCommand : Prop :=
  ∀ (s : State) (w : Word) (b : HostView) (i : Instr), s.engine = .busy w b →
    Sys2Proof.decode w = .ok i →
    (s.agenda = [] → step s = exec i s) ∧
    (∀ rest, s.agenda = .complete :: rest → step s = exec i { s with agenda := rest })

/-- 30_encoding.md R84, 60_exceptions.md R220: a word that is no command completes with IllegalCommand(0, w, 0) and
nothing else changes, when the completion is next on the agenda and when the agenda is empty (the agenda is
the model's, log entry 1). -/
def Obligations.IllegalWordCompletesWithIllegalCommand : Prop :=
  ∀ (s : State) (w : Word) (b : HostView), s.engine = .busy w b →
    (∃ e, Sys2Proof.decode w = .error e) →
    (s.agenda = [] → step s = .next (errState s 16 0 w.toNat 0)) ∧
    (∀ rest, s.agenda = .complete :: rest →
      step s = .next (errState { s with agenda := rest } 16 0 w.toNat 0))

/-- 60_exceptions.md R225, 70_reset_and_hazards.md R262: a write to CMD while IDLE is accepted, CMDLOST and CTRL
unchanged; while BUSY it is discarded and sets CMDLOST. That the error context is cleared at acceptance and yet its
earlier values, with those of IRQEN, are kept in the BUSY phase for the host's reads is the model's reading of
R225, R261 and R263 together: DEDUCED, log entries 9 and 10. The agenda and the response are the model's (log
entries 1, 11). -/
def Obligations.CmdWriteIsAcceptedOrLost : Prop :=
  ∀ (s : State) (w : Word) (rest : List Event), s.resetHeld = false →
    s.agenda = .host (.write64 0x018 w) :: rest →
    (s.engine = .idle →
      step s = .next
        { s with
          agenda := rest, port := .written, done := false, errcode := 0, errExp := 0, errAct := 0,
          errPos := 0,
          engine := .busy w
            { irqen := s.irqen, errExp := s.errExp, errAct := s.errAct, errPos := s.errPos } }) ∧
    (∀ w' b, s.engine = .busy w' b →
      step s = .next { s with agenda := rest, port := .written, cmdlost := true })

/-- 70_reset_and_hazards.md R261, 20_memory.md R64: while BUSY a write to any other CSR, to COEF, PIX, HASH or ALPHA
changes nothing, and no bus error results. -/
def Obligations.OtherWritesWhileBusyAreIgnored : Prop :=
  ∀ (s : State) (rest : List Event), s.busy = true → s.resetHeld = false →
    (∀ (a : Addr) (v : Word),
      (a.toNat % 8 = 0 ∧ a.toNat < 0x1798 ∧ a.toNat ≠ 0x008 ∧ a.toNat ≠ 0x010 ∧ a.toNat ≠ 0x018) →
      s.agenda = .host (.write64 a v) :: rest →
      step s = .next { s with agenda := rest, port := .written }) ∧
    (∀ (a : Addr) (v : Byte),
      (inByteWindow s.params.pixCap a.toNat ∨ (0x2100 ≤ a.toNat ∧ a.toNat ≤ 0x2152)) →
      s.agenda = .host (.write8 a v) :: rest →
      step s = .next { s with agenda := rest, port := .written })

/-- 10_state.md R22, R23, 70_reset_and_hazards.md R261: writes to CTRL and STATUS take effect, BUSY or not, and touch
only IRQEN, or DONE and CMDLOST where the written bit is 1. -/
def Obligations.CtrlAndStatusWritesTakeEffect : Prop :=
  ∀ (s : State) (v : Word) (rest : List Event), s.resetHeld = false →
    (s.agenda = .host (.write64 0x008 v) :: rest →
      step s = .next { s with agenda := rest, port := .written, irqen := v.getLsbD 0 }) ∧
    (s.agenda = .host (.write64 0x010 v) :: rest →
      step s = .next
        { s with
          agenda := rest, port := .written, done := s.done && !v.getLsbD 1,
          cmdlost := s.cmdlost && !v.getLsbD 3 })

/-- 20_memory.md R71: a read changes nothing of the block; only the response and the agenda move on. -/
def Obligations.ReadsHaveNoSideEffect : Prop :=
  ∀ (s : State) (w : Width) (a : Addr) (rest : List Event), s.agenda = .host (.read w a) :: rest →
    ∃ t, step s = .next t ∧ { t with port := s.port } = { s with agenda := rest }

/-- 10_state.md R20 to R47: what a read of each CSR returns. CTRL and the error context answer, while BUSY, what they
held before the command was accepted (70_reset_and_hazards.md R263; the model's reading, DEDUCED, log entries 9
and 10). -/
def Obligations.CsrReadsReturnTheRegisters : Prop :=
  ∀ (s : State) (n : Nat) (rest : List Event), n < 512 → s.resetHeld = false →
    s.agenda = .host (.read .w64 (BitVec.ofNat 32 (8 * n))) :: rest →
    ∃ v : Word, step s = .next { s with agenda := rest, port := .data64 v } ∧
      (n = 0 → v = 0x0000000142484331#64) ∧
      (s.engine = .idle →
        (n = 1 → v.toNat = if s.irqen then 1 else 0) ∧ (n = 16 → v = s.errExp) ∧
          (n = 17 → v = s.errAct) ∧ (n = 18 → v = s.errPos)) ∧
      (∀ w b, s.engine = .busy w b →
        (n = 1 → v.toNat = if b.irqen then 1 else 0) ∧ (n = 16 → v = b.errExp) ∧
          (n = 17 → v = b.errAct) ∧ (n = 18 → v = b.errPos)) ∧
      (n = 3 → v = 0) ∧
      (n = 4 → v.toNat = s.width.toNat) ∧ (n = 5 → v.toNat = s.height.toNat) ∧
      (n = 6 → v.toNat = s.xcomp.toNat) ∧ (n = 7 → v.toNat = s.ycomp.toNat) ∧
      (n = 8 → v = s.punch) ∧ (n = 9 → v = s.pixLen) ∧ (n = 10 → v.toNat = s.hashLen.toNat) ∧
      (n = 11 → v = s.a0) ∧ (n = 12 → v = s.a1) ∧ (n = 13 → v = s.r0) ∧
      (n = 14 → v.toNat = s.qmax.toNat) ∧ (n = 15 → v = s.maxval) ∧
      (n = 19 → s.params.wf = true → v.toNat = s.params.pixCap) ∧ (20 ≤ n → v = 0)

/-- 10_state.md R23, R26: the bits of STATUS as read. -/
def Obligations.StatusReadsItsFields : Prop :=
  ∀ (s : State) (rest : List Event), s.resetHeld = false →
    s.agenda = .host (.read .w64 0x010) :: rest →
    ∃ v : Word, step s = .next { s with agenda := rest, port := .data64 v } ∧
      v.getLsbD 0 = s.busy ∧ v.getLsbD 1 = s.done ∧ (v.getLsbD 2 = true ↔ s.errcode ≠ 0) ∧
      v.getLsbD 3 = s.cmdlost ∧ v.extractLsb' 4 4 = 0 ∧ v.extractLsb' 8 8 = s.errcode ∧
      v.extractLsb' 16 48 = 0

/-- 10_state.md R20, R30 to R40: an IDLE host write of a register stores its low bits and nothing else; a read-only or
reserved register ignores it. -/
def Obligations.CsrWritesStoreTheLowBits : Prop :=
  ∀ (s : State) (n : Nat) (v : Word) (rest : List Event), s.busy = false → s.resetHeld = false → n < 512 →
    s.agenda = .host (.write64 (BitVec.ofNat 32 (8 * n)) v) :: rest →
    let t := { s with agenda := rest, port := .written }
    (n = 4 → step s = .next { t with width := v.extractLsb' 0 16 }) ∧
    (n = 5 → step s = .next { t with height := v.extractLsb' 0 16 }) ∧
    (n = 6 → step s = .next { t with xcomp := v.extractLsb' 0 8 }) ∧
    (n = 7 → step s = .next { t with ycomp := v.extractLsb' 0 8 }) ∧
    (n = 8 → step s = .next { t with punch := v }) ∧
    (n = 9 → step s = .next { t with pixLen := v }) ∧
    (n = 10 → step s = .next { t with hashLen := v.extractLsb' 0 16 }) ∧
    (n = 11 → step s = .next { t with a0 := v }) ∧
    (n = 12 → step s = .next { t with a1 := v }) ∧
    (n = 0 ∨ 13 ≤ n → step s = .next t)

/-- 20_memory.md R60, R63, R67: exactly the accesses of the wrong width, off a multiple of 8, or across a row boundary
are answered by a bus error, which changes nothing; the table of R60 in numbers. -/
def Obligations.IllegalAccessesAreBusErrors : Prop :=
  ∀ (s : State) (x : Access) (rest : List Event), s.resetHeld = false → s.agenda = .host x :: rest →
    let a := x.addr
    let cap := s.params.pixCap
    let illegal : Prop :=
      (x.width = .w8 ∧ a < 0x1798) ∨
        (x.width = .w64 ∧
          (a % 8 ≠ 0 ∨ (0x2000 ≤ a + 7 ∧ a ≤ 0x20A5) ∨ (0x2100 ≤ a + 7 ∧ a ≤ 0x2152) ∨
            (0x10000 ≤ a + 7 ∧ a < 0x10000 + cap)))
    (illegal → step s = .next { s with agenda := rest, port := .busError }) ∧
    (¬ illegal → ∃ t, step s = .next t ∧ t.port ≠ .busError)

/-- 20_memory.md R66: a reserved address reads 0 and ignores writes, at either width. -/
def Obligations.ReservedAddressesReadZero : Prop :=
  ∀ (s : State) (a : Addr) (v : Word) (b : Byte) (rest : List Event), s.resetHeld = false →
    let cap := s.params.pixCap
    let reserved : Nat → Prop := fun a =>
      (0x1798 ≤ a ∧ a < 0x2000) ∨ (0x20A6 ≤ a ∧ a < 0x2100) ∨ (0x2153 ≤ a ∧ a < 0x10000) ∨
        0x10000 + cap ≤ a
    (reserved a.toNat → s.agenda = .host (.read .w8 a) :: rest →
      step s = .next { s with agenda := rest, port := .data8 0 }) ∧
    (reserved a.toNat → s.agenda = .host (.write8 a b) :: rest →
      step s = .next { s with agenda := rest, port := .written }) ∧
    ((∀ i, i < 8 → reserved (a.toNat + i)) → a.toNat % 8 = 0 →
      (s.agenda = .host (.read .w64 a) :: rest →
        step s = .next { s with agenda := rest, port := .data64 0 }) ∧
      (s.agenda = .host (.write64 a v) :: rest →
        step s = .next { s with agenda := rest, port := .written }))

/-- 20_memory.md R62, R65, R73: an IDLE host write of a HASH or PIX byte is what a read of that address then returns,
every other byte and everything else stays as it was. -/
def Obligations.ByteWritesAreReadBack : Prop :=
  ∀ (s : State) (a : Addr) (v : Byte) (rest : List Event), s.busy = false → s.resetHeld = false →
    inByteWindow s.params.pixCap a.toNat →
    s.agenda = .host (.write8 a v) :: .host (.read .w8 a) :: rest →
    ∃ t, step s = .next t ∧ t.byteAt a.toNat = v ∧ (∀ b, b ≠ a.toNat → t.byteAt b = s.byteAt b) ∧
      { t with mem := s.mem }
        = { s with agenda := .host (.read .w8 a) :: rest, port := .written } ∧
      step t = .next { t with agenda := rest, port := .data8 v }

/-- 20_memory.md R61, R73: the same of a COEF element, 64 bits as written. -/
def Obligations.CoefWritesAreReadBack : Prop :=
  ∀ (s : State) (k c : Nat) (v : Word) (rest : List Event), s.busy = false → s.resetHeld = false →
    k ≤ 80 → c ≤ 2 →
    let a : Addr := BitVec.ofNat 32 (0x1000 + 8 * (3 * k + c))
    s.agenda = .host (.write64 a v) :: .host (.read .w64 a) :: rest →
    ∃ t, step s = .next t ∧ t.coefElem (3 * k + c) = v ∧
      (∀ e, e ≠ 3 * k + c → t.coefElem e = s.coefElem e) ∧
      { t with coef := s.coef }
        = { s with agenda := .host (.read .w64 a) :: rest, port := .written } ∧
      step t = .next { t with agenda := rest, port := .data64 v }

/-- 10_state.md R51, 20_memory.md R64, 42_base83.md R120: the ALPHA ROM reads the codes of the alphabet and ignores
writes. -/
def Obligations.AlphaRomReadsTheAlphabet : Prop :=
  ∀ (s : State) (i : Nat) (v : Byte) (rest : List Event), i ≤ 82 → s.resetHeld = false →
    let a : Addr := BitVec.ofNat 32 (0x2100 + i)
    (s.agenda = .host (.read .w8 a) :: rest →
      step s = .next { s with agenda := rest, port := .data8 (BitVec.ofNat 8 (symbolCode i)) }) ∧
    (s.agenda = .host (.write8 a v) :: rest →
      step s = .next { s with agenda := rest, port := .written })

/-! ## Reset and the interrupt -/

/-- 70_reset_and_hazards.md R250: the values the spec gives for reset. -/
def Obligations.ResetLeavesTheListedValues : Prop :=
  State.reset.irqen = false ∧ State.reset.engine = .idle ∧ State.reset.status = 0 ∧
  State.reset.cmdlost = false ∧ State.reset.width = 0 ∧ State.reset.height = 0 ∧
  State.reset.xcomp = 0 ∧ State.reset.ycomp = 0 ∧ State.reset.punch = 0x3FF0000000000000#64 ∧
  State.reset.pixLen = 0 ∧ State.reset.hashLen = 0 ∧ State.reset.a0 = 0 ∧ State.reset.a1 = 0 ∧
  State.reset.r0 = 0 ∧ State.reset.qmax = 0 ∧ State.reset.maxval = 0x3FF0000000000000#64 ∧
  State.reset.errExp = 0 ∧ State.reset.errAct = 0 ∧ State.reset.errPos = 0 ∧ State.reset.irq = false

/-- 70_reset_and_hazards.md R250, R252, R253: from any state, BUSY or not, asserting and then releasing the reset
input gives the registers of reset, abandons the command and keeps the parameters; an access between the
two is not answered and changes nothing. -/
def Obligations.ResetAbandonsTheRunningCommand : Prop :=
  ∀ (s : State) (x : Access) (rest : List Event),
    s.agenda = .assertReset :: .host x :: .releaseReset :: rest →
    ∃ t u v, step s = .next t ∧ step t = .next u ∧ step u = .next v ∧
      u = { t with agenda := .releaseReset :: rest, port := .unanswered } ∧
      { v with params := s.params, agenda := [], port := .none, epoch := 0 }
        = { State.reset with params := s.params } ∧
      v.params = s.params ∧ v.agenda = rest

/-- 60_exceptions.md R230, R231: the line is DONE and IRQEN; a STATUS write with bit 1 set, a CTRL write with bit 0
clear, acceptance and reset de-assert it; completion asserts it where IRQEN is 1. -/
def Obligations.IrqFollowsDoneAndIrqen : Prop :=
  ∀ (s : State) (e : Event) (rest : List Event) (t : State), s.resetHeld = false →
    s.agenda = e :: rest → step s = .next t →
    (s.irq = true ↔ s.done = true ∧ s.irqen = true) ∧
    ((∃ v : Word, e = .host (.write64 0x010 v) ∧ v.getLsbD 1 = true) → t.irq = false) ∧
    ((∃ v : Word, e = .host (.write64 0x008 v) ∧ v.getLsbD 0 = false) → t.irq = false) ∧
    ((∃ v : Word, e = .host (.write64 0x008 v) ∧ v.getLsbD 0 = true) → t.irq = s.done) ∧
    ((∃ w : Word, e = .host (.write64 0x018 w) ∧ s.busy = false) → t.irq = false) ∧
    (e = .assertReset → t.irq = false) ∧
    (e = .complete → s.busy = true → t.irq = s.irqen)

/-! ## Results of the commands -/

/-- 45_codec.md R210. -/
def Obligations.NopCompletesWithoutEffect : Prop :=
  ∀ s : State, exec .nop s = .next (okState s)

/-- 41_colorspace.md R104 with R100: R0 is the linear value of A0, by the branch the normalized value takes. -/
def Obligations.TolinWritesTheLinearValue : Prop :=
  ∀ s : State,
    let v := Fp.div (Fp.ofNat s.a0.toNat) Fp.c255_0
    exec .tolin s = .next
      { okState s with
        r0 := if Fp.le v Fp.c0_04045 then Fp.div v Fp.c12_92
          else Config.powImpl (Fp.div (Fp.add v Fp.c0_055) Fp.c1_055) Fp.c2_4 }

/-- 41_colorspace.md R105 with R102: R0 is the gamma byte of the binary64 in A0, zero-extended; the byte is the
truncation of the scaled curve, where that lies in the range R103 promises. -/
def Obligations.TogamWritesTheGammaByte : Prop :=
  ∀ s : State,
    let byte := toGamma Config.libm s.params.gammaRounding s.a0
    let v := Fp.clamp01 s.a0
    let g :=
      if Fp.lt v Fp.c0_0031308 then Fp.mul v Fp.c12_92
      else Fp.sub (Fp.mul Fp.c1_055 (Config.powImpl v (Fp.div Fp.c1_0 Fp.c2_4))) Fp.c0_055
    let t :=
      if s.params.gammaRounding = .nearest then Fp.add (Fp.mul g Fp.c255_0) Fp.c0_5
      else Fp.mul g Fp.c255_0
    exec .togam s = .next { okState s with r0 := BitVec.ofNat 64 byte.toNat } ∧
    ∀ a, value t = some a → 0 ≤ a → a < 256 → (byte.toNat : Int) = ⌊a⌋

/-- 41_colorspace.md R105, 00_scope.md R14: a NaN, every negative value, `-inf` included, and `-0.0` have the byte 0;
every value above 1.0, `+inf` included, has the byte of 1.0. -/
def Obligations.GammaClampsItsOperand : Prop :=
  ∀ (mode : GammaRounding) (x : F64),
    (Fp.isNaN x = true ∨ Fp.lt x Fp.c0_0 = true ∨ x = 0x8000000000000000#64 →
      toGamma Config.libm mode x = 0) ∧
    (Fp.lt Fp.c1_0 x = true → toGamma Config.libm mode x = toGamma Config.libm mode Fp.c1_0)

/-- 42_base83.md R124, 30_encoding.md R81: N characters of A0 from HASH[A1] on, most significant first, every other
byte and register as it was; an N outside 1 to 10, then a field that does not fit HASH, is an error. -/
def Obligations.B83encWritesTheDigits : Prop :=
  ∀ (s : State) (n : Nat), n < 16 →
    (1 ≤ n → n ≤ 10 → s.a1.toNat + n ≤ 166 →
      ∃ t, exec (.b83enc n) s = .next t ∧
        (∀ i, i < n → t.hashByte (s.a1.toNat + i) = alpha (digit s.a0.toNat n i)) ∧
        (∀ a, (a < 0x2000 + s.a1.toNat ∨ 0x2000 + s.a1.toNat + n ≤ a) → t.byteAt a = s.byteAt a) ∧
        { t with mem := s.mem } = okState s) ∧
    ((n < 1 ∨ 10 < n) → exec (.b83enc n) s = .next (errState s 17 10 n 2)) ∧
    (1 ≤ n → n ≤ 10 → 166 < s.a1.toNat + n →
      exec (.b83enc n) s = .next (errState s 17 (166 - n) s.a1.toNat 1))

/-- 42_base83.md R125, R123, 30_encoding.md R81: where the N bytes from HASH[A1] on are symbols, R0 is the number
they spell; an N outside 1 to 10, then a field outside HASH, then the first byte that is no symbol, is an error. -/
def Obligations.B83decWritesTheNumber : Prop :=
  ∀ (s : State) (n : Nat), n < 16 →
    (1 ≤ n → n ≤ 10 → s.a1.toNat + n ≤ 166 →
      (∀ ds, ds.length = n → spells s s.a1.toNat ds →
        exec (.b83dec n) s = .next { okState s with r0 := BitVec.ofNat 64 (number ds) } ∧
          number ds < 2 ^ 64) ∧
      (∀ ds, ds.length < n → spells s s.a1.toNat ds →
        rlut (s.hashByte (s.a1.toNat + ds.length)) = none →
        exec (.b83dec n) s = .next
          (errState s 4 0 (s.hashByte (s.a1.toNat + ds.length)).toNat (s.a1.toNat + ds.length)))) ∧
    ((n < 1 ∨ 10 < n) → exec (.b83dec n) s = .next (errState s 17 10 n 2)) ∧
    (1 ≤ n → n ≤ 10 → 166 < s.a1.toNat + n →
      exec (.b83dec n) s = .next (errState s 17 (166 - n) s.a1.toNat 1))

/-- 43_quantizer.md R146 with R140: R0 packs the three gamma bytes of COEF[0]. -/
def Obligations.QdcPacksTheDcTerm : Prop :=
  ∀ s : State,
    let g := fun x => (toGamma Config.libm s.params.gammaRounding x).toNat
    exec .qdc s = .next
      { okState s with
        r0 := BitVec.ofNat 64
          (g (s.coefElem 0) * 2 ^ 16 + g (s.coefElem 1) * 2 ^ 8 + g (s.coefElem 2)) }

/-- 43_quantizer.md R147 with R141 to R143: a grid of one cell gives (0, 1.0), and any other the quantized maximum of
the absolute values in its AC cells and the scale made of it; counts outside 1 to 9 are an error. -/
def Obligations.QmaxWritesTheAcScale : Prop :=
  ∀ s : State,
    let n := s.xcomp.toNat * s.ycomp.toNat
    let m := (List.range (3 * (n - 1))).foldl
      (fun m e => let a := Fp.abs (s.coefElem (3 + e)); if Fp.lt m a then a else m) Fp.c0_0
    let q := Fp.floorclamp (Fp.sub (Fp.mul m Fp.c166_0) Fp.c0_5) 0 82
    (componentsLegal s → n = 1 →
      exec .qmax s = .next { okState s with qmax := 0, maxval := 0x3FF0000000000000#64 }) ∧
    (componentsLegal s → n ≠ 1 → q ≤ 82 ∧
      exec .qmax s = .next
        { okState s with
          qmax := BitVec.ofNat 8 q, maxval := Fp.div (Fp.ofNat (q + 1)) Fp.c166_0 }) ∧
    (¬ componentsLegal s →
      exec .qmax s = .next (errState s 18 9 (s.xcomp.toNat + s.ycomp.toNat * 256) 0))

/-- 43_quantizer.md R148 with R144, R145: R0 packs the three quantiles of COEF[A0]; an A0 above 80 is an error. -/
def Obligations.QacPacksTheAcTerm : Prop :=
  ∀ s : State,
    let q := fun c =>
      Fp.floorclamp
        (Fp.add
          (Fp.mul
            (Fp.signedPow Config.libm (Fp.div (s.coefElem (3 * s.a0.toNat + c)) s.maxval) Fp.c0_5)
            Fp.c9_0)
          Fp.c9_5)
        0 18
    (s.a0.toNat ≤ 80 →
      exec .qac s = .next
        { okState s with r0 := BitVec.ofNat 64 (q 0 * 361 + q 1 * 19 + q 2) }) ∧
    (80 < s.a0.toNat → exec .qac s = .next (errState s 17 80 s.a0.toNat 0))

/-- 43_quantizer.md R155 with R149, R150: COEF[0] is the linear values of the bytes of A0; the red code of a value of
`2^24` or more is whole under Literal, reduced under Mask and an error under Fault; a value no field can hold
is an error. -/
def Obligations.DqdcWritesTheDcCell : Prop :=
  ∀ s : State,
    let v := s.a0.toNat
    let red := if s.params.overrangePolicy = .mask then v / 2 ^ 16 % 256 else v / 2 ^ 16
    (v ≤ 47458320 → (2 ^ 24 ≤ v → s.params.overrangePolicy ≠ .fault) →
      ∃ t, exec .dqdc s = .next t ∧
        cell t 0 = (toLinear Config.libm red, toLinear Config.libm (v / 2 ^ 8 % 256),
          toLinear Config.libm (v % 256)) ∧
        (∀ e, 3 ≤ e → t.coefElem e = s.coefElem e) ∧ { t with coef := s.coef } = okState s) ∧
    (2 ^ 24 ≤ v → v ≤ 47458320 → s.params.overrangePolicy = .fault →
      exec .dqdc s = .next (errState s 22 (2 ^ 24 - 1) v 0)) ∧
    (47458320 < v → exec .dqdc s = .next (errState s 17 47458320 v 0))

/-- 43_quantizer.md R156 with R153: QMAX is A0 and MAXVAL the scale made of it; an A0 above 82 is an error. -/
def Obligations.DqmaxWritesTheScale : Prop :=
  ∀ s : State,
    (s.a0.toNat ≤ 82 →
      exec .dqmax s = .next
        { okState s with
          qmax := s.a0.extractLsb' 0 8, maxval := Fp.div (Fp.ofNat (s.a0.toNat + 1)) Fp.c166_0 }) ∧
    (82 < s.a0.toNat → exec .dqmax s = .next (errState s 17 82 s.a0.toNat 0))

/-- 43_quantizer.md R157 with R149, R151, R152: COEF[A1] is the dequantized term, scaled by MAXVAL and PUNCH; the red
code of a value of 6859 or more is whole under Literal, reduced under Mask and an error under Fault; a value
no field can hold, then an index above 80, is an error. -/
def Obligations.DqacWritesTheAcCell : Prop :=
  ∀ s : State,
    let v := s.a0.toNat
    let k := s.a1.toNat
    let red := if s.params.overrangePolicy = .mask then v / 361 % 19 else v / 361
    let part := fun (q : Nat) =>
      Fp.mul
        (Fp.mul
          (Fp.signedPow Config.libm (Fp.div (Fp.ofInt ((q : Int) - 9)) Fp.c9_0) Fp.c2_0) s.maxval)
        s.punch
    (v ≤ 6888 → k ≤ 80 → (6859 ≤ v → s.params.overrangePolicy ≠ .fault) →
      ∃ t, exec .dqac s = .next t ∧
        cell t k = (part red, part (v / 19 % 19), part (v % 19)) ∧
        (∀ e, (e < 3 * k ∨ 3 * k + 3 ≤ e) → t.coefElem e = s.coefElem e) ∧
        { t with coef := s.coef } = okState s) ∧
    (6859 ≤ v → v ≤ 6888 → k ≤ 80 → s.params.overrangePolicy = .fault →
      exec .dqac s = .next (errState s 22 6858 v 0)) ∧
    (6888 < v → exec .dqac s = .next (errState s 17 6888 v 0)) ∧
    (v ≤ 6888 → 80 < k → exec .dqac s = .next (errState s 17 80 k 1))

/-- 44_transform.md R174 with R172: cell `(x, y)` of the forward grid at `k = y * xc + x`; every other cell and
register as it was. -/
def Obligations.FdctWritesTheForwardGrid : Prop :=
  ∀ s : State, s.pixLen.toNat = imageBytes s → componentsLegal s → targetLegal s →
    let xc := s.xcomp.toNat
    let yc := s.ycomp.toNat
    ∃ t, exec .fdct s = .next t ∧
      (∀ x y, x < xc → y < yc →
        cell t (y * xc + x)
          = triple (fcell Config.libm s.pixByte s.width.toNat s.height.toNat x y)) ∧
      (∀ e, 3 * (xc * yc) ≤ e → t.coefElem e = s.coefElem e) ∧ { t with coef := s.coef } = okState s

/-- 44_transform.md R171, R170: the sums of a forward cell run over the pixels in buffer order, from `+0.0` on, and
each is scaled once. -/
def Obligations.ForwardCellSumsInBufferOrder : Prop :=
  ∀ (fn : Libm) (pix : Nat → Byte) (w h x y : Nat),
    let term := fun (c i : Nat) =>
      Fp.mul
        (Fp.mul
          (fn.cos (Fp.div (Fp.mul (Fp.mul Fp.pi (Fp.ofNat x)) (Fp.ofNat (i % w))) (Fp.ofNat w)))
          (fn.cos (Fp.div (Fp.mul (Fp.mul Fp.pi (Fp.ofNat y)) (Fp.ofNat (i / w))) (Fp.ofNat h))))
        (toLinear fn (pix (3 * i + c)).toNat)
    let sum := fun c => (List.range (w * h)).foldl (fun acc i => Fp.add acc (term c i)) Fp.c0_0
    let scale := Fp.div (if x = 0 ∧ y = 0 then Fp.c1_0 else Fp.c2_0) (Fp.ofNat (w * h))
    triple (fcell fn pix w h x y)
      = (Fp.mul (sum 0) scale, Fp.mul (sum 1) scale, Fp.mul (sum 2) scale)

/-- 44_transform.md R176, R177: PIX holds the pixels of the grid in COEF, row-major, three bytes each, and PIX_LEN
their number; every byte at or above `3WH` and every other register as it was; and the checks in their order. -/
def Obligations.IdctWritesTheImage : Prop :=
  ∀ s : State,
    let xc := s.xcomp.toNat
    let w := s.width.toNat
    let h := s.height.toNat
    let grid := (List.range (xc * s.ycomp.toNat)).map s.coefCell
    (componentsLegal s → targetLegal s →
      ∃ t, exec .idct s = .next t ∧
        (∀ px py, px < w → py < h →
          (List.range 3).map (fun c => t.pixByte (3 * (py * w + px) + c))
            = ipixel Config.libm s.params.gammaRounding grid xc w h px py) ∧
        (∀ a, (a < 0x10000 ∨ 0x10000 + 3 * w * h ≤ a) → t.byteAt a = s.byteAt a) ∧
        { t with mem := s.mem, pixLen := s.pixLen } = okState s ∧ t.pixLen.toNat = 3 * w * h) ∧
    (¬ componentsLegal s →
      exec .idct s = .next (errState s 18 9 (s.xcomp.toNat + s.ycomp.toNat * 256) 0)) ∧
    (componentsLegal s → w = 0 ∨ h = 0 → exec .idct s = .next (errState s 19 1 (w + h * 65536) 0)) ∧
    (componentsLegal s → 1 ≤ w → 1 ≤ h → s.params.pixCap < imageBytes s →
      exec .idct s = .next (errState s 20 s.params.pixCap (imageBytes s) 0))

/-- 44_transform.md R175: the bytes of a pixel are the gamma bytes of the sums over the cells in increasing `k`, from
`+0.0` on, with no normalization. -/
def Obligations.InversePixelSumsOverTheCells : Prop :=
  ∀ (fn : Libm) (mode : GammaRounding) (grid : List Rgb) (xc w h px py : Nat),
    let basis := fun (k : Nat) =>
      Fp.mul
        (fn.cos (Fp.div (Fp.mul (Fp.mul Fp.pi (Fp.ofNat px)) (Fp.ofNat (k % xc))) (Fp.ofNat w)))
        (fn.cos (Fp.div (Fp.mul (Fp.mul Fp.pi (Fp.ofNat py)) (Fp.ofNat (k / xc))) (Fp.ofNat h)))
    let sum := fun (chan : Rgb → F64) =>
      (List.range grid.length).foldl
        (fun acc k => Fp.add acc (Fp.mul (chan (grid.getD k Rgb.zero)) (basis k))) Fp.c0_0
    ipixel fn mode grid xc w h px py
      = [toGamma fn mode (sum Rgb.r), toGamma fn mode (sum Rgb.g), toGamma fn mode (sum Rgb.b)]

/-- 45_codec.md R197 with R190 to R195: the grid, the scale and the hash of the image, field by field; HASH bytes from
`L` on, COEF cells from `n` on and every other register as they were. -/
def Obligations.EncodeWritesTheHash : Prop :=
  ∀ s : State, s.pixLen.toNat = imageBytes s → componentsLegal s → targetLegal s →
    let xc := s.xcomp.toNat
    let yc := s.ycomp.toNat
    let n := xc * yc
    let grid := fun k =>
      fcell Config.libm s.pixByte s.width.toNat s.height.toNat (k % xc) (k / xc)
    let scale := acScale ((List.range (n - 1)).map fun i => grid (i + 1))
    let dc := dcQuant Config.libm s.params.gammaRounding (grid 0)
    let ac := fun k => acPack Config.libm (grid k) scale.2
    ∃ t, exec .encode s = .next t ∧
      (∀ k, k < n → cell t k = triple (grid k)) ∧
      (∀ e, 3 * n ≤ e → t.coefElem e = s.coefElem e) ∧
      t.qmax.toNat = scale.1 ∧ t.maxval = scale.2 ∧ t.hashLen.toNat = 4 + 2 * n ∧
      t.hashByte 0 = alpha ((xc - 1) + (yc - 1) * 9) ∧ t.hashByte 1 = alpha scale.1 ∧
      (∀ i, i < 4 → t.hashByte (2 + i) = alpha (digit dc 4 i)) ∧
      (∀ k i, 1 ≤ k → k < n → i < 2 → t.hashByte (4 + 2 * k + i) = alpha (digit (ac k) 2 i)) ∧
      (∀ a, (a < 0x2000 ∨ 0x2000 + (4 + 2 * n) ≤ a) → t.byteAt a = s.byteAt a) ∧
      { t with
        coef := s.coef, mem := s.mem, qmax := s.qmax, maxval := s.maxval, hashLen := s.hashLen }
        = okState s

/-- 45_codec.md R205 with R192, R200 to R204: a hash whose header is sound and whose fields are symbols in range
gives its counts, scale, grid and image; HASH, COEF cells from `n` on, PIX bytes from `3WH` on and every other
register as they were. -/
def Obligations.DecodeWritesTheImage : Prop :=
  ∀ (s : State) (f q : Nat) (dc : List Nat) (ac : Nat → List Nat),
    let xc := f % 9 + 1
    let yc := f / 9 + 1
    let n := xc * yc
    let policy := s.params.overrangePolicy
    let w := s.width.toNat
    let h := s.height.toNat
    spells s 0 [f] → (f ≤ 80 ∨ s.params.sizeFlagPolicy = .accept) → s.hashLen.toNat = 4 + 2 * n →
    spells s 1 [q] → dc.length = 4 → spells s 2 dc →
    (∀ k, 1 ≤ k → k < n → (ac k).length = 2 ∧ spells s (4 + 2 * k) (ac k)) →
    (policy = .fault →
      number dc < 2 ^ 24 ∧ ∀ k, 1 ≤ k → k < n → number (ac k) < 6859) →
    targetLegal s →
    let mv := if n = 1 then 0x3FF0000000000000#64 else Fp.div (Fp.ofNat (q + 1)) Fp.c166_0
    let dcRed :=
      if policy = .mask then number dc / 2 ^ 16 % 256 else number dc / 2 ^ 16
    let acRed := fun k => if policy = .mask then number (ac k) / 361 % 19 else number (ac k) / 361
    let grid := fun k =>
      if k = 0 then
        Rgb.mk (toLinear Config.libm dcRed) (toLinear Config.libm (number dc / 2 ^ 8 % 256))
          (toLinear Config.libm (number dc % 256))
      else
        Rgb.mk (acDequant Config.libm (acRed k) mv s.punch)
          (acDequant Config.libm (number (ac k) / 19 % 19) mv s.punch)
          (acDequant Config.libm (number (ac k) % 19) mv s.punch)
    ∃ t, exec .decode s = .next t ∧
      t.xcomp.toNat = xc ∧ t.ycomp.toNat = yc ∧ t.qmax.toNat = q ∧ t.maxval = mv ∧
      t.pixLen.toNat = 3 * w * h ∧
      (∀ k, k < n → cell t k = triple (grid k)) ∧
      (∀ e, 3 * n ≤ e → t.coefElem e = s.coefElem e) ∧
      (∀ px py, px < w → py < h →
        (List.range 3).map (fun c => t.pixByte (3 * (py * w + px) + c))
          = ipixel Config.libm s.params.gammaRounding ((List.range n).map grid) xc w h px py) ∧
      (∀ a, (a < 0x10000 ∨ 0x10000 + 3 * w * h ≤ a) → t.byteAt a = s.byteAt a) ∧
      { t with
        xcomp := s.xcomp, ycomp := s.ycomp, qmax := s.qmax, maxval := s.maxval, coef := s.coef,
        mem := s.mem, pixLen := s.pixLen } = okState s

/-! ## Errors -/

/-- 44_transform.md R173: `checkImage()` of FDCT and ENCODE, in its order. -/
def Obligations.ImageInputChecksInOrder : Prop :=
  ∀ (s : State) (i : Instr), i = .fdct ∨ i = .encode →
    (s.pixLen.toNat ≠ imageBytes s →
      exec i s = .next (errState s 1 (imageBytes s) s.pixLen.toNat 0)) ∧
    (s.pixLen.toNat = imageBytes s → ¬ componentsLegal s →
      exec i s = .next (errState s 18 9 (s.xcomp.toNat + s.ycomp.toNat * 256) 0)) ∧
    (s.pixLen.toNat = imageBytes s → componentsLegal s →
      s.width.toNat = 0 ∨ s.height.toNat = 0 →
      exec i s = .next (errState s 19 1 (s.width.toNat + s.height.toNat * 65536) 0)) ∧
    (s.pixLen.toNat = imageBytes s → componentsLegal s → 1 ≤ s.width.toNat → 1 ≤ s.height.toNat →
      s.params.pixCap < imageBytes s →
      exec i s = .next (errState s 20 s.params.pixCap (imageBytes s) 0))

/-- 45_codec.md R200: the header checks of DECODE in their order. -/
def Obligations.DecodeHeaderChecksInOrder : Prop :=
  ∀ s : State,
    let hl := s.hashLen.toNat
    (hl < 6 → exec .decode s = .next (errState s 2 6 hl 0)) ∧
    (6 ≤ hl → rlut (s.hashByte 0) = none →
      exec .decode s = .next (errState s 4 0 (s.hashByte 0).toNat 0)) ∧
    (∀ f, 6 ≤ hl → rlut (s.hashByte 0) = some f →
      (80 < f → s.params.sizeFlagPolicy = .reject →
        exec .decode s = .next (errState s 21 80 f 0)) ∧
      ((f ≤ 80 ∨ s.params.sizeFlagPolicy = .accept) →
        hl ≠ 4 + 2 * ((f % 9 + 1) * (f / 9 + 1)) →
        exec .decode s = .next (errState s 3 (4 + 2 * ((f % 9 + 1) * (f / 9 + 1))) hl 0)))

/-- 45_codec.md R201, 60_exceptions.md R223: after a sound header, the first byte of HASH[1 .. L-1] that is no symbol
is reported, whatever the target size; under Fault, where every field that ends before it is in range. -/
def Obligations.DecodeReportsTheFirstInvalidByte : Prop :=
  ∀ (s : State) (f : Nat) (ds : List Nat),
    let n := (f % 9 + 1) * (f / 9 + 1)
    let j := ds.length
    s.hashLen.toNat = 4 + 2 * n → spells s 0 ds → ds[0]? = some f →
    (f ≤ 80 ∨ s.params.sizeFlagPolicy = .accept) → j < 4 + 2 * n →
    (s.params.overrangePolicy = .fault →
      (6 ≤ j → dcField ds < 2 ^ 24) ∧ ∀ k, 1 ≤ k → 6 + 2 * k ≤ j → acField ds k < 6859) →
    rlut (s.hashByte j) = none →
    exec .decode s = .next (errState s 4 0 (s.hashByte j).toNat j)

/-- 45_codec.md R202: the output checks of DECODE come after the whole hash has been parsed, its symbols valid and,
under Fault, its fields in range. -/
def Obligations.DecodeOutputChecksComeLast : Prop :=
  ∀ (s : State) (f : Nat) (ds : List Nat),
    let n := (f % 9 + 1) * (f / 9 + 1)
    s.hashLen.toNat = 4 + 2 * n → spells s 0 ds → ds[0]? = some f → ds.length = 4 + 2 * n →
    (f ≤ 80 ∨ s.params.sizeFlagPolicy = .accept) →
    (s.params.overrangePolicy = .fault →
      dcField ds < 2 ^ 24 ∧ ∀ k, 1 ≤ k → k < n → acField ds k < 6859) →
    ((s.width.toNat = 0 ∨ s.height.toNat = 0) →
      exec .decode s = .next (errState s 19 1 (s.width.toNat + s.height.toNat * 65536) 0)) ∧
    (1 ≤ s.width.toNat → 1 ≤ s.height.toNat → s.params.pixCap < imageBytes s →
      exec .decode s = .next (errState s 20 s.params.pixCap (imageBytes s) 0))

/-- 43_quantizer.md R149 to R151, 45_codec.md R201: under Fault, DECODE reports the first field over its range, DC
before the AC terms in position order, whatever the bytes after that field are. -/
def Obligations.DecodeReportsTheFirstOverrangeField : Prop :=
  ∀ (s : State) (f : Nat) (ds : List Nat),
    let n := (f % 9 + 1) * (f / 9 + 1)
    s.hashLen.toNat = 4 + 2 * n → spells s 0 ds → ds[0]? = some f → ds.length ≤ 4 + 2 * n →
    (f ≤ 80 ∨ s.params.sizeFlagPolicy = .accept) → s.params.overrangePolicy = .fault →
    (6 ≤ ds.length → 2 ^ 24 ≤ dcField ds →
      exec .decode s = .next (errState s 22 (2 ^ 24 - 1) (dcField ds) 2)) ∧
    (∀ k, 1 ≤ k → 6 + 2 * k ≤ ds.length → dcField ds < 2 ^ 24 →
      (∀ j, 1 ≤ j → j < k → acField ds j < 6859) → 6859 ≤ acField ds k →
      exec .decode s = .next (errState s 22 6858 (acField ds k) (4 + 2 * k)))

/-! ## Rules over all commands and all steps -/

/-- 60_exceptions.md R224: a command that completes with an error changes only STATUS and the error context. -/
def Obligations.ErrorsArePrecise : Prop :=
  ∀ (i : Instr) (s t : State), exec i s = .next t → t.errcode ≠ 0 →
    t = { s with
      engine := .idle, done := true, errcode := t.errcode, errExp := t.errExp, errAct := t.errAct,
      errPos := t.errPos }

/-- 60_exceptions.md R226, 70_reset_and_hazards.md R266: every command completes, the engine IDLE, DONE set, with 0 or a
code of R220. -/
def Obligations.EveryCommandCompletes : Prop :=
  ∀ (i : Instr) (s : State), ∃ t, exec i s = .next t ∧ t.busy = false ∧ t.done = true ∧
    (t.errcode = 0 → t.errExp = 0 ∧ t.errAct = 0 ∧ t.errPos = 0) ∧
    t.errcode.toNat ∈ [0, 1, 2, 3, 4, 16, 17, 18, 19, 20, 21, 22]

/-- 70_reset_and_hazards.md R266, R253: no input stops the block: every step answers a next state, and none changes a
parameter. -/
def Obligations.EveryStepAnswersANextState : Prop :=
  ∀ s : State, ∃ t, step s = .next t ∧ t.params = s.params

/-- 30_encoding.md R82, 10_state.md R37 to R39: the registers and buffers each command may write; every other
register and buffer, the parameters and the inputs still to come stay as they were. Of the byte memory B83ENC
and ENCODE write HASH only, IDCT and DECODE PIX only. -/
def Obligations.CommandsWriteOnlyTheirRegisters : Prop :=
  ∀ (i : Instr) (s t : State), exec i s = .next t →
    (t.a0 = s.a0 ∧ t.a1 = s.a1 ∧ t.punch = s.punch ∧ t.width = s.width ∧ t.height = s.height ∧
      t.irqen = s.irqen ∧ t.cmdlost = s.cmdlost ∧ t.params = s.params ∧ t.agenda = s.agenda ∧
      t.port = s.port ∧ t.epoch = s.epoch ∧ t.resetHeld = s.resetHeld) ∧
    (i ∉ [.tolin, .togam, .qdc, .qac] → (∀ n, i ≠ .b83dec n) → t.r0 = s.r0) ∧
    (i ∉ [.qmax, .dqmax, .encode, .decode] → t.qmax = s.qmax ∧ t.maxval = s.maxval) ∧
    (i ∉ [.idct, .decode] → t.pixLen = s.pixLen) ∧ (i ≠ .encode → t.hashLen = s.hashLen) ∧
    (i ≠ .decode → t.xcomp = s.xcomp ∧ t.ycomp = s.ycomp) ∧
    (i ∉ [.dqdc, .dqac, .fdct, .encode, .decode] → t.coef = s.coef) ∧
    (i ∉ [.idct, .encode, .decode] → (∀ n, i ≠ .b83enc n) → t.mem = s.mem) ∧
    ((i = .encode ∨ ∃ n, i = .b83enc n) → ∀ a, (a < 0x2000 ∨ 0x20A5 < a) → t.byteAt a = s.byteAt a) ∧
    ((i = .idct ∨ i = .decode) → ∀ a, a < 0x10000 → t.byteAt a = s.byteAt a)

/-- Every step keeps the invariant `State.Inv`, from every state that has it. -/
def Obligations.StepKeepsTheInvariant : Prop :=
  ∀ s t : State, s.Inv → step s = .next t → t.Inv

/-- The state after reset has the invariant. -/
def Obligations.ResetHasTheInvariant : Prop := State.reset.Inv

/-- 20_memory.md R74, 70_reset_and_hazards.md R260 to R263: a host access made while BUSY changes no result of the
running command: completing it after the access gives what completing it before would have given, but for
CTRL, CMDLOST and the response. And no read sees the command: from its acceptance on, whatever accesses come
between, a read of any address answers what it would have answered before the acceptance, except for STATUS,
which reads BUSY 1, DONE 0, ERRCODE 0 and CMDLOST as it stands. For CTRL and the error context this is the model's
reading, DEDUCED, log entries 9 and 10. -/
def Obligations.BusyAccessesDoNotReachTheCommand : Prop :=
  (∀ (s t : State) (x : Access), s.busy = true → s.resetHeld = false → completeRunning s = .next t →
    completeRunning (s.hostAccess x) = .next
      { t with
        irqen := (s.hostAccess x).irqen, cmdlost := (s.hostAccess x).cmdlost,
        port := (s.hostAccess x).port }) ∧
  (∀ (s : State) (w : Word) (xs : List Access), s.engine = .idle → s.resetHeld = false →
    let u := xs.foldl State.hostAccess (s.hostAccess (.write64 0x018 w))
    (∀ (d : Width) (a : Addr), ¬(d = .w64 ∧ a = 0x010) →
      (u.hostAccess (.read d a)).port = (s.hostAccess (.read d a)).port) ∧
    (u.hostAccess (.read .w64 0x010)).port = .data64 (if u.cmdlost then 0x9 else 0x1))

/-- 45_codec.md R203: DECODE's results do not depend on HASH bytes at or above `min(HASH_LEN, 166)`: two states that
differ in such bytes only give results that differ in such bytes only. -/
def Obligations.DecodeIgnoresBytesBeyondTheHash : Prop :=
  ∀ (s t : State) (m : Memory) (k : Nat), min s.hashLen.toNat 166 ≤ k →
    (∀ a, a < 0x2000 + k ∨ 0x2000 + 166 ≤ a → { s with mem := m }.byteAt a = s.byteAt a) →
    exec .decode s = .next t →
    ∃ u, exec .decode { s with mem := m } = .next u ∧ { u with mem := t.mem } = t ∧
      (∀ a, a < 0x2000 + k ∨ 0x2000 + 166 ≤ a → u.byteAt a = t.byteAt a)

/-! ## The codec's functions -/

/-- 42_base83.md R126: decoding what has been encoded gives the value back, and any symbols are what encoding their
number gives. -/
def Obligations.Base83RoundTrip : Prop :=
  (∀ v n p : Nat, v < 83 ^ n → b83decFrom ((b83enc v n).map alpha) p 0 = .ok v) ∧
  (∀ (bs : List Byte) (p v : Nat), b83decFrom bs p 0 = .ok v →
    v < 83 ^ bs.length ∧ (b83enc v bs.length).map alpha = bs)

/-- 42_base83.md R121: the reverse table undoes the alphabet, and nothing else is valid. -/
def Obligations.ReverseTableUndoesTheAlphabet : Prop :=
  (∀ i, i ≤ 82 → rlut (alpha i) = some i) ∧
  (∀ (b : Byte) (i : Nat), rlut b = some i → i ≤ 82 ∧ alpha i = b)

/-- 43_quantizer.md R140, R142 to R145: the ranges of the packed codes. -/
def Obligations.PackedCodesFitTheirFields : Prop :=
  ∀ (fn : Libm) (mode : GammaRounding) (x : Rgb) (v maxValue : F64) (acs : List Rgb),
    dcQuant fn mode x < 2 ^ 24 ∧ acQuant fn v maxValue ≤ 18 ∧ acPack fn x maxValue ≤ 6858 ∧
    (acScale acs).1 ≤ 82

/-- 45_codec.md R198: a successful ENCODE writes `4 + 2 * xc * yc` symbols, and the size flag decodes back to the
counts. -/
def Obligations.EncodedHashIsWellFormed : Prop :=
  ∀ s t : State, exec .encode s = .next t → t.errcode = 0 →
    t.hashLen.toNat = 4 + 2 * (s.xcomp.toNat * s.ycomp.toNat) ∧
    (∀ i, i < t.hashLen.toNat → ∃ d, rlut (t.hashByte i) = some d) ∧
    ∃ f, rlut (t.hashByte 0) = some f ∧ f % 9 + 1 = s.xcomp.toNat ∧ f / 9 + 1 = s.ycomp.toNat

/-! ## Numbers -/

/-- 00_scope.md R10: addition, subtraction, multiplication and division of finite values round the exact result to
nearest, ties to even, subnormal results included. The clauses after the first, on the sign of a zero result
and on NaN and infinite operands and division by zero, are IEEE 754's and not written out by the spec:
PRESUMED, log entry 16 (which NaN results is log entry 7). -/
def Obligations.ArithmeticRoundsTheExactResult : Prop :=
  (∀ (x y : F64) (a b : Rat), value x = some a → value y = some b →
    roundsTo (Fp.add x y) (a + b) ∧ roundsTo (Fp.sub x y) (a - b) ∧ roundsTo (Fp.mul x y) (a * b) ∧
    (b ≠ 0 → roundsTo (Fp.div x y) (a / b))) ∧
  (∀ (x y : F64) (a b : Rat), value x = some a → value y = some b →
    (a + b = 0 → Fp.add x y = Fp.zero (Fp.sign x && Fp.sign y)) ∧
    (a - b = 0 → Fp.sub x y = Fp.zero (Fp.sign x && !Fp.sign y)) ∧
    Fp.sign (Fp.mul x y) = (Fp.sign x ^^ Fp.sign y) ∧
    (b ≠ 0 → Fp.sign (Fp.div x y) = (Fp.sign x ^^ Fp.sign y)) ∧
    (a ≠ 0 → b = 0 → Fp.div x y = Fp.inf (Fp.sign x ^^ Fp.sign y)) ∧
    (a = 0 → b = 0 → Fp.isNaN (Fp.div x y) = true)) ∧
  (∀ x y : F64, Fp.isNaN x = true ∨ Fp.isNaN y = true →
    Fp.isNaN (Fp.add x y) = true ∧ Fp.isNaN (Fp.sub x y) = true ∧ Fp.isNaN (Fp.mul x y) = true ∧
    Fp.isNaN (Fp.div x y) = true) ∧
  (∀ p q : Bool,
    (p = q → Fp.add (Fp.inf p) (Fp.inf q) = Fp.inf p ∧ Fp.isNaN (Fp.sub (Fp.inf p) (Fp.inf q)) = true) ∧
    (p ≠ q → Fp.isNaN (Fp.add (Fp.inf p) (Fp.inf q)) = true ∧ Fp.sub (Fp.inf p) (Fp.inf q) = Fp.inf p) ∧
    Fp.mul (Fp.inf p) (Fp.inf q) = Fp.inf (p ^^ q) ∧ Fp.isNaN (Fp.div (Fp.inf p) (Fp.inf q)) = true) ∧
  (∀ (p : Bool) (x : F64) (a : Rat), value x = some a →
    Fp.add (Fp.inf p) x = Fp.inf p ∧ Fp.add x (Fp.inf p) = Fp.inf p ∧
    Fp.sub (Fp.inf p) x = Fp.inf p ∧ Fp.sub x (Fp.inf p) = Fp.inf (!p) ∧
    (a ≠ 0 → Fp.mul (Fp.inf p) x = Fp.inf (p ^^ Fp.sign x) ∧
      Fp.mul x (Fp.inf p) = Fp.inf (Fp.sign x ^^ p)) ∧
    (a = 0 → Fp.isNaN (Fp.mul (Fp.inf p) x) = true ∧ Fp.isNaN (Fp.mul x (Fp.inf p)) = true) ∧
    Fp.div (Fp.inf p) x = Fp.inf (p ^^ Fp.sign x) ∧ Fp.div x (Fp.inf p) = Fp.zero (Fp.sign x ^^ p))

/-- 00_scope.md R10: `float(i)` rounds to nearest, ties to even, and is exact below `2^53`. -/
def Obligations.FloatOfIntegersRounds : Prop :=
  (∀ i : Int, roundsTo (Fp.ofInt i) i ∧ (|i| < 2 ^ 53 → value (Fp.ofInt i) = some (i : Rat))) ∧
  (∀ i : Nat, Fp.ofNat i = Fp.ofInt i)

/-- 00_scope.md R10, R14: comparisons are those of the values, `-0.0` equal to `+0.0`, infinities beyond every finite
value, and false where an operand is a NaN. -/
def Obligations.ComparisonsFollowTheValues : Prop :=
  ∀ (x y : F64),
    (∀ a b, value x = some a → value y = some b →
      (Fp.lt x y = true ↔ a < b) ∧ (Fp.le x y = true ↔ a ≤ b)) ∧
    (∀ a, value x = some a →
      Fp.lt x (Fp.inf false) = true ∧ Fp.lt (Fp.inf true) x = true ∧ Fp.le (Fp.inf false) x = false ∧
        Fp.le x (Fp.inf true) = false) ∧
    (Fp.isNaN x = true ∨ Fp.isNaN y = true → Fp.lt x y = false ∧ Fp.le x y = false)

/-- 00_scope.md R14, R15: `floorclamp` is the mathematical floor between its bounds, a NaN and `-inf` giving the lower
bound and `+inf` the upper; `clamp01`; `signedPow`. -/
def Obligations.ClampsAndSignedPowerFollowTheirRules : Prop :=
  (∀ (x : F64) (lo hi : Nat),
    (∀ a, value x = some a →
      (Fp.floorclamp x lo hi : Int) = max (lo : Int) (min (hi : Int) ⌊a⌋)) ∧
    (Fp.isNaN x = true → Fp.floorclamp x lo hi = lo) ∧
    Fp.floorclamp (Fp.inf true) lo hi = lo ∧ Fp.floorclamp (Fp.inf false) lo hi = hi) ∧
  (∀ x : F64,
    (∀ a, value x = some a →
      Fp.clamp01 x = if a < 0 then Fp.c0_0 else if 1 < a then Fp.c1_0 else x) ∧
    (Fp.isNaN x = true → Fp.clamp01 x = Fp.c0_0) ∧
    Fp.clamp01 (Fp.inf true) = Fp.c0_0 ∧ Fp.clamp01 (Fp.inf false) = Fp.c1_0) ∧
  (∀ (fn : Libm) (x p : F64),
    (∀ a, value x = some a →
      Fp.signedPow fn x p
        = if 0 < a then fn.pow x p else if a < 0 then Fp.neg (fn.pow (Fp.neg x) p) else Fp.c0_0) ∧
    (Fp.isNaN x = true → Fp.isNaN (Fp.signedPow fn x p) = true) ∧
    Fp.signedPow fn (Fp.inf false) p = fn.pow (Fp.inf false) p ∧
    Fp.signedPow fn (Fp.inf true) p = Fp.neg (fn.pow (Fp.inf false) p))
end

