-- ==== Sys2Proof/Laws/Memory.lean ====
section
/-! SUPPORT. The laws of sparse storage: read after write, read after a run of writes, and the canonical form. -/

namespace Sys2Proof.Machine

variable {w : Nat}

theorem Store.read_write (m : Store w) (k j : Nat) (v : BitVec w) :
    Store.read (Store.write m k v) j = if k = j then some v else Store.read m j := by
  induction m with
  | nil => rfl
  | cons c m ih =>
    obtain ⟨i, u⟩ := c
    unfold Store.write
    by_cases h1 : k < i
    · rw [if_pos h1]; rfl
    · rw [if_neg h1]
      by_cases h2 : k = i
      · rw [if_pos h2]
        simp only [Store.read]
        by_cases h3 : k = j
        · rw [if_pos h3, if_pos h3]
        · rw [if_neg h3, if_neg h3, if_neg (h2 ▸ h3)]
      · rw [if_neg h2]
        simp only [Store.read, ih]
        by_cases h3 : k = j
        · rw [if_pos h3, if_pos h3, if_neg fun h4 => h2 (h3.trans h4.symm)]
        · rw [if_neg h3, if_neg h3]

@[simp] theorem Store.read_write_same (m : Store w) (k : Nat) (v : BitVec w) :
    Store.read (Store.write m k v) k = some v := by simp [Store.read_write]

theorem Store.read_write_ne (m : Store w) {k j : Nat} (v : BitVec w) (h : k ≠ j) :
    Store.read (Store.write m k v) j = Store.read m j := by simp [Store.read_write, h]

/-- Reading after a run of writes: the run's element inside the run, what was there before outside it. -/
theorem Store.read_writeRun (vs : List (BitVec w)) (m : Store w) (k j : Nat) :
    Store.read (Store.writeRun m k vs) j
      = if k ≤ j ∧ j < k + vs.length then vs[j - k]? else Store.read m j := by
  induction vs generalizing m k with
  | nil => simp [Store.writeRun]
  | cons v vs ih =>
    simp only [Store.writeRun, ih, Store.read_write, List.length_cons]
    by_cases h : k = j
    · subst h; simp
    · by_cases h2 : k + 1 ≤ j ∧ j < k + 1 + vs.length
      · have h3 : k ≤ j ∧ j < k + (vs.length + 1) := by omega
        have h4 : j - k = (j - (k + 1)) + 1 := by omega
        simp only [h2, h3, and_self, if_true]
        rw [h4, List.getElem?_cons_succ]
      · have h3 : ¬(k ≤ j ∧ j < k + (vs.length + 1)) := by omega
        simp only [h2, h3, if_false, h]

theorem Store.read_writeRun_inside (vs : List (BitVec w)) (m : Store w) (k i : Nat)
    (h : i < vs.length) : Store.read (Store.writeRun m k vs) (k + i) = some vs[i] := by
  rw [Store.read_writeRun, if_pos (by omega)]
  simp [h]

theorem Store.read_writeRun_outside (vs : List (BitVec w)) (m : Store w) (k j : Nat)
    (h : j < k ∨ k + vs.length ≤ j) : Store.read (Store.writeRun m k vs) j = Store.read m j := by
  rw [Store.read_writeRun, if_neg (by omega)]

@[simp] theorem Store.writeRun_nil (m : Store w) (k : Nat) : Store.writeRun m k [] = m := rfl

theorem Store.risingFrom_write (m : Store w) (lo k : Nat) (v : BitVec w)
    (hm : Store.risingFrom lo m = true) (hk : lo ≤ k) :
    Store.risingFrom lo (Store.write m k v) = true := by
  induction m generalizing lo with
  | nil => simp [Store.write, Store.risingFrom, hk]
  | cons c m ih =>
    obtain ⟨j, u⟩ := c
    simp only [Store.risingFrom, Bool.and_eq_true, decide_eq_true_eq] at hm
    simp only [Store.write]
    split_ifs with h1 h2
    · simp [Store.risingFrom, hk, hm.2]; omega
    · subst h2; simp [Store.risingFrom, hm.2, hk]
    · simp [Store.risingFrom, hm.1, ih (j + 1) hm.2 (by omega)]

/-- A write keeps the canonical form. -/
theorem Store.wf_write {m : Store w} (h : Store.wf m = true) (k : Nat) (v : BitVec w) :
    Store.wf (Store.write m k v) = true := Store.risingFrom_write m 0 k v h (Nat.zero_le k)

/-- A run of writes keeps the canonical form. -/
theorem Store.wf_writeRun {m : Store w} (h : Store.wf m = true) (k : Nat) (vs : List (BitVec w)) :
    Store.wf (Store.writeRun m k vs) = true := by
  induction vs generalizing m k with
  | nil => exact h
  | cons v vs ih => exact ih (Store.wf_write h k v) (k + 1)

/-- A write lists its key and nothing else that was not listed. -/
theorem Store.mem_write {m : Store w} {k : Nat} {v : BitVec w} {c : Nat × BitVec w}
    (h : c ∈ Store.write m k v) : c.1 = k ∨ c ∈ m := by
  induction m with
  | nil => simp [Store.write] at h; exact .inl (by rw [h])
  | cons d m ih =>
    obtain ⟨j, u⟩ := d
    simp only [Store.write] at h
    split_ifs at h with h1 h2
    · simp only [List.mem_cons] at h ⊢
      rcases h with rfl | h
      · exact .inl rfl
      · exact .inr h
    · simp only [List.mem_cons] at h ⊢
      rcases h with rfl | h
      · exact .inl rfl
      · exact .inr (.inr h)
    · simp only [List.mem_cons] at h ⊢
      rcases h with rfl | h
      · exact .inr (.inl rfl)
      · rcases ih h with h | h
        · exact .inl h
        · exact .inr (.inr h)

/-- A run of writes lists keys of the run and nothing else that was not listed. -/
theorem Store.mem_writeRun {vs : List (BitVec w)} {m : Store w} {k : Nat} {c : Nat × BitVec w}
    (h : c ∈ Store.writeRun m k vs) : (k ≤ c.1 ∧ c.1 < k + vs.length) ∨ c ∈ m := by
  induction vs generalizing m k with
  | nil => exact .inr h
  | cons v vs ih =>
    simp only [List.length_cons]
    rcases ih h with h | h
    · left; omega
    · rcases Store.mem_write h with h | h
      · left; omega
      · exact .inr h

/-- Where the canonical form holds, no listed key lies below the first. -/
theorem Store.le_of_mem {m : Store w} {lo : Nat} (h : Store.risingFrom lo m = true) {c : Nat × BitVec w}
    (hc : c ∈ m) : lo ≤ c.1 := by
  induction m generalizing lo with
  | nil => cases hc
  | cons d m ih =>
    simp only [Store.risingFrom, Bool.and_eq_true, decide_eq_true_eq] at h
    simp only [List.mem_cons] at hc
    rcases hc with rfl | hc
    · exact h.1
    · have := ih h.2 hc; omega

/-- Equal memories are equal lists: two canonical stores that read alike are the same. -/
theorem Store.ext_of_wf {m n : Store w} {lo : Nat} (hm : Store.risingFrom lo m = true)
    (hn : Store.risingFrom lo n = true) (h : ∀ k, Store.read m k = Store.read n k) : m = n := by
  have unread : ∀ (l : Store w) (lo k : Nat), Store.risingFrom lo l = true → k < lo →
      Store.read l k = none := by
    intro l
    induction l with
    | nil => intros; rfl
    | cons d l ih =>
      intro lo k hl hk
      simp only [Store.risingFrom, Bool.and_eq_true, decide_eq_true_eq] at hl
      simp only [Store.read]
      rw [if_neg (by omega)]
      exact ih _ k hl.2 (by omega)
  induction m generalizing n lo with
  | nil =>
    cases n with
    | nil => rfl
    | cons d n => simpa [Store.read] using h d.1
  | cons c m ih =>
    cases n with
    | nil => simpa [Store.read] using h c.1
    | cons d n =>
      obtain ⟨i, u⟩ := c
      obtain ⟨j, v⟩ := d
      simp only [Store.risingFrom, Bool.and_eq_true, decide_eq_true_eq] at hm hn
      have hi := h i
      have hj := h j
      simp only [Store.read] at hi hj
      rcases Nat.lt_trichotomy i j with hlt | heq | hgt
      · rw [if_pos trivial, if_neg (by omega), unread n (j + 1) i hn.2 (by omega)] at hi
        exact absurd hi (by simp)
      · subst heq
        simp only [if_true, Option.some.injEq] at hi
        subst hi
        refine congrArg _ (ih hm.2 hn.2 fun k => ?_)
        have hk := h k
        simp only [Store.read] at hk
        by_cases hik : i = k
        · subst hik
          rw [unread m (i + 1) i hm.2 (by omega), unread n (i + 1) i hn.2 (by omega)]
        · simpa [hik] using hk
      · rw [if_pos trivial, if_neg (by omega), unread m (i + 1) j hm.2 (by omega)] at hj
        exact absurd hj (by simp)

/-- The buffers after reset are in canonical form. -/
theorem State.reset_wf : Memory.wf State.reset.mem = true ∧ Store.wf State.reset.coef = true :=
  ⟨rfl, rfl⟩

end Sys2Proof.Machine
end

