-- ==== Sys2Proof/Laws/State.lean ====
section
/-! SUPPORT. The fields of a state after each update, one lemma a field, true by rfl. -/

namespace Sys2Proof.Machine

theorem State.readable_idle {s : State} (h : s.engine = .idle) : s.readable = s.hostView := by
  unfold State.readable; rw [h]

theorem State.readable_busy {s : State} {w : Word} {b : HostView} (h : s.engine = .busy w b) :
    s.readable = b := by
  unfold State.readable; rw [h]

@[simp] theorem State.accept_readable (s : State) (w : Word) : (s.accept w).readable = s.hostView := rfl

@[simp] theorem State.accept_irqen (s : State) (w : Word) : (s.accept w).irqen = s.irqen := rfl
@[simp] theorem State.accept_engine (s : State) (w : Word) : (s.accept w).engine = .busy w s.hostView := rfl
@[simp] theorem State.accept_done (s : State) (w : Word) : (s.accept w).done = false := rfl
@[simp] theorem State.accept_cmdlost (s : State) (w : Word) : (s.accept w).cmdlost = s.cmdlost := rfl
@[simp] theorem State.accept_errcode (s : State) (w : Word) : (s.accept w).errcode = 0 := rfl
@[simp] theorem State.accept_width (s : State) (w : Word) : (s.accept w).width = s.width := rfl
@[simp] theorem State.accept_height (s : State) (w : Word) : (s.accept w).height = s.height := rfl
@[simp] theorem State.accept_xcomp (s : State) (w : Word) : (s.accept w).xcomp = s.xcomp := rfl
@[simp] theorem State.accept_ycomp (s : State) (w : Word) : (s.accept w).ycomp = s.ycomp := rfl
@[simp] theorem State.accept_punch (s : State) (w : Word) : (s.accept w).punch = s.punch := rfl
@[simp] theorem State.accept_pixLen (s : State) (w : Word) : (s.accept w).pixLen = s.pixLen := rfl
@[simp] theorem State.accept_hashLen (s : State) (w : Word) : (s.accept w).hashLen = s.hashLen := rfl
@[simp] theorem State.accept_a0 (s : State) (w : Word) : (s.accept w).a0 = s.a0 := rfl
@[simp] theorem State.accept_a1 (s : State) (w : Word) : (s.accept w).a1 = s.a1 := rfl
@[simp] theorem State.accept_r0 (s : State) (w : Word) : (s.accept w).r0 = s.r0 := rfl
@[simp] theorem State.accept_qmax (s : State) (w : Word) : (s.accept w).qmax = s.qmax := rfl
@[simp] theorem State.accept_maxval (s : State) (w : Word) : (s.accept w).maxval = s.maxval := rfl
@[simp] theorem State.accept_errExp (s : State) (w : Word) : (s.accept w).errExp = 0 := rfl
@[simp] theorem State.accept_errAct (s : State) (w : Word) : (s.accept w).errAct = 0 := rfl
@[simp] theorem State.accept_errPos (s : State) (w : Word) : (s.accept w).errPos = 0 := rfl
@[simp] theorem State.accept_coef (s : State) (w : Word) : (s.accept w).coef = s.coef := rfl
@[simp] theorem State.accept_mem (s : State) (w : Word) : (s.accept w).mem = s.mem := rfl
@[simp] theorem State.accept_resetHeld (s : State) (w : Word) : (s.accept w).resetHeld = s.resetHeld := rfl
@[simp] theorem State.accept_params (s : State) (w : Word) : (s.accept w).params = s.params := rfl
@[simp] theorem State.accept_agenda (s : State) (w : Word) : (s.accept w).agenda = s.agenda := rfl
@[simp] theorem State.accept_port (s : State) (w : Word) : (s.accept w).port = s.port := rfl
@[simp] theorem State.accept_epoch (s : State) (w : Word) : (s.accept w).epoch = s.epoch := rfl

@[simp] theorem State.commit_irqen (s : State) (x : Staged) : (s.commit x).irqen = s.irqen := rfl
@[simp] theorem State.commit_engine (s : State) (x : Staged) : (s.commit x).engine = s.engine := rfl
@[simp] theorem State.commit_done (s : State) (x : Staged) : (s.commit x).done = s.done := rfl
@[simp] theorem State.commit_cmdlost (s : State) (x : Staged) : (s.commit x).cmdlost = s.cmdlost := rfl
@[simp] theorem State.commit_errcode (s : State) (x : Staged) : (s.commit x).errcode = s.errcode := rfl
@[simp] theorem State.commit_width (s : State) (x : Staged) : (s.commit x).width = s.width := rfl
@[simp] theorem State.commit_height (s : State) (x : Staged) : (s.commit x).height = s.height := rfl
@[simp] theorem State.commit_xcomp (s : State) (x : Staged) : (s.commit x).xcomp = x.xcomp.getD s.xcomp := rfl
@[simp] theorem State.commit_ycomp (s : State) (x : Staged) : (s.commit x).ycomp = x.ycomp.getD s.ycomp := rfl
@[simp] theorem State.commit_punch (s : State) (x : Staged) : (s.commit x).punch = s.punch := rfl
@[simp] theorem State.commit_pixLen (s : State) (x : Staged) : (s.commit x).pixLen = x.pixLen.getD s.pixLen := rfl
@[simp] theorem State.commit_hashLen (s : State) (x : Staged) : (s.commit x).hashLen = x.hashLen.getD s.hashLen := rfl
@[simp] theorem State.commit_a0 (s : State) (x : Staged) : (s.commit x).a0 = s.a0 := rfl
@[simp] theorem State.commit_a1 (s : State) (x : Staged) : (s.commit x).a1 = s.a1 := rfl
@[simp] theorem State.commit_r0 (s : State) (x : Staged) : (s.commit x).r0 = x.r0.getD s.r0 := rfl
@[simp] theorem State.commit_qmax (s : State) (x : Staged) : (s.commit x).qmax = x.qmax.getD s.qmax := rfl
@[simp] theorem State.commit_maxval (s : State) (x : Staged) : (s.commit x).maxval = x.maxval.getD s.maxval := rfl
@[simp] theorem State.commit_errExp (s : State) (x : Staged) : (s.commit x).errExp = s.errExp := rfl
@[simp] theorem State.commit_errAct (s : State) (x : Staged) : (s.commit x).errAct = s.errAct := rfl
@[simp] theorem State.commit_errPos (s : State) (x : Staged) : (s.commit x).errPos = s.errPos := rfl
@[simp] theorem State.commit_coef (s : State) (x : Staged) : (s.commit x).coef = 
    Store.writeRun s.coef (3 * x.coef.1) (x.coef.2.flatMap Rgb.toList) := rfl
@[simp] theorem State.commit_mem (s : State) (x : Staged) : (s.commit x).mem = 
    Store.writeRun (Store.writeRun s.mem (hashBase + x.hash.1) x.hash.2) pixBase x.pix := rfl
@[simp] theorem State.commit_resetHeld (s : State) (x : Staged) : (s.commit x).resetHeld = s.resetHeld := rfl
@[simp] theorem State.commit_params (s : State) (x : Staged) : (s.commit x).params = s.params := rfl
@[simp] theorem State.commit_agenda (s : State) (x : Staged) : (s.commit x).agenda = s.agenda := rfl
@[simp] theorem State.commit_port (s : State) (x : Staged) : (s.commit x).port = s.port := rfl
@[simp] theorem State.commit_epoch (s : State) (x : Staged) : (s.commit x).epoch = s.epoch := rfl

@[simp] theorem State.finish_irqen (s : State) : (s.finish).irqen = s.irqen := rfl
@[simp] theorem State.finish_engine (s : State) : (s.finish).engine = .idle := rfl
@[simp] theorem State.finish_done (s : State) : (s.finish).done = true := rfl
@[simp] theorem State.finish_cmdlost (s : State) : (s.finish).cmdlost = s.cmdlost := rfl
@[simp] theorem State.finish_errcode (s : State) : (s.finish).errcode = 0 := rfl
@[simp] theorem State.finish_width (s : State) : (s.finish).width = s.width := rfl
@[simp] theorem State.finish_height (s : State) : (s.finish).height = s.height := rfl
@[simp] theorem State.finish_xcomp (s : State) : (s.finish).xcomp = s.xcomp := rfl
@[simp] theorem State.finish_ycomp (s : State) : (s.finish).ycomp = s.ycomp := rfl
@[simp] theorem State.finish_punch (s : State) : (s.finish).punch = s.punch := rfl
@[simp] theorem State.finish_pixLen (s : State) : (s.finish).pixLen = s.pixLen := rfl
@[simp] theorem State.finish_hashLen (s : State) : (s.finish).hashLen = s.hashLen := rfl
@[simp] theorem State.finish_a0 (s : State) : (s.finish).a0 = s.a0 := rfl
@[simp] theorem State.finish_a1 (s : State) : (s.finish).a1 = s.a1 := rfl
@[simp] theorem State.finish_r0 (s : State) : (s.finish).r0 = s.r0 := rfl
@[simp] theorem State.finish_qmax (s : State) : (s.finish).qmax = s.qmax := rfl
@[simp] theorem State.finish_maxval (s : State) : (s.finish).maxval = s.maxval := rfl
@[simp] theorem State.finish_errExp (s : State) : (s.finish).errExp = 0 := rfl
@[simp] theorem State.finish_errAct (s : State) : (s.finish).errAct = 0 := rfl
@[simp] theorem State.finish_errPos (s : State) : (s.finish).errPos = 0 := rfl
@[simp] theorem State.finish_coef (s : State) : (s.finish).coef = s.coef := rfl
@[simp] theorem State.finish_mem (s : State) : (s.finish).mem = s.mem := rfl
@[simp] theorem State.finish_resetHeld (s : State) : (s.finish).resetHeld = s.resetHeld := rfl
@[simp] theorem State.finish_params (s : State) : (s.finish).params = s.params := rfl
@[simp] theorem State.finish_agenda (s : State) : (s.finish).agenda = s.agenda := rfl
@[simp] theorem State.finish_port (s : State) : (s.finish).port = s.port := rfl
@[simp] theorem State.finish_epoch (s : State) : (s.finish).epoch = s.epoch := rfl

@[simp] theorem State.raise_irqen (s : State) (r : Raise) : (s.raise r).irqen = s.irqen := rfl
@[simp] theorem State.raise_engine (s : State) (r : Raise) : (s.raise r).engine = .idle := rfl
@[simp] theorem State.raise_done (s : State) (r : Raise) : (s.raise r).done = true := rfl
@[simp] theorem State.raise_cmdlost (s : State) (r : Raise) : (s.raise r).cmdlost = s.cmdlost := rfl
@[simp] theorem State.raise_errcode (s : State) (r : Raise) : (s.raise r).errcode = r.kind.code := rfl
@[simp] theorem State.raise_width (s : State) (r : Raise) : (s.raise r).width = s.width := rfl
@[simp] theorem State.raise_height (s : State) (r : Raise) : (s.raise r).height = s.height := rfl
@[simp] theorem State.raise_xcomp (s : State) (r : Raise) : (s.raise r).xcomp = s.xcomp := rfl
@[simp] theorem State.raise_ycomp (s : State) (r : Raise) : (s.raise r).ycomp = s.ycomp := rfl
@[simp] theorem State.raise_punch (s : State) (r : Raise) : (s.raise r).punch = s.punch := rfl
@[simp] theorem State.raise_pixLen (s : State) (r : Raise) : (s.raise r).pixLen = s.pixLen := rfl
@[simp] theorem State.raise_hashLen (s : State) (r : Raise) : (s.raise r).hashLen = s.hashLen := rfl
@[simp] theorem State.raise_a0 (s : State) (r : Raise) : (s.raise r).a0 = s.a0 := rfl
@[simp] theorem State.raise_a1 (s : State) (r : Raise) : (s.raise r).a1 = s.a1 := rfl
@[simp] theorem State.raise_r0 (s : State) (r : Raise) : (s.raise r).r0 = s.r0 := rfl
@[simp] theorem State.raise_qmax (s : State) (r : Raise) : (s.raise r).qmax = s.qmax := rfl
@[simp] theorem State.raise_maxval (s : State) (r : Raise) : (s.raise r).maxval = s.maxval := rfl
@[simp] theorem State.raise_errExp (s : State) (r : Raise) : (s.raise r).errExp = contextWord r.exp := rfl
@[simp] theorem State.raise_errAct (s : State) (r : Raise) : (s.raise r).errAct = contextWord r.act := rfl
@[simp] theorem State.raise_errPos (s : State) (r : Raise) : (s.raise r).errPos = contextWord r.pos := rfl
@[simp] theorem State.raise_coef (s : State) (r : Raise) : (s.raise r).coef = s.coef := rfl
@[simp] theorem State.raise_mem (s : State) (r : Raise) : (s.raise r).mem = s.mem := rfl
@[simp] theorem State.raise_resetHeld (s : State) (r : Raise) : (s.raise r).resetHeld = s.resetHeld := rfl
@[simp] theorem State.raise_params (s : State) (r : Raise) : (s.raise r).params = s.params := rfl
@[simp] theorem State.raise_agenda (s : State) (r : Raise) : (s.raise r).agenda = s.agenda := rfl
@[simp] theorem State.raise_port (s : State) (r : Raise) : (s.raise r).port = s.port := rfl
@[simp] theorem State.raise_epoch (s : State) (r : Raise) : (s.raise r).epoch = s.epoch := rfl

@[simp] theorem State.assertReset_irqen (s : State) : (s.assertReset).irqen = State.reset.irqen := rfl
@[simp] theorem State.assertReset_engine (s : State) : (s.assertReset).engine = State.reset.engine := rfl
@[simp] theorem State.assertReset_done (s : State) : (s.assertReset).done = State.reset.done := rfl
@[simp] theorem State.assertReset_cmdlost (s : State) : (s.assertReset).cmdlost = State.reset.cmdlost := rfl
@[simp] theorem State.assertReset_errcode (s : State) : (s.assertReset).errcode = State.reset.errcode := rfl
@[simp] theorem State.assertReset_width (s : State) : (s.assertReset).width = State.reset.width := rfl
@[simp] theorem State.assertReset_height (s : State) : (s.assertReset).height = State.reset.height := rfl
@[simp] theorem State.assertReset_xcomp (s : State) : (s.assertReset).xcomp = State.reset.xcomp := rfl
@[simp] theorem State.assertReset_ycomp (s : State) : (s.assertReset).ycomp = State.reset.ycomp := rfl
@[simp] theorem State.assertReset_punch (s : State) : (s.assertReset).punch = State.reset.punch := rfl
@[simp] theorem State.assertReset_pixLen (s : State) : (s.assertReset).pixLen = State.reset.pixLen := rfl
@[simp] theorem State.assertReset_hashLen (s : State) : (s.assertReset).hashLen = State.reset.hashLen := rfl
@[simp] theorem State.assertReset_a0 (s : State) : (s.assertReset).a0 = State.reset.a0 := rfl
@[simp] theorem State.assertReset_a1 (s : State) : (s.assertReset).a1 = State.reset.a1 := rfl
@[simp] theorem State.assertReset_r0 (s : State) : (s.assertReset).r0 = State.reset.r0 := rfl
@[simp] theorem State.assertReset_qmax (s : State) : (s.assertReset).qmax = State.reset.qmax := rfl
@[simp] theorem State.assertReset_maxval (s : State) : (s.assertReset).maxval = State.reset.maxval := rfl
@[simp] theorem State.assertReset_errExp (s : State) : (s.assertReset).errExp = State.reset.errExp := rfl
@[simp] theorem State.assertReset_errAct (s : State) : (s.assertReset).errAct = State.reset.errAct := rfl
@[simp] theorem State.assertReset_errPos (s : State) : (s.assertReset).errPos = State.reset.errPos := rfl
@[simp] theorem State.assertReset_coef (s : State) : (s.assertReset).coef = State.reset.coef := rfl
@[simp] theorem State.assertReset_mem (s : State) : (s.assertReset).mem = State.reset.mem := rfl
@[simp] theorem State.assertReset_resetHeld (s : State) : (s.assertReset).resetHeld = true := rfl
@[simp] theorem State.assertReset_params (s : State) : (s.assertReset).params = s.params := rfl
@[simp] theorem State.assertReset_agenda (s : State) : (s.assertReset).agenda = s.agenda := rfl
@[simp] theorem State.assertReset_port (s : State) : (s.assertReset).port = s.port := rfl
@[simp] theorem State.assertReset_epoch (s : State) : (s.assertReset).epoch = s.epoch + 1 := rfl

@[simp] theorem State.releaseReset_irqen (s : State) : (s.releaseReset).irqen = s.irqen := rfl
@[simp] theorem State.releaseReset_engine (s : State) : (s.releaseReset).engine = s.engine := rfl
@[simp] theorem State.releaseReset_done (s : State) : (s.releaseReset).done = s.done := rfl
@[simp] theorem State.releaseReset_cmdlost (s : State) : (s.releaseReset).cmdlost = s.cmdlost := rfl
@[simp] theorem State.releaseReset_errcode (s : State) : (s.releaseReset).errcode = s.errcode := rfl
@[simp] theorem State.releaseReset_width (s : State) : (s.releaseReset).width = s.width := rfl
@[simp] theorem State.releaseReset_height (s : State) : (s.releaseReset).height = s.height := rfl
@[simp] theorem State.releaseReset_xcomp (s : State) : (s.releaseReset).xcomp = s.xcomp := rfl
@[simp] theorem State.releaseReset_ycomp (s : State) : (s.releaseReset).ycomp = s.ycomp := rfl
@[simp] theorem State.releaseReset_punch (s : State) : (s.releaseReset).punch = s.punch := rfl
@[simp] theorem State.releaseReset_pixLen (s : State) : (s.releaseReset).pixLen = s.pixLen := rfl
@[simp] theorem State.releaseReset_hashLen (s : State) : (s.releaseReset).hashLen = s.hashLen := rfl
@[simp] theorem State.releaseReset_a0 (s : State) : (s.releaseReset).a0 = s.a0 := rfl
@[simp] theorem State.releaseReset_a1 (s : State) : (s.releaseReset).a1 = s.a1 := rfl
@[simp] theorem State.releaseReset_r0 (s : State) : (s.releaseReset).r0 = s.r0 := rfl
@[simp] theorem State.releaseReset_qmax (s : State) : (s.releaseReset).qmax = s.qmax := rfl
@[simp] theorem State.releaseReset_maxval (s : State) : (s.releaseReset).maxval = s.maxval := rfl
@[simp] theorem State.releaseReset_errExp (s : State) : (s.releaseReset).errExp = s.errExp := rfl
@[simp] theorem State.releaseReset_errAct (s : State) : (s.releaseReset).errAct = s.errAct := rfl
@[simp] theorem State.releaseReset_errPos (s : State) : (s.releaseReset).errPos = s.errPos := rfl
@[simp] theorem State.releaseReset_coef (s : State) : (s.releaseReset).coef = s.coef := rfl
@[simp] theorem State.releaseReset_mem (s : State) : (s.releaseReset).mem = s.mem := rfl
@[simp] theorem State.releaseReset_resetHeld (s : State) : (s.releaseReset).resetHeld = false := rfl
@[simp] theorem State.releaseReset_params (s : State) : (s.releaseReset).params = s.params := rfl
@[simp] theorem State.releaseReset_agenda (s : State) : (s.releaseReset).agenda = s.agenda := rfl
@[simp] theorem State.releaseReset_port (s : State) : (s.releaseReset).port = s.port := rfl
@[simp] theorem State.releaseReset_epoch (s : State) : (s.releaseReset).epoch = s.epoch := rfl

end Sys2Proof.Machine
end

