-- ==== Sys2Proof/Laws/Exec.lean ====
section
/-! SUPPORT. What a command does, said once: every meaning completes the state with what its stage answers, and
completion is either a commit of that or a raise. -/

namespace Sys2Proof.Machine

/-- What a command stages, by command. -/
def stageOf (i : Instr) (s : State) : Except Raise Staged :=
  match i with
  | .nop => stageNop
  | .tolin => stageTolin Config.libm s
  | .togam => stageTogam Config.libm s
  | .b83enc n => stageB83enc n s
  | .b83dec n => stageB83dec n s
  | .qdc => stageQdc Config.libm s
  | .qmax => stageQmax s
  | .qac => stageQac Config.libm s
  | .dqdc => stageDqdc Config.libm s
  | .dqmax => stageDqmax s
  | .dqac => stageDqac Config.libm s
  | .fdct => stageFdct Config.libm s
  | .idct => stageIdct Config.libm s
  | .encode => stageEncode Config.libm s
  | .decode => stageDecode Config.libm s

/-- Every command answers a next state, the completion of what it stages. -/
theorem exec_eq (i : Instr) (s : State) : exec i s = .next (s.complete (stageOf i s)) := by
  cases i <;> rfl

theorem exec_eq_next_iff {i : Instr} {s t : State} :
    exec i s = .next t ↔ t = s.complete (stageOf i s) := by
  rw [exec_eq]
  constructor
  · intro h; cases h; rfl
  · rintro rfl; rfl

@[simp] theorem State.complete_ok (s : State) (x : Staged) :
    s.complete (.ok x) = (s.commit x).finish := rfl

@[simp] theorem State.complete_error (s : State) (r : Raise) : s.complete (.error r) = s.raise r := rfl

/-- Completion with results, or with an error. -/
theorem State.complete_cases (s : State) (e : Except Raise Staged) :
    (∃ x, e = .ok x ∧ s.complete e = (s.commit x).finish) ∨
      (∃ r, e = .error r ∧ s.complete e = s.raise r) := by
  cases e with
  | ok x => exact .inl ⟨x, rfl, rfl⟩
  | error r => exact .inr ⟨r, rfl, rfl⟩

/-- Committing nothing changes nothing. -/
@[simp] theorem State.commit_empty (s : State) : s.commit {} = s := rfl

/-! What a completion with results is, by the shape of what is staged. The staged values are variables here, so
that a proof that rewrites with these never asks the kernel to compute one (`id rfl` keeps `simp` from using them
as definitional steps). -/

theorem State.finish_commit_r0 (s : State) (v : Word) :
    (s.commit { r0 := some v }).finish = { s.finish with r0 := v } := id rfl

theorem State.finish_commit_scale (s : State) (q : BitVec 8) (v : F64) :
    (s.commit { qmax := some q, maxval := some v }).finish = { s.finish with qmax := q, maxval := v } := id rfl

theorem State.finish_commit_coef (s : State) (k : Nat) (cells : List Rgb) :
    (s.commit { coef := (k, cells) }).finish
      = { s.finish with coef := Store.writeRun s.coef (3 * k) (cells.flatMap Rgb.toList) } := id rfl

theorem State.finish_commit_hash (s : State) (p : Nat) (bytes : List Byte) :
    (s.commit { hash := (p, bytes) }).finish
      = { s.finish with mem := Store.writeRun s.mem (hashBase + p) bytes } := id rfl

theorem State.finish_commit_pix (s : State) (bytes : List Byte) (n : Word) :
    (s.commit { pix := bytes, pixLen := some n }).finish
      = { s.finish with mem := Store.writeRun s.mem pixBase bytes, pixLen := n } := id rfl

/-- The channels of a cell, by element. -/
theorem State.coefCell_r (s : State) (k : Nat) : (s.coefCell k).r = s.coefElem (3 * k) := rfl
theorem State.coefCell_g (s : State) (k : Nat) : (s.coefCell k).g = s.coefElem (3 * k + 1) := rfl
theorem State.coefCell_b (s : State) (k : Nat) : (s.coefCell k).b = s.coefElem (3 * k + 2) := rfl

/-! Sequences of checks. -/

theorem bind_ok {α β : Type} (a : α) (f : α → Except Raise β) :
    ((Except.ok a : Except Raise α) >>= f) = f a := rfl

theorem bind_error {α β : Type} (r : Raise) (f : α → Except Raise β) :
    ((Except.error r : Except Raise α) >>= f) = .error r := rfl

theorem pure_eq_ok {α : Type} (a : α) : (pure a : Except Raise α) = .ok a := rfl

theorem bind_eq_ok {α β : Type} {x : Except Raise α} {f : α → Except Raise β} {b : β} :
    x >>= f = .ok b ↔ ∃ a, x = .ok a ∧ f a = .ok b := by
  cases x with
  | ok a => simp [bind_ok]
  | error r => simp [bind_error]

theorem bind_eq_error {α β : Type} {x : Except Raise α} {f : α → Except Raise β} {r : Raise} :
    x >>= f = .error r ↔ x = .error r ∨ ∃ a, x = .ok a ∧ f a = .error r := by
  cases x with
  | ok a => simp [bind_ok]
  | error r' => simp [bind_error]

/-! The checks. -/

theorem checkAtMost_pass {limit v pos : Nat} (h : v ≤ limit) : checkAtMost limit v pos = .ok () :=
  if_neg (by omega)

theorem checkAtMost_fail {limit v pos : Nat} (h : limit < v) :
    checkAtMost limit v pos = .error ⟨.illegalOperand, limit, v, pos⟩ := if_pos h

theorem checkAtMost_ok_iff {limit v pos : Nat} {u : Unit} :
    checkAtMost limit v pos = .ok u ↔ v ≤ limit := by
  unfold checkAtMost
  split_ifs with h
  · simp; omega
  · simp; omega

theorem checkDigits_pass {n : Nat} (h1 : 1 ≤ n) (h2 : n ≤ 10) : checkDigits n = .ok () :=
  if_neg (by omega)

theorem checkDigits_fail {n : Nat} (h : n < 1 ∨ 10 < n) :
    checkDigits n = .error ⟨.illegalOperand, 10, n, 2⟩ := if_pos h

theorem checkDigits_ok_iff {n : Nat} {u : Unit} : checkDigits n = .ok u ↔ 1 ≤ n ∧ n ≤ 10 := by
  unfold checkDigits
  split_ifs with h
  · simp; omega
  · simp; omega

theorem checkComponents_ok_iff {s : State} {u : Unit} :
    checkComponents s = .ok u ↔ 1 ≤ s.xc ∧ s.xc ≤ 9 ∧ 1 ≤ s.yc ∧ s.yc ≤ 9 := by
  unfold checkComponents
  split_ifs with h
  · simp; omega
  · simp; omega

theorem checkComponents_fail {s : State} (h : ¬(1 ≤ s.xc ∧ s.xc ≤ 9 ∧ 1 ≤ s.yc ∧ s.yc ≤ 9)) :
    checkComponents s = .error ⟨.invalidComponents, 9, s.xc ||| s.yc <<< 8, 0⟩ := if_pos (by omega)

theorem checkTarget_ok_iff {s : State} {u : Unit} :
    checkTarget s = .ok u ↔ 1 ≤ s.w ∧ 1 ≤ s.h ∧ s.need ≤ s.params.pixCap := by
  unfold checkTarget
  split_ifs with h h'
  · simp; omega
  · simp; omega
  · simp; omega

theorem checkTarget_size {s : State} (h : s.w = 0 ∨ s.h = 0) :
    checkTarget s = .error ⟨.invalidSize, 1, s.w ||| s.h <<< 16, 0⟩ := if_pos h

theorem checkTarget_capacity {s : State} (h : 1 ≤ s.w) (h' : 1 ≤ s.h) (hc : s.params.pixCap < s.need) :
    checkTarget s = .error ⟨.capacityExceeded, s.params.pixCap, s.need, 0⟩ := by
  rw [checkTarget, if_neg (by omega), if_pos hc]

theorem checkImage_ok_iff {s : State} {u : Unit} :
    checkImage s = .ok u ↔
      s.pixLen.toNat = s.need ∧ (1 ≤ s.xc ∧ s.xc ≤ 9 ∧ 1 ≤ s.yc ∧ s.yc ≤ 9) ∧
        (1 ≤ s.w ∧ 1 ≤ s.h ∧ s.need ≤ s.params.pixCap) := by
  unfold checkImage
  split_ifs with h
  · simp; omega
  · simp only [bind_eq_ok, checkComponents_ok_iff, checkTarget_ok_iff]
    constructor
    · rintro ⟨_, h1, h2⟩; exact ⟨by omega, h1, h2⟩
    · rintro ⟨_, h1, h2⟩; exact ⟨(), h1, h2⟩

/-- Bits that do not overlap add: the error contexts of two packed fields. -/
theorem or_shiftLeft_eq {a b k : Nat} (h : a < 2 ^ k) : a ||| b <<< k = a + b * 2 ^ k := by
  rw [Nat.or_comm, ← Nat.shiftLeft_add_eq_or_of_lt h, Nat.shiftLeft_eq, Nat.add_comm]

theorem contextWord_of_lt {v : Nat} (h : v < 2 ^ 64) : contextWord v = BitVec.ofNat 64 v := by
  unfold contextWord
  rw [Nat.min_eq_left (by omega)]

/-- `3 * W * H` is far below `2^64` (60_exceptions.md R222). -/
theorem State.need_lt (s : State) : s.need < 2 ^ 34 := by
  have hw : s.w < 2 ^ 16 := s.width.isLt
  have hh : s.h < 2 ^ 16 := s.height.isLt
  have : s.w * s.h ≤ (2 ^ 16 - 1) * (2 ^ 16 - 1) := Nat.mul_le_mul (by omega) (by omega)
  unfold State.need
  rw [Nat.mul_assoc]
  omega

end Sys2Proof.Machine
end

