-- ==== Sys2Proof/Laws/Quantizer.lean ====
section
/-! SUPPORT. The ranges of the quantizer's integers, and what its commands stage. -/

namespace Sys2Proof.Machine

/-- `floorclamp` answers inside its bounds (00_scope.md R14). -/
theorem floorclamp_bounds (x : F64) {lo hi : Nat} (h : lo ≤ hi) :
    lo ≤ Fp.floorclamp x lo hi ∧ Fp.floorclamp x lo hi ≤ hi := by
  unfold Fp.floorclamp
  split <;> omega

theorem acQuant_le (fn : Libm) (v maxValue : F64) : acQuant fn v maxValue ≤ 18 :=
  (floorclamp_bounds _ (by omega)).2

theorem acPack_le (fn : Libm) (x : Rgb) (maxValue : F64) : acPack fn x maxValue ≤ 6858 := by
  have hr := acQuant_le fn x.r maxValue
  have hg := acQuant_le fn x.g maxValue
  have hb := acQuant_le fn x.b maxValue
  unfold acPack
  omega

theorem quantizedMax_le (m : F64) : quantizedMax m ≤ 82 := (floorclamp_bounds _ (by omega)).2

theorem acScale_fst_le (acs : List Rgb) : (acScale acs).1 ≤ 82 := by
  cases acs with
  | nil => exact Nat.zero_le _
  | cons x xs => exact quantizedMax_le _

theorem legalMaxval_one : legalMaxval Fp.c1_0 := .inl rfl

theorem legalMaxval_scaleOf {q : Nat} (h : q ≤ 82) : legalMaxval (scaleOf q) := .inr ⟨q, h, rfl⟩

theorem acScale_legal (acs : List Rgb) : legalMaxval (acScale acs).2 := by
  cases acs with
  | nil => exact legalMaxval_one
  | cons x xs => exact legalMaxval_scaleOf (quantizedMax_le _)

/-- The packed DC value, as a sum (43_quantizer.md R140). -/
theorem dcQuant_eq (fn : Libm) (mode : GammaRounding) (x : Rgb) :
    dcQuant fn mode x
      = (toGamma fn mode x.r).toNat * 2 ^ 16 + (toGamma fn mode x.g).toNat * 2 ^ 8
        + (toGamma fn mode x.b).toNat := by
  have hg : (toGamma fn mode x.g).toNat < 2 ^ 8 := (toGamma fn mode x.g).isLt
  have hb : (toGamma fn mode x.b).toNat < 2 ^ 8 := (toGamma fn mode x.b).isLt
  unfold dcQuant
  generalize (toGamma fn mode x.r).toNat = r at *
  generalize (toGamma fn mode x.g).toNat = g at *
  generalize (toGamma fn mode x.b).toNat = b at *
  have h1 : r <<< 16 ||| g <<< 8 = r * 2 ^ 16 + g * 2 ^ 8 := by
    rw [← Nat.shiftLeft_add_eq_or_of_lt (b := g <<< 8) (by rw [Nat.shiftLeft_eq]; omega)]
    simp [Nat.shiftLeft_eq]
  have h2 : r * 2 ^ 16 + g * 2 ^ 8 = (r * 2 ^ 8 + g) <<< 8 := by
    rw [Nat.shiftLeft_eq]; omega
  rw [h1, h2, ← Nat.shiftLeft_add_eq_or_of_lt hb, Nat.shiftLeft_eq]

theorem dcQuant_lt (fn : Libm) (mode : GammaRounding) (x : Rgb) : dcQuant fn mode x < 2 ^ 24 := by
  have hr : (toGamma fn mode x.r).toNat < 2 ^ 8 := (toGamma fn mode x.r).isLt
  have hg : (toGamma fn mode x.g).toNat < 2 ^ 8 := (toGamma fn mode x.g).isLt
  have hb : (toGamma fn mode x.b).toNat < 2 ^ 8 := (toGamma fn mode x.b).isLt
  rw [dcQuant_eq]
  omega

/-- `dcDequant` where the policy does not fault (43_quantizer.md R150). -/
theorem dcDequant_eq {fn : Libm} {policy : OverrangePolicy} {v p : Nat}
    (h : 2 ^ 24 ≤ v → policy ≠ .fault) :
    dcDequant fn policy v p = .ok
      { r := toLinear fn (if policy = .mask then v / 2 ^ 16 % 256 else v / 2 ^ 16)
        g := toLinear fn (v / 2 ^ 8 % 256)
        b := toLinear fn (v % 256) } := by
  have hand : ∀ k : Nat, k &&& 255 = k % 256 := fun k => Nat.and_two_pow_sub_one_eq_mod k 8
  unfold dcDequant overrangeRed
  simp only [hand, Nat.shiftRight_eq_div_pow]
  by_cases hv : 2 ^ 24 ≤ v
  · cases policy <;> simp_all [bind_ok, pure_eq_ok]
  · have e : v / 2 ^ 16 % 256 = v / 2 ^ 16 := Nat.mod_eq_of_lt (by omega)
    rw [if_neg hv, e, ite_self]
    rfl

theorem dcDequant_fault {fn : Libm} {v p : Nat} (h : 2 ^ 24 ≤ v) :
    dcDequant fn .fault v p = .error ⟨.fieldOverrange, 2 ^ 24 - 1, v, p⟩ := by
  unfold dcDequant overrangeRed
  rw [if_pos h]
  rfl

/-- `acUnpack` where the policy does not fault (43_quantizer.md R151). -/
theorem acUnpack_eq {policy : OverrangePolicy} {v p : Nat} (hv : v ≤ 6888)
    (h : 6859 ≤ v → policy ≠ .fault) :
    acUnpack policy v p = .ok
      (if policy = .mask then v / 361 % 19 else v / 361, v / 19 % 19, v % 19) := by
  unfold acUnpack overrangeRed
  by_cases hv : 6859 ≤ v
  · cases policy <;> simp_all [bind_ok, pure_eq_ok]
  · have e : v / 361 % 19 = v / 361 := Nat.mod_eq_of_lt (by omega)
    rw [if_neg hv, e, ite_self]
    rfl

theorem acUnpack_fault {v p : Nat} (h : 6859 ≤ v) :
    acUnpack .fault v p = .error ⟨.fieldOverrange, 6858, v, p⟩ := by
  unfold acUnpack overrangeRed
  rw [if_pos h]
  rfl

/-- A run of cells written from cell `k` on, read back. -/
theorem State.commit_coefElem (s : State) (x : Staged) (e : Nat) :
    (s.commit x).coefElem e
      = if 3 * x.coef.1 ≤ e ∧ e < 3 * x.coef.1 + 3 * x.coef.2.length then
          ((x.coef.2.flatMap Rgb.toList)[e - 3 * x.coef.1]?).getD (Config.freeWord s.epoch e)
        else s.coefElem e := by
  have hlen : (x.coef.2.flatMap Rgb.toList).length = 3 * x.coef.2.length := by
    induction x.coef.2 with
    | nil => rfl
    | cons y ys ih => simp only [List.flatMap_cons, List.length_append, ih, List.length_cons]; simp [Rgb.toList]; omega
  unfold State.coefElem
  simp only [State.commit_coef, State.commit_epoch, Store.read_writeRun, hlen]
  split_ifs <;> rfl

/-- Element `3i + c` of a run of cells. -/
theorem flatMap_toList_getElem? (cells : List Rgb) (i : Nat) :
    (cells.flatMap Rgb.toList)[3 * i]? = cells[i]?.map Rgb.r ∧
    (cells.flatMap Rgb.toList)[3 * i + 1]? = cells[i]?.map Rgb.g ∧
    (cells.flatMap Rgb.toList)[3 * i + 2]? = cells[i]?.map Rgb.b := by
  induction cells generalizing i with
  | nil => simp
  | cons y ys ih =>
    cases i with
    | zero => simp [Rgb.toList]
    | succ i =>
      obtain ⟨h0, h1, h2⟩ := ih i
      refine ⟨?_, ?_, ?_⟩
      · simpa [Rgb.toList, Nat.mul_add] using h0
      · simpa [Rgb.toList, Nat.mul_add, Nat.add_right_comm] using h1
      · simpa [Rgb.toList, Nat.mul_add, Nat.add_right_comm] using h2

/-- A committed cell reads as it was staged. -/
theorem State.commit_coefCell (s : State) (x : Staged) {i : Nat} (h : i < x.coef.2.length) :
    (s.commit x).coefCell (x.coef.1 + i) = x.coef.2[i] := by
  obtain ⟨h0, h1, h2⟩ := flatMap_toList_getElem? x.coef.2 i
  have hget : x.coef.2[i]? = some x.coef.2[i] := List.getElem?_eq_getElem h
  unfold State.coefCell
  simp only [State.commit_coefElem]
  have e0 : 3 * (x.coef.1 + i) - 3 * x.coef.1 = 3 * i := by omega
  have e1 : 3 * (x.coef.1 + i) + 1 - 3 * x.coef.1 = 3 * i + 1 := by omega
  have e2 : 3 * (x.coef.1 + i) + 2 - 3 * x.coef.1 = 3 * i + 2 := by omega
  rw [if_pos (by omega), if_pos (by omega), if_pos (by omega), e0, e1, e2, h0, h1, h2, hget]
  rfl

/-- Elements outside the run are as they were. -/
theorem State.commit_coefElem_outside (s : State) (x : Staged) {e : Nat}
    (h : e < 3 * x.coef.1 ∨ 3 * x.coef.1 + 3 * x.coef.2.length ≤ e) :
    (s.commit x).coefElem e = s.coefElem e := by
  rw [State.commit_coefElem, if_neg (by omega)]

@[simp] theorem State.finish_coefElem (s : State) (e : Nat) : s.finish.coefElem e = s.coefElem e := rfl
@[simp] theorem State.finish_coefCell (s : State) (k : Nat) : s.finish.coefCell k = s.coefCell k := rfl
@[simp] theorem State.finish_byteAt (s : State) (a : Nat) : s.finish.byteAt a = s.byteAt a := rfl

/-- A committed byte: from the PIX run, else from the HASH run, else as it was. -/
theorem State.commit_byteAt (s : State) (x : Staged) (a : Nat) :
    (s.commit x).byteAt a
      = if pixBase ≤ a ∧ a < pixBase + x.pix.length then
          (x.pix[a - pixBase]?).getD (Config.freeByte s.epoch a)
        else if hashBase + x.hash.1 ≤ a ∧ a < hashBase + x.hash.1 + x.hash.2.length then
          (x.hash.2[a - (hashBase + x.hash.1)]?).getD (Config.freeByte s.epoch a)
        else s.byteAt a := by
  unfold State.byteAt
  simp only [State.commit_mem, State.commit_epoch, Store.read_writeRun]
  split_ifs <;> rfl

end Sys2Proof.Machine
end

