-- ==== Sys2Proof/Laws/Base83.lean ====
section
/-! SUPPORT. The base-83 codec: the reverse table, decoding a field, and the round trip. -/

namespace Sys2Proof.Machine

theorem alphabet_length : alphabet.length = 83 := rfl

/-- One row of the reverse table: a symbol's index is below 83 and leads back to it. -/
def rlutSound (b : Byte) : Bool :=
  match rlut b with
  | some i => decide (i < 83) && decide (alpha i = b)
  | none => true

/-- The reverse table, checked over all bytes (42_base83.md R121). -/
theorem rlut_table : ∀ n : Fin 256, rlutSound (BitVec.ofNat 8 n.val) = true := by decide +kernel

theorem rlut_some {b : Byte} {i : Nat} (h : rlut b = some i) : i < 83 ∧ alpha i = b := by
  have hb := rlut_table ⟨b.toNat, b.isLt⟩
  simp only [BitVec.ofNat_toNat, BitVec.setWidth_eq] at hb
  unfold rlutSound at hb
  rw [h] at hb
  simpa using hb

theorem rlut_alpha_table : ∀ i : Fin 83, rlut (alpha i.val) = some i.val := by decide +kernel

theorem rlut_alpha {i : Nat} (h : i < 83) : rlut (alpha i) = some i := rlut_alpha_table ⟨i, h⟩

/-- Decoding a run of symbols. -/
theorem b83decFrom_spells (bs : List Byte) (p acc : Nat) (ds : List Nat)
    (h : bs.map rlut = ds.map some) :
    b83decFrom bs p acc = .ok (ds.foldl (fun acc d => acc * 83 + d) acc) := by
  induction bs generalizing p acc ds with
  | nil =>
    cases ds with
    | nil => rfl
    | cons d ds => simp at h
  | cons b bs ih =>
    cases ds with
    | nil => simp at h
    | cons d ds =>
      simp only [List.map_cons, List.cons.injEq] at h
      simp only [b83decFrom, h.1, List.foldl_cons]
      exact ih (p + 1) (acc * 83 + d) ds h.2

/-- What a success of `b83dec` says of its bytes. -/
theorem b83decFrom_ok {bs : List Byte} {p acc v : Nat} (h : b83decFrom bs p acc = .ok v) :
    ∃ ds : List Nat, bs.map rlut = ds.map some ∧ v = ds.foldl (fun acc d => acc * 83 + d) acc := by
  induction bs generalizing p acc with
  | nil => exact ⟨[], rfl, by cases h; rfl⟩
  | cons b bs ih =>
    simp only [b83decFrom] at h
    split at h
    · cases h
    · next d hd =>
      obtain ⟨ds, h1, h2⟩ := ih h
      exact ⟨d :: ds, by simp [hd, h1], h2⟩

/-- `b83dec` fails at the first byte that is no symbol (42_base83.md R123). -/
theorem b83decFrom_invalid (bs : List Byte) (p acc j : Nat) (b : Byte) (hj : bs[j]? = some b)
    (hb : rlut b = none) (hlt : ∀ i, i < j → ∃ c d, bs[i]? = some c ∧ rlut c = some d) :
    b83decFrom bs p acc = .error ⟨.invalidCharacter, 0, b.toNat, p + j⟩ := by
  induction bs generalizing p acc j with
  | nil => simp at hj
  | cons c bs ih =>
    cases j with
    | zero =>
      simp only [List.getElem?_cons_zero, Option.some.injEq] at hj
      subst hj
      simp [b83decFrom, hb]
    | succ j =>
      obtain ⟨c', d, hc, hd⟩ := hlt 0 (by omega)
      simp only [List.getElem?_cons_zero, Option.some.injEq] at hc
      subst hc
      simp only [b83decFrom, hd]
      rw [ih (p + 1) _ j (by simpa using hj) fun i hi => by simpa using hlt (i + 1) (by omega)]
      simp only [Nat.add_right_comm, Nat.add_assoc]

/-- The digits of a value below `83^n` spell it (42_base83.md R126). -/
theorem foldl_digits (v n acc : Nat) :
    (b83enc v n).foldl (fun acc d => acc * 83 + d) acc = acc * 83 ^ n + v % 83 ^ n := by
  induction n generalizing acc with
  | zero => simp [b83enc, Nat.mod_one]
  | succ n ih =>
    have hs : b83enc v (n + 1) = v / 83 ^ n % 83 :: b83enc v n := by
      unfold b83enc
      rw [List.range_succ_eq_map, List.map_cons, List.map_map]
      congr 1
      refine List.map_congr_left fun i _ => ?_
      show v / 83 ^ (n + 1 - 1 - (i + 1)) % 83 = v / 83 ^ (n - 1 - i) % 83
      rw [show n + 1 - 1 - (i + 1) = n - 1 - i by omega]
    rw [hs, List.foldl_cons, ih, Nat.pow_succ, Nat.mod_mul, Nat.add_mul, Nat.mul_comm (83 ^ n) 83]
    ring

theorem b83enc_lt {v n d : Nat} (h : d ∈ b83enc v n) : d < 83 := by
  unfold b83enc at h
  obtain ⟨i, _, rfl⟩ := List.mem_map.1 h
  exact Nat.mod_lt _ (by omega)

@[simp] theorem b83enc_length (v n : Nat) : (b83enc v n).length = n := by simp [b83enc]

theorem b83enc_getElem (v n i : Nat) (h : i < (b83enc v n).length) :
    (b83enc v n)[i] = v / 83 ^ (n - 1 - i) % 83 := by simp [b83enc]

theorem map_rlut_map_alpha (ds : List Nat) (h : ∀ d ∈ ds, d < 83) :
    (ds.map alpha).map rlut = ds.map some := by
  rw [List.map_map]
  exact List.map_congr_left fun d hd => rlut_alpha (h d hd)

theorem map_alpha_of_map_rlut {bs : List Byte} {ds : List Nat} (h : bs.map rlut = ds.map some) :
    ds.map alpha = bs ∧ ∀ d ∈ ds, d < 83 := by
  induction bs generalizing ds with
  | nil =>
    cases ds with
    | nil => exact ⟨rfl, by simp⟩
    | cons d ds => simp at h
  | cons b bs ih =>
    cases ds with
    | nil => simp at h
    | cons d ds =>
      simp only [List.map_cons, List.cons.injEq] at h
      obtain ⟨h1, h2⟩ := ih h.2
      obtain ⟨hd, hb⟩ := rlut_some h.1
      refine ⟨by simp [hb, h1], fun e he => ?_⟩
      simp only [List.mem_cons] at he
      rcases he with rfl | he
      · exact hd
      · exact h2 e he

/-- A number of `n` digits is below `83^n` (42_base83.md R126). -/
theorem foldl_lt (ds : List Nat) (h : ∀ d ∈ ds, d < 83) :
    ds.foldl (fun acc d => acc * 83 + d) 0 < 83 ^ ds.length := by
  have key : ∀ (ds : List Nat) (acc m : Nat), (∀ d ∈ ds, d < 83) → acc < m →
      ds.foldl (fun acc d => acc * 83 + d) acc < m * 83 ^ ds.length := by
    intro ds
    induction ds with
    | nil => intro acc m _ hm; simpa using hm
    | cons d ds ih =>
      intro acc m hd hm
      have hd0 := hd d (by simp)
      have := ih (acc * 83 + d) (m * 83) (fun e he => hd e (by simp [he])) (by omega)
      simpa [Nat.pow_succ, Nat.mul_assoc, Nat.mul_comm, Nat.mul_left_comm] using this
  simpa using key ds 0 1 h (by omega)

/-- What a success of `b83dec` on `n` bytes says of its value. -/
theorem State.b83dec_lt {s : State} {p n v : Nat} (h : s.b83dec p n = .ok v) : v < 83 ^ n := by
  obtain ⟨ds, h1, rfl⟩ := b83decFrom_ok h
  have hlen : ds.length = n := by
    have := congrArg List.length h1
    simpa [State.hashField] using this.symm
  have := foldl_lt ds (map_alpha_of_map_rlut h1).2
  rwa [hlen] at this

end Sys2Proof.Machine
end

