-- ==== Sys2Proof/Laws/Transform.lean ====
section
/-! SUPPORT. The transform unit: its loops as folds, the length and the elements of an image. -/

namespace Sys2Proof.Machine

/-- A loop is a fold over the range, in increasing order (00_scope.md R9). -/
theorem forRange_eq_foldl {α : Type} (n : Nat) (f : Nat → α → α) (a : α) :
    forRange n f a = (List.range n).foldl (fun acc i => f i acc) a := by
  induction n with
  | zero => rfl
  | succ n ih => rw [forRange, ih, List.range_succ, List.foldl_append]; rfl

/-- A loop over rows of a loop over columns is one loop in buffer order (44_transform.md R171). -/
theorem forRange_nested {α : Type} (w h : Nat) (hw : 0 < w) (f : Nat → Nat → α → α) (a : α) :
    forRange h (fun y acc => forRange w (fun x acc => f x y acc) acc) a
      = (List.range (w * h)).foldl (fun acc i => f (i % w) (i / w) acc) a := by
  induction h with
  | zero => simp [forRange]
  | succ h ih =>
    rw [forRange, ih, Nat.mul_succ, List.range_add, List.foldl_append, forRange_eq_foldl,
      List.foldl_map]
    refine List.foldl_ext _ _ _ fun acc x hx => ?_
    have hx' : x < w := List.mem_range.1 hx
    rw [Nat.mul_add_mod, Nat.mod_eq_of_lt hx', Nat.mul_add_div hw, Nat.div_eq_of_lt hx', Nat.add_zero]

/-- A fold over three channels is three folds. -/
theorem foldl_rgb (l : List Nat) (f g h : F64 → Nat → F64) (a : Rgb) :
    l.foldl (fun acc i => Rgb.mk (f acc.r i) (g acc.g i) (h acc.b i)) a
      = Rgb.mk (l.foldl f a.r) (l.foldl g a.g) (l.foldl h a.b) := by
  induction l generalizing a with
  | nil => rfl
  | cons i l ih => rw [List.foldl_cons, ih]; rfl

/-- The sums of an inverse pixel, channel by channel (44_transform.md R175). -/
theorem isum_eq (fn : Libm) (xc w h px py : Nat) (grid : List Rgb) (k : Nat) (a : Rgb) :
    isum fn xc w h px py k grid a
      = (List.range grid.length).foldl (fun acc i =>
          let t := Fp.mul (cosTerm fn px ((k + i) % xc) w) (cosTerm fn py ((k + i) / xc) h)
          Rgb.mk (Fp.add acc.r (Fp.mul (grid.getD i Rgb.zero).r t))
            (Fp.add acc.g (Fp.mul (grid.getD i Rgb.zero).g t))
            (Fp.add acc.b (Fp.mul (grid.getD i Rgb.zero).b t))) a := by
  induction grid generalizing k a with
  | nil => rfl
  | cons x grid ih =>
    rw [isum, ih, List.length_cons, List.range_succ_eq_map, List.foldl_cons, List.foldl_map]
    simp only [Nat.add_zero, List.getD_cons_zero, List.getD_cons_succ, Nat.succ_eq_add_one]
    refine List.foldl_ext _ _ _ fun acc i _ => ?_
    rw [show k + 1 + i = k + (i + 1) by omega]

@[simp] theorem ipixel_length (fn : Libm) (mode : GammaRounding) (grid : List Rgb)
    (xc w h px py : Nat) : (ipixel fn mode grid xc w h px py).length = 3 := rfl

/-- A list of runs of three, by position. -/
theorem flatMap_three_length {α : Type} (n : Nat) (f : Nat → List α) (hf : ∀ i, (f i).length = 3) :
    ((List.range n).flatMap f).length = 3 * n := by
  induction n with
  | zero => rfl
  | succ n ih =>
    rw [List.range_succ, List.flatMap_append, List.length_append, ih, List.flatMap_singleton, hf]
    omega

theorem flatMap_three_getElem? {α : Type} (n i c : Nat) (f : Nat → List α)
    (hf : ∀ i, (f i).length = 3) (hi : i < n) (hc : c < 3) :
    ((List.range n).flatMap f)[3 * i + c]? = (f i)[c]? := by
  induction n with
  | zero => omega
  | succ n ih =>
    rw [List.range_succ, List.flatMap_append, List.flatMap_singleton]
    have hlen := flatMap_three_length n f hf
    by_cases h : i < n
    · rw [List.getElem?_append_left (by omega)]
      exact ih h
    · have : i = n := by omega
      subst this
      rw [List.getElem?_append_right (by omega), hlen]
      congr 1
      omega

@[simp] theorem inverseImage_length (fn : Libm) (mode : GammaRounding) (grid : List Rgb)
    (xc w h : Nat) : (inverseImage fn mode grid xc w h).length = 3 * w * h := by
  rw [inverseImage, flatMap_three_length _ _ fun _ => ipixel_length ..]
  ring

/-- Byte `c` of pixel `(px, py)` of an image (10_state.md R49, 44_transform.md R177). -/
theorem inverseImage_getElem? (fn : Libm) (mode : GammaRounding) (grid : List Rgb)
    (xc w h px py c : Nat) (hx : px < w) (hy : py < h) (hc : c < 3) :
    (inverseImage fn mode grid xc w h)[3 * (py * w + px) + c]?
      = (ipixel fn mode grid xc w h px py)[c]? := by
  have hlt : py * w + px < w * h := by
    calc py * w + px < py * w + w := by omega
      _ = (py + 1) * w := by ring
      _ ≤ h * w := Nat.mul_le_mul_right w hy
      _ = w * h := Nat.mul_comm h w
  have hmod : (py * w + px) % w = px := by
    rw [Nat.mul_comm, Nat.mul_add_mod, Nat.mod_eq_of_lt hx]
  have hdiv : (py * w + px) / w = py := by
    rw [Nat.mul_comm, Nat.mul_add_div (by omega), Nat.div_eq_of_lt hx, Nat.add_zero]
  rw [inverseImage, flatMap_three_getElem? _ _ _ _ (fun _ => ipixel_length ..) hlt hc, hmod, hdiv]

/-- An image committed to PIX, pixel by pixel, where HASH is not written. -/
theorem State.commit_pixel (s : State) (x : Staged) (fn : Libm) (mode : GammaRounding)
    (grid : List Rgb) (xc w h px py : Nat) (hp : x.pix = inverseImage fn mode grid xc w h)
    (hx : px < w) (hy : py < h) :
    (List.range 3).map (fun c => (s.commit x).pixByte (3 * (py * w + px) + c))
      = ipixel fn mode grid xc w h px py := by
  have hlen : x.pix.length = 3 * w * h := by rw [hp, inverseImage_length]
  have hlt : py * w + px < w * h := by
    calc py * w + px < py * w + w := by omega
      _ = (py + 1) * w := by ring
      _ ≤ h * w := Nat.mul_le_mul_right w hy
      _ = w * h := Nat.mul_comm h w
  have hb : 3 * w * h = 3 * (w * h) := by ring
  refine List.ext_getElem (by simp) fun c hc _ => ?_
  have hc3 : c < 3 := by simpa using hc
  simp only [List.getElem_map, List.getElem_range]
  unfold State.pixByte
  rw [State.commit_byteAt, if_pos (by omega), Nat.add_sub_cancel_left, hp,
    inverseImage_getElem? fn mode grid xc w h px py c hx hy hc3]
  rw [List.getElem?_eq_getElem (by simpa using hc3)]
  rfl

@[simp] theorem forwardGrid_length (fn : Libm) (s : State) :
    (forwardGrid fn s).length = s.xc * s.yc := by simp [forwardGrid]

/-- The AC cells of the forward grid. -/
theorem forwardGrid_tail (fn : Libm) (s : State) :
    (forwardGrid fn s).tail
      = (List.range (s.xc * s.yc - 1)).map fun i =>
          fcell fn s.pixByte s.w s.h ((i + 1) % s.xc) ((i + 1) / s.xc) := by
  unfold forwardGrid
  cases s.xc * s.yc with
  | zero => rfl
  | succ n =>
    rw [List.range_succ_eq_map, List.map_cons, List.tail_cons, List.map_map]
    rfl

end Sys2Proof.Machine
end

