-- ==== Sys2Proof/Laws/Codec.lean ====
section
/-! SUPPORT. The codec sequencer: the header and the fields of a decode, the parts of a built hash. -/

namespace Sys2Proof.Machine

@[simp] theorem hashField_length (s : State) (p n : Nat) : (s.hashField p n).length = n := by
  simp [State.hashField]

theorem hashField_getElem? (s : State) (p n i : Nat) (h : i < n) :
    (s.hashField p n)[i]? = some (s.hashByte (p + i)) := by
  simp [State.hashField, h]

/-- Decoding a field whose bytes are the symbols of `ds` (42_base83.md R123). -/
theorem State.b83dec_of_spells (s : State) (p : Nat) (ds : List Nat)
    (h : ∀ i (hi : i < ds.length), rlut (s.hashByte (p + i)) = some ds[i]) :
    s.b83dec p ds.length = .ok (ds.foldl (fun acc d => acc * 83 + d) 0) := by
  refine b83decFrom_spells _ p 0 ds (List.ext_getElem (by simp) fun i h1 h2 => ?_)
  simp only [List.getElem_map]
  have hi : i < ds.length := by simpa using h2
  rw [← h i hi]
  congr 1
  simp [State.hashField]

/-- A field of symbols decodes. -/
theorem State.b83dec_total (s : State) (p n : Nat)
    (h : ∀ i, i < n → ∃ d, rlut (s.hashByte (p + i)) = some d) : ∃ v, s.b83dec p n = .ok v := by
  obtain ⟨ds, hlen, hds⟩ : ∃ ds : List Nat, ds.length = n ∧
      ∀ i (hi : i < ds.length), rlut (s.hashByte (p + i)) = some ds[i] := by
    induction n with
    | zero => exact ⟨[], rfl, fun i hi => by simp at hi⟩
    | succ n ih =>
      obtain ⟨ds, h1, h2⟩ := ih fun i hi => h i (by omega)
      obtain ⟨d, hd⟩ := h n (by omega)
      refine ⟨ds ++ [d], by simp [h1], fun i hi => ?_⟩
      by_cases hin : i < ds.length
      · rw [List.getElem_append_left hin]; exact h2 i hin
      · have : i = n := by simp at hi; omega
        subst this
        rw [List.getElem_append_right (by omega)]
        simpa [h1] using hd
  exact ⟨_, hlen ▸ s.b83dec_of_spells p ds hds⟩

/-- A field with a byte that is no symbol fails at the first (42_base83.md R123). -/
theorem State.b83dec_invalid (s : State) (p n j : Nat) (hj : j < n)
    (hb : rlut (s.hashByte (p + j)) = none)
    (hlt : ∀ i, i < j → ∃ d, rlut (s.hashByte (p + i)) = some d) :
    s.b83dec p n = .error ⟨.invalidCharacter, 0, (s.hashByte (p + j)).toNat, p + j⟩ := by
  refine b83decFrom_invalid _ p 0 j _ (hashField_getElem? s p n j hj) hb fun i hi => ?_
  obtain ⟨d, hd⟩ := hlt i hi
  exact ⟨_, d, hashField_getElem? s p n i (by omega), hd⟩

/-- The size flag of a hash, a one-digit field (45_codec.md R200). -/
theorem State.b83dec_one (s : State) (p f : Nat) (h : rlut (s.hashByte p) = some f) :
    s.b83dec p 1 = .ok f := by
  have := s.b83dec_of_spells p [f] fun i hi => by
    have : i = 0 := by simpa using hi
    subst this
    simpa using h
  simpa using this

/-- The header checks pass exactly so (45_codec.md R200). -/
theorem decodeHeader_ok_iff {s : State} {f : Nat} :
    decodeHeader s = .ok f ↔
      s.b83dec 0 1 = .ok f ∧ (f ≤ 80 ∨ s.params.sizeFlagPolicy = .accept) ∧
        s.hashLen.toNat = hashLength (flagXc f * flagYc f) := by
  have hpos : ∀ g, 6 ≤ hashLength (flagXc g * flagYc g) := fun g => by
    have : 1 ≤ flagXc g * flagYc g := Nat.mul_pos (Nat.succ_pos _) (Nat.succ_pos _)
    unfold hashLength; omega
  unfold decodeHeader
  simp only
  split_ifs with h1
  · simp only [false_iff]
    rintro ⟨_, _, h⟩
    have := hpos f
    omega
  · rw [bind_eq_ok]
    constructor
    · rintro ⟨g, hg, h⟩
      split_ifs at h with h2 h3
      simp only [pure_eq_ok, Except.ok.injEq] at h
      subst h
      refine ⟨hg, ?_, by omega⟩
      cases hp : s.params.sizeFlagPolicy
      · left; by_contra hc; exact h2 ⟨by omega, hp⟩
      · exact .inr rfl
    · rintro ⟨hg, hp, hl⟩
      refine ⟨f, hg, ?_⟩
      rw [if_neg, if_neg]
      · rfl
      · omega
      · rintro ⟨h2, h3⟩
        rcases hp with hp | hp
        · omega
        · rw [h3] at hp; cases hp

theorem decodeHeader_flag_lt {s : State} {f : Nat} (h : decodeHeader s = .ok f) : f < 83 := by
  simpa using s.b83dec_lt (decodeHeader_ok_iff.1 h).1

/-- A decoded grid has at most 81 cells (45_codec.md R192). -/
theorem cells_le_of_flag {f : Nat} (h : f < 83) :
    flagXc f * flagYc f ≤ 81 ∧ 1 ≤ flagXc f * flagYc f ∧ flagXc f ≤ 9 ∧ flagYc f ≤ 10 := by
  have hpos : 1 ≤ flagXc f * flagYc f := Nat.mul_pos (Nat.succ_pos _) (Nat.succ_pos _)
  have hx : flagXc f ≤ 9 := by unfold flagXc; omega
  have hy : flagYc f ≤ 10 := by unfold flagYc; omega
  refine ⟨?_, hpos, hx, hy⟩
  by_cases h81 : f < 81
  · have : flagYc f ≤ 9 := by unfold flagYc; omega
    calc flagXc f * flagYc f ≤ 9 * 9 := Nat.mul_le_mul hx this
      _ = 81 := rfl
  · have : f = 81 ∨ f = 82 := by omega
    rcases this with rfl | rfl <;> decide

/-- The AC terms a decode has parsed (45_codec.md R201). -/
theorem decodeAcs_length {fn : Libm} {s : State} {mv : F64} {count k : Nat} {cells : List Rgb}
    (h : decodeAcs fn s mv count k = .ok cells) : cells.length = count := by
  induction count generalizing k cells with
  | zero => cases h; rfl
  | succ count ih =>
    simp only [decodeAcs, bind_eq_ok, pure_eq_ok, Except.ok.injEq] at h
    obtain ⟨_, _, _, _, rest, hr, rfl⟩ := h
    simp [ih hr]

/-- The AC terms, cell by cell, where every field decodes and unpacks. -/
theorem decodeAcs_ok (fn : Libm) (s : State) (mv : F64) (count k : Nat) (vs : Nat → Nat)
    (qs : Nat → Nat × Nat × Nat)
    (h : ∀ j, k ≤ j → j < k + count → s.b83dec (4 + 2 * j) 2 = .ok (vs j) ∧
      acUnpack s.params.overrangePolicy (vs j) (4 + 2 * j) = .ok (qs j)) :
    decodeAcs fn s mv count k
      = .ok ((List.range count).map fun i => acDequantRgb fn (qs (k + i)) mv s.punch) := by
  induction count generalizing k with
  | zero => rfl
  | succ count ih =>
    obtain ⟨h1, h2⟩ := h k (by omega) (by omega)
    rw [decodeAcs, h1, bind_ok, h2, bind_ok, ih (k + 1) fun j _ _ => h j (by omega) (by omega),
      bind_ok, pure_eq_ok, List.range_succ_eq_map, List.map_cons, List.map_map]
    congr 3
    funext i
    simp only [Function.comp_apply, Nat.succ_eq_add_one]
    rw [show k + (i + 1) = k + 1 + i by omega]

/-- The AC terms up to the first whose field fails. -/
theorem decodeAcs_error (fn : Libm) (s : State) (mv : F64) (count k j : Nat) (r : Raise)
    (hj : k ≤ j) (hjc : j < k + count)
    (hbefore : ∀ i, k ≤ i → i < j → ∃ v q, s.b83dec (4 + 2 * i) 2 = .ok v ∧
      acUnpack s.params.overrangePolicy v (4 + 2 * i) = .ok q)
    (hfail : s.b83dec (4 + 2 * j) 2 = .error r ∨ ∃ v, s.b83dec (4 + 2 * j) 2 = .ok v ∧
      acUnpack s.params.overrangePolicy v (4 + 2 * j) = .error r) :
    decodeAcs fn s mv count k = .error r := by
  induction count generalizing k with
  | zero => omega
  | succ count ih =>
    rw [decodeAcs]
    by_cases hk : k = j
    · subst hk
      rcases hfail with h | ⟨v, h, h'⟩
      · rw [h, bind_error]
      · rw [h, bind_ok, h', bind_error]
    · obtain ⟨v, q, h1, h2⟩ := hbefore k (by omega) (by omega)
      rw [h1, bind_ok, h2, bind_ok,
        ih (k + 1) (by omega) (by omega) fun i _ hi' => hbefore i (by omega) hi']
      rfl

/-- What a successful parse of the fields gives. -/
theorem decodeFields_ok {fn : Libm} {s : State} {n : Nat} {x : Nat × List Rgb}
    (h : decodeFields fn s n = .ok x) : x.1 ≤ 82 ∧ x.2.length = n - 1 + 1 := by
  simp only [decodeFields, bind_eq_ok, pure_eq_ok, Except.ok.injEq] at h
  obtain ⟨q, hq, _, _, _, _, acs, hacs, rfl⟩ := h
  have := s.b83dec_lt hq
  have hl := decodeAcs_length hacs
  refine ⟨?_, ?_⟩
  · show q ≤ 82
    omega
  · show acs.length + 1 = n - 1 + 1
    omega

theorem decodeScale_legal {n q : Nat} (h : q ≤ 82) : legalMaxval (decodeScale n q) := by
  unfold decodeScale
  split_ifs
  · exact legalMaxval_one
  · exact legalMaxval_scaleOf h

/-- The length of a built hash (45_codec.md R190). -/
theorem buildHash_length (fn : Libm) (mode : GammaRounding) (grid : List Rgb) (xc yc : Nat) :
    (buildHash fn mode grid xc yc).length = 6 + 2 * grid.tail.length := by
  have : ∀ l : List Rgb, (l.flatMap fun x => b83enc (acPack fn x (acScale grid.tail).2) 2).length
      = 2 * l.length := by
    intro l
    induction l with
    | nil => rfl
    | cons y l ih => rw [List.flatMap_cons, List.length_append, ih, b83enc_length, List.length_cons]; omega
  simp only [buildHash, List.length_append, b83enc_length, this]

/-- Every symbol of a built hash is a digit (45_codec.md R198). -/
theorem buildHash_lt {fn : Libm} {mode : GammaRounding} {grid : List Rgb} {xc yc d : Nat}
    (h : d ∈ buildHash fn mode grid xc yc) : d < 83 := by
  simp only [buildHash, List.mem_append, List.mem_flatMap] at h
  rcases h with ((h | h) | h) | ⟨x, _, h⟩ <;> exact b83enc_lt h

/-- The fields of a built hash by position (45_codec.md R193, R195). -/
theorem buildHash_field (fn : Libm) (mode : GammaRounding) (grid : List Rgb) (xc yc : Nat) :
    let hash := buildHash fn mode grid xc yc
    hash[0]? = some (sizeFlag xc yc % 83) ∧ hash[1]? = some ((acScale grid.tail).1 % 83) ∧
    (∀ i, i < 4 → hash[2 + i]? = some
      (dcQuant fn mode (grid.headD Rgb.zero) / 83 ^ (4 - 1 - i) % 83)) ∧
    (∀ (k i : Nat) (x : Rgb), grid.tail[k]? = some x → i < 2 → hash[6 + 2 * k + i]? = some
      (acPack fn x (acScale grid.tail).2 / 83 ^ (2 - 1 - i) % 83)) := by
  refine ⟨by simp [buildHash, b83enc], by simp [buildHash, b83enc], ?_, ?_⟩
  · intro i hi
    have : i = 0 ∨ i = 1 ∨ i = 2 ∨ i = 3 := by omega
    rcases this with rfl | rfl | rfl | rfl <;> simp [buildHash, b83enc, List.range_succ]
  · intro k i x hk hi
    have key : ∀ (l : List Rgb) (k : Nat), l[k]? = some x →
        (l.flatMap fun x => b83enc (acPack fn x (acScale grid.tail).2) 2)[2 * k + i]?
          = some (acPack fn x (acScale grid.tail).2 / 83 ^ (2 - 1 - i) % 83) := by
      intro l
      induction l with
      | nil => intro k hk; simp at hk
      | cons y l ih =>
        intro k hk
        rw [List.flatMap_cons]
        cases k with
        | zero =>
          simp only [List.getElem?_cons_zero, Option.some.injEq] at hk
          subst hk
          rw [List.getElem?_append_left (by simp; omega),
            List.getElem?_eq_getElem (by simp; omega), b83enc_getElem]
          simp
        | succ k =>
          rw [List.getElem?_append_right (by simp; omega), b83enc_length,
            show 2 * (k + 1) + i - 2 = 2 * k + i by omega]
          exact ih k (by simpa using hk)
    unfold buildHash
    rw [List.getElem?_append_right (by simp; omega)]
    simp only [List.length_append, b83enc_length]
    rw [show 6 + 2 * k + i - (1 + 1 + 4) = 2 * k + i by omega]
    exact key _ k hk

end Sys2Proof.Machine
end

