-- ==== Sys2Proof/Laws/HostPort.lean ====
section
/-! SUPPORT. The step, event by event, and the legal accesses of the host port in numbers. -/

namespace Sys2Proof.Machine

theorem step_nil {s : State} (h : s.agenda = []) : step s = completeRunning s := by
  unfold step; rw [h]

theorem step_cons {s : State} {e : Event} {rest : List Event} (h : s.agenda = e :: rest) :
    step s = handle e { s with agenda := rest } := by
  unfold step; rw [h]

theorem step_host {s : State} {x : Access} {rest : List Event} (h : s.agenda = .host x :: rest) :
    step s = .next ({ s with agenda := rest }.hostAccess x) := step_cons h

/-- Completing what runs: always a next state (70_reset_and_hazards.md R266). -/
theorem completeRunning_cases (s : State) :
    (s.engine = .idle ∧ completeRunning s = .next s) ∨
      (∃ w b i, s.engine = .busy w b ∧ decode w = .ok i ∧
        completeRunning s = .next (s.complete (stageOf i s))) ∨
      (∃ w b e, s.engine = .busy w b ∧ decode w = .error e ∧
        completeRunning s = .next (s.raise ⟨.illegalCommand, 0, w.toNat, 0⟩)) := by
  unfold completeRunning performWord
  cases he : s.engine with
  | idle => exact .inl ⟨rfl, rfl⟩
  | busy w b =>
    right
    cases hd : decode w with
    | ok i => exact .inl ⟨w, b, i, rfl, hd, by simp only [hd]; exact exec_eq i s⟩
    | error e => exact .inr ⟨w, b, e, rfl, hd, by simp only [hd]⟩

/-- Everything a step can do. -/
theorem step_cases (s : State) :
    (s.agenda = [] ∧ step s = completeRunning s) ∨
      (∃ x rest, s.agenda = .host x :: rest ∧
        step s = .next ({ s with agenda := rest }.hostAccess x)) ∨
      (∃ rest, s.agenda = .complete :: rest ∧ step s = completeRunning { s with agenda := rest }) ∨
      (∃ rest, s.agenda = .assertReset :: rest ∧
        step s = .next { s with agenda := rest }.assertReset) ∨
      (∃ rest, s.agenda = .releaseReset :: rest ∧
        step s = .next { s with agenda := rest }.releaseReset) := by
  cases h : s.agenda with
  | nil => exact .inl ⟨rfl, step_nil h⟩
  | cons e rest =>
    right
    cases e with
    | host x => exact .inl ⟨x, rest, rfl, step_cons h⟩
    | complete => exact .inr (.inl ⟨rest, rfl, step_cons h⟩)
    | assertReset => exact .inr (.inr (.inl ⟨rest, rfl, step_cons h⟩))
    | releaseReset => exact .inr (.inr (.inr ⟨rest, rfl, step_cons h⟩))

/-- The bytes of each row (20_memory.md R60). -/
theorem rowOf_bounds (cap a : Nat) :
    (rowOf cap a = .csr ∧ a < 0x1000) ∨ (rowOf cap a = .coef ∧ 0x1000 ≤ a ∧ a < 0x1798) ∨
      (rowOf cap a = .gapAfterCoef ∧ 0x1798 ≤ a ∧ a < 0x2000) ∨
      (rowOf cap a = .hash ∧ 0x2000 ≤ a ∧ a < 0x20A6) ∨
      (rowOf cap a = .gapAfterHash ∧ 0x20A6 ≤ a ∧ a < 0x2100) ∨
      (rowOf cap a = .alpha ∧ 0x2100 ≤ a ∧ a < 0x2153) ∨
      (rowOf cap a = .gapAfterAlpha ∧ 0x2153 ≤ a ∧ a < 0x10000) ∨
      (rowOf cap a = .pix ∧ 0x10000 ≤ a ∧ a < 0x10000 + cap) ∨
      (rowOf cap a = .gapAfterPix ∧ 0x10000 + cap ≤ a) := by
  unfold rowOf
  split_ifs <;> simp <;> omega

/-- Rows in numbers. -/
theorem rowOf_csr {cap a : Nat} (h : a < 0x1000) : rowOf cap a = .csr := by
  rcases rowOf_bounds cap a with b | b | b | b | b | b | b | b | b <;> first | exact b.1 | omega

theorem rowOf_coef {cap a : Nat} (h : 0x1000 ≤ a) (h' : a < 0x1798) : rowOf cap a = .coef := by
  rcases rowOf_bounds cap a with b | b | b | b | b | b | b | b | b <;> first | exact b.1 | omega

theorem rowOf_hash {cap a : Nat} (h : 0x2000 ≤ a) (h' : a < 0x20A6) : rowOf cap a = .hash := by
  rcases rowOf_bounds cap a with b | b | b | b | b | b | b | b | b <;> first | exact b.1 | omega

theorem rowOf_alpha {cap a : Nat} (h : 0x2100 ≤ a) (h' : a < 0x2153) : rowOf cap a = .alpha := by
  rcases rowOf_bounds cap a with b | b | b | b | b | b | b | b | b <;> first | exact b.1 | omega

theorem rowOf_pix {cap a : Nat} (h : 0x10000 ≤ a) (h' : a < 0x10000 + cap) : rowOf cap a = .pix := by
  rcases rowOf_bounds cap a with b | b | b | b | b | b | b | b | b <;> first | exact b.1 | omega

theorem rowOf_gapAfterCoef {cap a : Nat} (h : 0x1798 ≤ a) (h' : a < 0x2000) : rowOf cap a = .gapAfterCoef := by
  rcases rowOf_bounds cap a with b | b | b | b | b | b | b | b | b <;> first | exact b.1 | omega

theorem rowOf_gapAfterHash {cap a : Nat} (h : 0x20A6 ≤ a) (h' : a < 0x2100) : rowOf cap a = .gapAfterHash := by
  rcases rowOf_bounds cap a with b | b | b | b | b | b | b | b | b <;> first | exact b.1 | omega

theorem rowOf_gapAfterAlpha {cap a : Nat} (h : 0x2153 ≤ a) (h' : a < 0x10000) : rowOf cap a = .gapAfterAlpha := by
  rcases rowOf_bounds cap a with b | b | b | b | b | b | b | b | b <;> first | exact b.1 | omega

theorem rowOf_gapAfterPix {cap a : Nat} (h : 0x10000 + cap ≤ a) : rowOf cap a = .gapAfterPix := by
  rcases rowOf_bounds cap a with b | b | b | b | b | b | b | b | b <;> first | exact b.1 | omega

/-- A row the block answers itself: reserved rows, where reads give 0 and writes nothing. -/
theorem rowOf_reserved {cap a : Nat}
    (h : (0x1798 ≤ a ∧ a < 0x2000) ∨ (0x20A6 ≤ a ∧ a < 0x2100) ∨ (0x2153 ≤ a ∧ a < 0x10000) ∨
      0x10000 + cap ≤ a) :
    rowOf cap a = .gapAfterCoef ∨ rowOf cap a = .gapAfterHash ∨ rowOf cap a = .gapAfterAlpha ∨
      rowOf cap a = .gapAfterPix := by
  rcases h with h | h | h | h
  · exact .inl (rowOf_gapAfterCoef h.1 h.2)
  · exact .inr (.inl (rowOf_gapAfterHash h.1 h.2))
  · exact .inr (.inr (.inl (rowOf_gapAfterAlpha h.1 h.2)))
  · exact .inr (.inr (.inr (rowOf_gapAfterPix h)))

/-- The legal accesses in numbers (20_memory.md R60, R63): an 8-bit access above the 64-bit windows; a
64-bit access that is aligned and touches no byte of HASH, ALPHA or PIX. -/
theorem legalAccess_w8_iff (cap a : Nat) : legalAccess cap .w8 a = true ↔ 0x1798 ≤ a := by
  simp only [legalAccess, Width.bytes, Nat.mod_one, decide_true, Bool.true_and, List.range_one,
    List.all_cons, List.all_nil, Nat.add_zero, Bool.and_true]
  rcases rowOf_bounds cap a with h | h | h | h | h | h | h | h | h <;>
    (rw [h.1]; simp [Row.takes]; omega)

theorem takes_w64_iff (cap a : Nat) :
    (rowOf cap a).takes .w64 = true ↔
      ¬(0x2000 ≤ a ∧ a ≤ 0x20A5) ∧ ¬(0x2100 ≤ a ∧ a ≤ 0x2152) ∧
        ¬(0x10000 ≤ a ∧ a < 0x10000 + cap) := by
  rcases rowOf_bounds cap a with h | h | h | h | h | h | h | h | h <;>
    (rw [h.1]; simp [Row.takes]; omega)

theorem rowOf_eq_of_touches_none {cap a : Nat} (h8 : a % 8 = 0)
    (h1 : ¬(0x2000 ≤ a + 7 ∧ a ≤ 0x20A5)) (h2 : ¬(0x2100 ≤ a + 7 ∧ a ≤ 0x2152))
    (h3 : ¬(0x10000 ≤ a + 7 ∧ a < 0x10000 + cap)) {i : Nat} (hi : i < 8) :
    rowOf cap (a + i) = rowOf cap a := by
  rcases rowOf_bounds cap a with h | h | h | h | h | h | h | h | h
  · rw [h.1, rowOf_csr (by omega)]
  · rw [h.1, rowOf_coef (by omega) (by omega)]
  · rw [h.1, rowOf_gapAfterCoef (by omega) (by omega)]
  · omega
  · rw [h.1, rowOf_gapAfterHash (by omega) (by omega)]
  · omega
  · rw [h.1, rowOf_gapAfterAlpha (by omega) (by omega)]
  · omega
  · rw [h.1, rowOf_gapAfterPix (by omega)]

theorem legalAccess_w64_iff (cap a : Nat) :
    legalAccess cap .w64 a = true ↔
      a % 8 = 0 ∧ ¬(0x2000 ≤ a + 7 ∧ a ≤ 0x20A5) ∧ ¬(0x2100 ≤ a + 7 ∧ a ≤ 0x2152) ∧
        ¬(0x10000 ≤ a + 7 ∧ a < 0x10000 + cap) := by
  have hsplit : legalAccess cap .w64 a = true ↔
      a % 8 = 0 ∧ (∀ i, i < 8 → rowOf cap (a + i) = rowOf cap a) ∧ (rowOf cap a).takes .w64 = true := by
    unfold legalAccess
    rw [Bool.and_eq_true, Bool.and_eq_true, List.all_eq_true, and_assoc]
    refine and_congr ⟨of_decide_eq_true, fun h => decide_eq_true h⟩ (and_congr_left fun _ => ?_)
    simp [Width.bytes]
  rw [hsplit]
  constructor
  · rintro ⟨h8, hrow, ht⟩
    have hi : ∀ i, i < 8 → ¬(0x2000 ≤ a + i ∧ a + i ≤ 0x20A5) ∧ ¬(0x2100 ≤ a + i ∧ a + i ≤ 0x2152) ∧
        ¬(0x10000 ≤ a + i ∧ a + i < 0x10000 + cap) := fun i hi =>
      (takes_w64_iff cap (a + i)).1 (by rw [hrow i hi]; exact ht)
    have h7 := hi 7 (by omega)
    have h0 := hi 0 (by omega)
    refine ⟨h8, by omega, by omega, by omega⟩
  · rintro ⟨h8, h1, h2, h3⟩
    exact ⟨h8, fun i hi => rowOf_eq_of_touches_none h8 h1 h2 h3 hi,
      (takes_w64_iff cap a).2 ⟨by omega, by omega, by omega⟩⟩

/-- A legal access, reset released (20_memory.md R63). -/
theorem State.hostAccess_legal {s : State} {x : Access} (hr : s.resetHeld = false)
    (hl : legalAccess s.params.pixCap x.width x.addr = true) :
    s.hostAccess x = { s.accessEffect x with port := s.accessData x } := by
  simp [State.hostAccess, hr, hl]

/-- An illegal access (20_memory.md R67). -/
theorem State.hostAccess_illegal {s : State} {x : Access} (hr : s.resetHeld = false)
    (hl : ¬ legalAccess s.params.pixCap x.width x.addr = true) :
    s.hostAccess x = { s with port := .busError } := by
  simp [State.hostAccess, hr, hl]

/-- An access while reset is asserted (70_reset_and_hazards.md R250). -/
theorem State.hostAccess_held {s : State} {x : Access} (hr : s.resetHeld = true) :
    s.hostAccess x = { s with port := .unanswered } := by
  simp [State.hostAccess, hr]

theorem State.busy_eq_true_iff {s : State} : s.busy = true ↔ ∃ w b, s.engine = .busy w b := by
  unfold State.busy
  cases s.engine <;> simp

theorem State.busy_eq_false_iff {s : State} : s.busy = false ↔ s.engine = .idle := by
  unfold State.busy
  cases s.engine <;> simp

/-- Everything a host access can do to the block, the response apart. -/
theorem State.accessEffect_cases (s : State) (x : Access) :
    s.accessEffect x = s ∨
      (∃ v, s.accessEffect x = s.writeCtrl v) ∨ (∃ v, s.accessEffect x = s.writeStatus v) ∨
      (∃ v, s.accessEffect x = s.writeCmd v) ∨
      (s.busy = false ∧ ∃ n v, s.accessEffect x = s.writeDataCsr n v) ∨
      (s.busy = false ∧ ∃ a v, rowOf s.params.pixCap a = .coef ∧ a < 2 ^ 32 ∧
        s.accessEffect x = { s with coef := Store.write s.coef ((a - coefBase) / 8) v }) ∨
      (s.busy = false ∧ ∃ a v, (rowOf s.params.pixCap a = .hash ∨ rowOf s.params.pixCap a = .pix) ∧
        s.accessEffect x = { s with mem := Store.write s.mem a v }) := by
  cases x with
  | read w a => exact .inl rfl
  | write8 a v =>
    simp only [State.accessEffect, State.store8, State.unlessBusy]
    cases hb : s.busy with
    | true => split <;> simp
    | false =>
      split
      · next h => exact .inr (.inr (.inr (.inr (.inr (.inr ⟨rfl, _, v, .inl h, by simp⟩)))))
      · next h => exact .inr (.inr (.inr (.inr (.inr (.inr ⟨rfl, _, v, .inr h, by simp⟩)))))
      · exact .inl rfl
  | write64 a v =>
    simp only [State.accessEffect, State.store64]
    split
    · unfold State.writeCsr
      split
      · exact .inr (.inl ⟨v, rfl⟩)
      · exact .inr (.inr (.inl ⟨v, rfl⟩))
      · exact .inr (.inr (.inr (.inl ⟨v, rfl⟩)))
      · unfold State.unlessBusy
        cases hb : s.busy with
        | true => exact .inl (by simp)
        | false => exact .inr (.inr (.inr (.inr (.inl ⟨rfl, a.toNat / 8, v, by simp⟩))))
    · next h =>
      unfold State.unlessBusy
      cases hb : s.busy with
      | true => exact .inl (by simp)
      | false => exact .inr (.inr (.inr (.inr (.inr (.inl ⟨rfl, _, v, h, a.isLt, by simp⟩)))))
    · exact .inl rfl

end Sys2Proof.Machine
end

