-- ==== Sys2Proof/Laws/PerInstr.lean ====
section
/-! SUPPORT. The per-instruction family `EncodedWord`: the fields of a command's word. -/

namespace Sys2Proof.Laws.EncodedWord

/-- The word of a well-formed command holds its OPC in bits 7:0, its digit count in bits 11:8 and 0 in bits 63:12
(30_encoding.md R80, R83). -/
def Statement (i : Instr) : Prop :=
  i.wf = true → opcField (encode i) = opcode i ∧ nField (encode i) = digitCount i ∧ rsvField (encode i) = 0

theorem b83encWords : ∀ n, n < 16 → opcField (encode (.b83enc n)) = opcode (.b83enc n) ∧
    nField (encode (.b83enc n)) = n ∧ rsvField (encode (.b83enc n)) = 0 := by decide +kernel

theorem b83decWords : ∀ n, n < 16 → opcField (encode (.b83dec n)) = opcode (.b83dec n) ∧
    nField (encode (.b83dec n)) = n ∧ rsvField (encode (.b83dec n)) = 0 := by decide +kernel

theorem nop : Statement .nop := by unfold Statement; decide

theorem tolin : Statement .tolin := by unfold Statement; decide

theorem togam : Statement .togam := by unfold Statement; decide

theorem b83enc (n : Nat) : Statement (.b83enc n) := by
  intro h
  exact b83encWords n (of_decide_eq_true h)

theorem b83dec (n : Nat) : Statement (.b83dec n) := by
  intro h
  exact b83decWords n (of_decide_eq_true h)

theorem qdc : Statement .qdc := by unfold Statement; decide

theorem qmax : Statement .qmax := by unfold Statement; decide

theorem qac : Statement .qac := by unfold Statement; decide

theorem dqdc : Statement .dqdc := by unfold Statement; decide

theorem dqmax : Statement .dqmax := by unfold Statement; decide

theorem dqac : Statement .dqac := by unfold Statement; decide

theorem fdct : Statement .fdct := by unfold Statement; decide

theorem idct : Statement .idct := by unfold Statement; decide

theorem encode : Statement .encode := by unfold Statement; decide

theorem decode : Statement .decode := by unfold Statement; decide

end Sys2Proof.Laws.EncodedWord
end

