-- ==== Sys2Proof/Tests/Slice0.lean ====
section
/-! SUPPORT. Tests of the model on values of the spec, and for each statement that has hypotheses a witness that
meets them. -/

open Sys2Proof Sys2Proof.Machine Sys2Proof.Statements

namespace Sys2Proof.Tests

-- One test after the other: each `decide +kernel` waits for the theorems before it, and would hold a thread.
set_option Elab.async false

/-! ## WellFormed: an ill-formed term for each check, which the check refuses -/

theorem test_wf_refuses_b83enc_16 : Instr.wf (.b83enc 16) = false := by decide
theorem test_wf_refuses_b83dec_16 : Instr.wf (.b83dec 16) = false := by decide
theorem test_wf_takes_every_n_of_the_field :
    (List.range 16).all (fun n => Instr.wf (.b83enc n) && Instr.wf (.b83dec n)) = true := by decide

/-! ## Decode: one word for each constructor, written out from 30_encoding.md R80 and R82 as N, then OPC -/

theorem test_decode_nop : Sys2Proof.decode 0b0000_00000000#64 = .ok .nop := by decide
theorem test_decode_tolin : Sys2Proof.decode 0b0000_00000001#64 = .ok .tolin := by decide
theorem test_decode_togam : Sys2Proof.decode 0b0000_00000010#64 = .ok .togam := by decide
theorem test_decode_b83enc : Sys2Proof.decode 0b0010_00010000#64 = .ok (.b83enc 2) := by decide
theorem test_decode_b83dec : Sys2Proof.decode 0b1010_00010001#64 = .ok (.b83dec 10) := by decide
theorem test_decode_qdc : Sys2Proof.decode 0b0000_00100000#64 = .ok .qdc := by decide
theorem test_decode_qmax : Sys2Proof.decode 0b0000_00100001#64 = .ok .qmax := by decide
theorem test_decode_qac : Sys2Proof.decode 0b0000_00100010#64 = .ok .qac := by decide
theorem test_decode_dqdc : Sys2Proof.decode 0b0000_00101000#64 = .ok .dqdc := by decide
theorem test_decode_dqmax : Sys2Proof.decode 0b0000_00101001#64 = .ok .dqmax := by decide
theorem test_decode_dqac : Sys2Proof.decode 0b0000_00101010#64 = .ok .dqac := by decide
theorem test_decode_fdct : Sys2Proof.decode 0b0000_00110000#64 = .ok .fdct := by decide
theorem test_decode_idct : Sys2Proof.decode 0b0000_00110001#64 = .ok .idct := by decide
theorem test_decode_encode : Sys2Proof.decode 0b0000_01000000#64 = .ok .encode := by decide
theorem test_decode_decode : Sys2Proof.decode 0b0000_01000001#64 = .ok .decode := by decide

/-- 30_encoding.md R84: a reserved bit, an unassigned OPC, an N where none may be, each by its name. -/
theorem test_decode_rejects :
    Sys2Proof.decode 0x1000#64 = .error .reservedBits ∧
    Sys2Proof.decode 0x8000000000000000#64 = .error .reservedBits ∧
    Sys2Proof.decode 0x03#64 = .error .unassignedOpcode ∧
    Sys2Proof.decode 0x142#64 = .error .unassignedOpcode ∧
    Sys2Proof.decode 0x120#64 = .error .strayDigitCount := by decide

theorem test_decodeTableWord : decodeTableWord 64 0xA11 = some (.b83dec 10) := by decide

/-! ## Helpers -/

/-- Whether a step answers a next state of which `p` holds. -/
def answers (a : Answer State) (p : State → Bool) : Bool :=
  match a with
  | .next t => p t
  | .fault _ => false
  | .refused _ => false

/-- The block after reset, with bytes from an address on. -/
def bytesAt (base : Nat) (bytes : List Byte) : State :=
  { State.reset with mem := Store.writeRun [] base bytes }

/-- The block after reset with a hash in HASH. -/
def hashed (bytes : List Byte) : State :=
  { bytesAt hashBase bytes with hashLen := BitVec.ofNat 16 bytes.length }

/-- The block after reset with an image of `w` by `h` in PIX and component counts. -/
def pictured (w h xc yc : Nat) (bytes : List Byte) : State :=
  { bytesAt pixBase bytes with
    width := BitVec.ofNat 16 w, height := BitVec.ofNat 16 h, xcomp := BitVec.ofNat 8 xc,
    ycomp := BitVec.ofNat 8 yc, pixLen := BitVec.ofNat 64 bytes.length }

/-- Cells from cell 0 on in COEF. -/
def celled (cells : List Rgb) (s : State) : State :=
  { s with coef := Store.writeRun [] 0 (cells.flatMap Rgb.toList) }

/-- Operands in A0 and A1. -/
def operands (a0 a1 : Word) (s : State) : State := { s with a0 := a0, a1 := a1 }

/-- The error context a command leaves, with its code. -/
def errors (t : State) : Nat × Nat × Nat × Nat :=
  (t.errcode.toNat, t.errExp.toNat, t.errAct.toNat, t.errPos.toNat)

/-- A value in a table of `pow` results. -/
def lookup : List (F64 × F64 × F64) → F64 → F64 → F64
  | [], _, _ => 0
  | (a, b, r) :: rows, x, y => if a = x ∧ b = y then r else lookup rows x y

/-- 2.4, 1.0 / 2.4 (95_test_vectors.md V-CS, intermediate values), 0.5 and 2.0 are the exponents of the codec. -/
def exponent24 : F64 := 0x4003333333333333#64
def exponentInv : F64 := 0x3FDAAAAAAAAAAAAB#64

/-- Results of the GNU C library's `pow` (the POW_IMPL of 95_test_vectors.md), evaluated outside the model, at
the points the tests below need, and `cos` at 0. -/
def gnu : Libm :=
  { cos := fun x => if x = 0 then 0x3FF0000000000000#64 else 0
    pow := lookup
      [(0x3FD28FD4FD06BB83#64, exponent24, 0x3FAA3FFD8E001389#64),
       (0x3FE0E4C2CA11A6E3#64, exponent24, 0x3FCBA1511E3E632D#64),
       (0x3FE8819B159FF004#64, exponent24, 0x3FE0DE208A4444C8#64),
       (0x3FF0000000000000#64, exponent24, 0x3FF0000000000000#64),
       (0x3FF00F39B0971C92#64, exponent24, 0x3FF024A2CECA86C1#64),
       (0x3FAA3FFD8E001389#64, exponentInv, 0x3FD28FD4FD06BB83#64),
       (0x3FCBA1511E3E632D#64, exponentInv, 0x3FE0E4C2CA11A6E3#64),
       (0x3FE0DE208A4444C8#64, exponentInv, 0x3FE8819B159FF004#64),
       (0x3FE0000000000000#64, exponentInv, 0x3FE7F910D768CFB0#64),
       (0x3FF0000000000000#64, exponentInv, 0x3FF0000000000000#64),
       (0x3FD53F7CED916873#64, 0x3FE0000000000000#64, 0x3FE2702F434399AC#64),
       (0x3FC53F7CED916873#64, 0x3FE0000000000000#64, 0x3FDA13595F0E1C37#64),
       (0x3FE1C71C71C71C72#64, 0x4000000000000000#64, 0x3FD3C0CA4587E6B8#64),
       (0x3FDC71C71C71C71C#64, 0x4000000000000000#64, 0x3FC948B0FCD6E9E0#64),
       (0x3FF0000000000000#64, 0x4000000000000000#64, 0x3FF0000000000000#64)] }

/-- What a stage makes of a state, for the tests that need values of `cos` and `pow`. -/
def run (s : State) (stage : State → Except Raise Staged) : State := s.complete (stage s)

/-! ## Numbers (00_scope.md R10, R11, R14) -/

/-- The literal constants are the binary64 values nearest to their decimals, as quotients of integers that
binary64 holds exactly. -/
theorem test_constants_are_nearest :
    Fp.c12_92 = Fp.div (Fp.ofNat 1292) (Fp.ofNat 100) ∧
    Fp.c0_04045 = Fp.div (Fp.ofNat 4045) (Fp.ofNat 100000) ∧
    Fp.c0_055 = Fp.div (Fp.ofNat 55) (Fp.ofNat 1000) ∧
    Fp.c1_055 = Fp.div (Fp.ofNat 1055) (Fp.ofNat 1000) ∧
    Fp.c2_4 = Fp.div (Fp.ofNat 24) (Fp.ofNat 10) ∧
    Fp.c0_0031308 = Fp.div (Fp.ofNat 31308) (Fp.ofNat 10000000) := by decide +kernel

theorem test_integer_constants :
    Fp.c0_5 = Fp.div (Fp.ofNat 1) (Fp.ofNat 2) ∧ Fp.c9_5 = Fp.div (Fp.ofNat 19) (Fp.ofNat 2) ∧
    Fp.c1_0 = Fp.ofNat 1 ∧ Fp.c2_0 = Fp.ofNat 2 ∧ Fp.c9_0 = Fp.ofNat 9 ∧ Fp.c166_0 = Fp.ofNat 166 ∧
    Fp.c255_0 = Fp.ofNat 255 := by decide +kernel

/-- `float` of `2^53 + 1` ties to even; `1.0 / 2.4` is the value of 95_test_vectors.md V-CS. -/
theorem test_rounding :
    Fp.ofNat 9007199254740993 = 0x4340000000000000#64 ∧ Fp.div Fp.c1_0 Fp.c2_4 = exponentInv := by
  decide +kernel

/-- 00_scope.md R14: floor, not truncation, then the clamp; NaN gives the lower bound. -/
theorem test_floorclamp :
    Fp.floorclamp 0xBFE0000000000000#64 0 18 = 0 ∧ Fp.floorclamp 0x4023000000000000#64 0 18 = 9 ∧
    Fp.floorclamp 0x7FF0000000000000#64 0 18 = 18 ∧ Fp.floorclamp 0x7FF8000000000000#64 3 18 = 3 := by
  decide +kernel

/-! ## Commands: one step each, on values of 95_test_vectors.md -/

/-- Every row of the opcode table runs as the first command after reset. -/
theorem test_first_step_runs_every_command :
    [0x00, 0x01, 0x02, 0x110, 0x111, 0x20, 0x21, 0x22, 0x28, 0x29, 0x2A, 0x30, 0x31, 0x40, 0x41].all
      (fun w => answers (step (State.reset.withFetchWord 64 w)) fun _ => true) = true := by
  decide +kernel

theorem test_nop :
    answers (step (State.reset.withFetchWord 64 0x00)) (fun t => decide (errors t = (0, 0, 0, 0)))
      = true := by decide

/-- 60_exceptions.md R220: IllegalCommand reports the word. -/
theorem test_illegal_command :
    answers (step (State.reset.withFetchWord 64 0x103))
      (fun t => decide (errors t = (16, 0, 0x103, 0))) = true := by decide

/-- V-CS, c = 10: the linear branch. -/
theorem test_tolin_linear :
    answers (exec .tolin (operands 10 0 State.reset)) (fun t => decide (t.r0 = 0x3F68DD6C15B1D4B4#64))
      = true := by decide +kernel

/-- V-CS, c = 128: the power branch. -/
theorem test_tolin_power :
    (run (operands 128 0 State.reset) (stageTolin gnu)).r0 = 0x3FCBA1511E3E632D#64 := by decide +kernel

/-- V-CS, x = 0.001 and NaN. -/
theorem test_togam :
    answers (exec .togam (operands 0x3F50624DD2F1A9FC#64 0 State.reset)) (fun t => decide (t.r0 = 3)) = true ∧
    answers (exec .togam (operands 0x7FF8000000000000#64 0 State.reset)) (fun t => decide (t.r0 = 0)) = true := by
  decide +kernel

/-- V-CS, x = 0.5 under both roundings. -/
theorem test_togam_rounding :
    toGamma gnu .nearest 0x3FE0000000000000#64 = 188 ∧ toGamma gnu .trunc 0x3FE0000000000000#64 = 187 := by
  decide +kernel

/-- V-B83: 8405184 in four digits is `Ew7N`. -/
theorem test_b83enc :
    answers (exec (.b83enc 4) (operands 8405184 0 State.reset))
      (fun t => decide (t.hashField 0 4 = [0x45, 0x77, 0x37, 0x4E])) = true := by decide +kernel

/-- V-B83: A1 = 164 is the last offset of a field of two, 165 is out of range. -/
theorem test_b83enc_offset :
    answers (exec (.b83enc 2) (operands 6858 164 State.reset))
      (fun t => decide (errors t = (0, 0, 0, 0) ∧ t.hashField 164 2 = [0x7E, 0x71])) = true ∧
    answers (exec (.b83enc 2) (operands 6858 165 State.reset))
      (fun t => decide (errors t = (17, 164, 165, 1))) = true := by decide +kernel

/-- V-B83: `HV6n` is 9934485. -/
theorem test_b83dec :
    answers (exec (.b83dec 4) (hashed [0x48, 0x56, 0x36, 0x6E])) (fun t => decide (t.r0 = 9934485)) = true := by
  decide +kernel

/-- V-B83: `LE!V` stops at its third byte. -/
theorem test_b83dec_invalid :
    answers (exec (.b83dec 4) (hashed [0x4C, 0x45, 0x21, 0x56]))
      (fun t => decide (errors t = (4, 0, 33, 2))) = true := by decide +kernel

/-- V-Q, QDC of toLinear(128), toLinear(64), toLinear(192). -/
theorem test_qdc :
    (run (celled [⟨0x3FCBA1511E3E632D#64, 0x3FAA3FFD8E001389#64, 0x3FE0DE208A4444C8#64⟩] State.reset)
      (stageQdc gnu)).r0 = 0x8040C0 := by decide +kernel

/-- V-Q, QDC of (-1.0, 2.0, NaN). -/
theorem test_qdc_clamps :
    (run (celled [⟨0xBFF0000000000000#64, 0x4000000000000000#64, 0x7FF8000000000000#64⟩] State.reset)
      (stageQdc gnu)).r0 = 0x00FF00 := by decide +kernel

/-- V-Q, QMAX with m = -0.3 in blue. -/
theorem test_qmax :
    answers
      (exec .qmax { celled [Rgb.zero, ⟨0, 0, 0xBFD3333333333333#64⟩] State.reset with xcomp := 2, ycomp := 1 })
      (fun t => decide (t.qmax = 49 ∧ t.maxval = 0x3FD346F0940C565D#64)) = true := by decide +kernel

/-- V-Q, QMAX with XCOMP = 10. -/
theorem test_qmax_components :
    answers (exec .qmax { State.reset with xcomp := 10, ycomp := 1 })
      (fun t => decide (errors t = (18, 9, 266, 0))) = true := by decide

/-- V-Q, QAC of zeros of both signs. -/
theorem test_qac_zero :
    answers (exec .qac (operands 1 0 (celled [Rgb.zero, ⟨0x8000000000000000#64, 0, 0⟩] State.reset)))
      (fun t => decide (t.r0 = 3429)) = true := by decide +kernel

/-- V-Q, QAC of (0.1, -0.05, 0.0) with MAXVAL = 50/166. -/
theorem test_qac :
    (run
      (operands 1 0
        { celled [Rgb.zero, ⟨0x3FB999999999999A#64, 0xBFA999999999999A#64, 0⟩] State.reset with
          maxval := 0x3FD346F0940C565D#64 })
      (stageQac gnu)).r0 = 5158 := by decide +kernel

/-- V-Q, DQDC of 16777216: red 256 under Literal, 0 under Mask. -/
theorem test_dqdc_overrange :
    (run (operands 16777216 0 State.reset) (stageDqdc gnu)).coefCell 0 = ⟨0x3FF024A2CECA86C1#64, 0, 0⟩ ∧
    (run (operands 16777216 0 { State.reset with params := { Params.default with overrangePolicy := .mask } })
      (stageDqdc gnu)).coefCell 0 = Rgb.zero := by decide +kernel

/-- V-Q, DQDC of 47458321. -/
theorem test_dqdc_limit :
    answers (exec .dqdc (operands 47458321 0 State.reset))
      (fun t => decide (errors t = (17, 47458320, 47458321, 0))) = true := by decide +kernel

/-- V-Q, DQMAX of 49 and 83. -/
theorem test_dqmax :
    answers (exec .dqmax (operands 49 0 State.reset))
      (fun t => decide (t.qmax = 49 ∧ t.maxval = 0x3FD346F0940C565D#64)) = true ∧
    answers (exec .dqmax (operands 83 0 State.reset)) (fun t => decide (errors t = (17, 82, 83, 0))) = true := by
  decide +kernel

/-- V-Q, DQAC of 5158 with MAXVAL = 50/166. -/
theorem test_dqac :
    (run (operands 5158 1 { State.reset with maxval := 0x3FD346F0940C565D#64 }) (stageDqac gnu)).coefCell 1
      = ⟨0x3FB7CC84AA2231BC#64, 0xBFAE766C5EE416B2#64, 0⟩ := by decide +kernel

/-- V-Q, DQAC of 3429 is zeros; A1 = 81 is out of range. -/
theorem test_dqac_zero :
    answers (exec .dqac (operands 3429 80 State.reset)) (fun t => decide (t.coefCell 80 = Rgb.zero)) = true ∧
    answers (exec .dqac (operands 0 81 State.reset)) (fun t => decide (errors t = (17, 80, 81, 1))) = true := by
  decide +kernel

/-- V-T, FDCT of one white pixel into 3 x 1 cells. -/
theorem test_fdct :
    ((List.range 3).map (run (pictured 1 1 3 1 [255, 255, 255]) (stageFdct gnu)).coefCell).map Rgb.r
      = [0x3FF0000000000000#64, 0x4000000000000000#64, 0x4000000000000000#64] := by decide +kernel

/-- V-T, the order of FDCT's checks: PIX_LEN before the components, the components before the size. -/
theorem test_fdct_checks :
    answers (exec .fdct { pictured 2 2 0 0 [] with pixLen := 11 })
      (fun t => decide (errors t = (1, 12, 11, 0))) = true ∧
    answers (exec .fdct { pictured 2 2 3 10 [] with pixLen := 12 })
      (fun t => decide (errors t = (18, 9, 2563, 0))) = true ∧
    answers (exec .fdct (pictured 0 5 1 1 [])) (fun t => decide (errors t = (19, 1, 327680, 0))) = true := by
  decide +kernel

/-- V-T, IDCT of a grid of one cell of 0.5, at 1 x 1. -/
def idctResult : State :=
  run
    (celled [⟨0x3FE0000000000000#64, 0x3FE0000000000000#64, 0x3FE0000000000000#64⟩] (pictured 1 1 1 1 []))
    (stageIdct gnu)

/-- The bytes 188 of V-T; and 0 x 1 with 1 x 0 components. -/
theorem test_idct :
    (idctResult.pixByte 0 = 188 ∧ idctResult.pixByte 2 = 188 ∧ idctResult.pixLen = 3) ∧
    answers (exec .idct (pictured 0 1 1 0 [])) (fun t => decide (errors t = (18, 9, 1, 0))) = true := by
  decide +kernel

/-- E1: the pixel (128, 64, 192). -/
def encodeResult : State := run (pictured 1 1 1 1 [128, 64, 192]) (stageEncode gnu)

/-- E1: it encodes to `00Ew7N`. -/
theorem test_encode :
    encodeResult.hashField 0 6 = [0x30, 0x30, 0x45, 0x77, 0x37, 0x4E] ∧ encodeResult.hashLen = 6 ∧
    encodeResult.qmax = 0 := by decide +kernel

/-- V-C: `00Ew7N` at 1 x 1. -/
def decodeResult : State :=
  run { hashed [0x30, 0x30, 0x45, 0x77, 0x37, 0x4E] with width := 1, height := 1 } (stageDecode gnu)

/-- V-C: it decodes to the pixel (128, 64, 192). -/
theorem test_decode :
    decodeResult.pixByte 0 = 128 ∧ decodeResult.pixByte 1 = 64 ∧ decodeResult.pixByte 2 = 192 ∧
    decodeResult.maxval = oneBits := by decide +kernel

/-- E7 and V-C: `00Ew7N00` has the wrong length; a byte that is no symbol is found before the size 0. -/
theorem test_decode_errors :
    answers (exec .decode (hashed [0x30, 0x30, 0x45, 0x77, 0x37, 0x4E, 0x30, 0x30]))
      (fun t => decide (errors t = (3, 6, 8, 0))) = true ∧
    answers (exec .decode (hashed [0x30, 0x21, 0x45, 0x77, 0x37, 0x4E]))
      (fun t => decide (errors t = (4, 0, 33, 1))) = true := by decide +kernel

/-! ## The host port -/

/-- The block with one event to come. -/
def due (e : Event) (s : State) : State := { s with agenda := [e] }

/-- 10_state.md R21, E9: ID, and the first and the last symbol of the ROM. -/
theorem test_reads :
    answers (step (due (.host (.read .w64 0x000)) State.reset))
      (fun t => decide (t.port = .data64 0x0000000142484331#64)) = true ∧
    answers (step (due (.host (.read .w8 0x2100)) State.reset)) (fun t => decide (t.port = .data8 0x30)) = true ∧
    answers (step (due (.host (.read .w8 0x2152)) State.reset)) (fun t => decide (t.port = .data8 0x7E)) = true := by
  decide +kernel

/-- 20_memory.md R60, R67: a byte access to a CSR, a word access to PIX, an unaligned word access. -/
theorem test_bus_errors :
    answers (step (due (.host (.write8 0x018 0)) State.reset)) (fun t => decide (t.port = .busError)) = true ∧
    answers (step (due (.host (.read .w64 0x10000)) State.reset)) (fun t => decide (t.port = .busError)) = true ∧
    answers (step (due (.host (.write64 0x024 7)) State.reset))
      (fun t => decide (t.port = .busError ∧ t.width = 0)) = true := by decide +kernel

/-- 70_reset_and_hazards.md R263: after an error and with IRQEN 1, a command is accepted and IRQEN cleared; while BUSY
ERR_ACT and CTRL read as before the acceptance, and IRQEN itself is 0. -/
def busyAfterError : State :=
  ({ State.reset with errcode := 16, errAct := 3, irqen := true, done := true }.hostAccess
    (.write64 0x018 0x00)).hostAccess (.write64 0x008 0)

theorem test_busy_reads :
    (busyAfterError.hostAccess (.read .w64 0x088)).port = .data64 3 ∧
    (busyAfterError.hostAccess (.read .w64 0x008)).port = .data64 1 ∧
    (busyAfterError.hostAccess (.read .w64 0x010)).port = .data64 1 ∧ busyAfterError.irqen = false := by
  decide +kernel

/-! ## Witnesses: states and operands that meet the hypotheses of the statements, at the ends of their ranges -/

/-- The block with a command running. -/
def running (w : Word) (s : State) : State := { s with engine := .busy w s.hostView }

/-- The largest legal PIX_CAP. -/
def wide (s : State) : State := { s with params := { Params.default with pixCap := 0xFFFF0000 } }

/-- The block under another policy for codes over their range. -/
def underPolicy (p : OverrangePolicy) (s : State) : State :=
  { s with params := { Params.default with overrangePolicy := p } }

/-- `10Ew4|fQ`, two cells, for an image of 2 by 1 (95_test_vectors.md V-C). -/
def twoCells : State :=
  { hashed [0x31, 0x30, 0x45, 0x77, 0x34, 0x7C, 0x66, 0x51] with width := 2, height := 1 }

/-- `00~~~~`, a DC code over its range (95_test_vectors.md). -/
def overDc : State :=
  underPolicy .fault { hashed [0x30, 0x30, 0x7E, 0x7E, 0x7E, 0x7E] with width := 1, height := 1 }

/-- `10Ew4|~~`, an AC code over its range (95_test_vectors.md). -/
def overAc : State :=
  underPolicy .fault
    { hashed [0x31, 0x30, 0x45, 0x77, 0x34, 0x7C, 0x7E, 0x7E] with width := 2, height := 1 }

theorem witness_DecodeOfEncodeIsIdentity :
    Instr.wf (.b83enc 15) = true ∧ Instr.wf (.b83dec 0) = true ∧ Instr.wf .decode = true := by decide

theorem witness_EncodeOfDecodeIsIdentity :
    Sys2Proof.decode 0xF11#64 = .ok (.b83dec 15) ∧ Sys2Proof.decode 0x41#64 = .ok .decode := by decide

theorem witness_StepRunsTheLatchedCommand :
    (running 0x41 State.reset).engine = .busy 0x41 State.reset.hostView ∧ Sys2Proof.decode 0x41#64 = .ok .decode ∧
    (running 0x41 State.reset).agenda = [] ∧
    (due .complete (running 0x41 State.reset)).engine = .busy 0x41 State.reset.hostView ∧
    (due .complete (running 0x41 State.reset)).agenda = .complete :: [] := by decide

theorem witness_IllegalWordCompletesWithIllegalCommand :
    (running 0x1000 State.reset).engine = .busy 0x1000 State.reset.hostView ∧
    (running 0x1000 State.reset).agenda = [] ∧
    (due .complete (running 0x1000 State.reset)).engine = .busy 0x1000 State.reset.hostView ∧
    (due .complete (running 0x1000 State.reset)).agenda = .complete :: [] ∧
    ∃ e, Sys2Proof.decode 0x1000#64 = .error e := ⟨rfl, rfl, rfl, rfl, .reservedBits, by decide⟩

theorem witness_CmdWriteIsAcceptedOrLost :
    let s := due (.host (.write64 0x018 0x41)) State.reset
    s.resetHeld = false ∧ s.agenda = .host (.write64 0x018 0x41) :: [] ∧ s.engine = .idle ∧
    (running 0 s).resetHeld = false ∧ (running 0 s).agenda = .host (.write64 0x018 0x41) :: [] ∧
    (running 0 s).engine = .busy 0 s.hostView := by decide

/-- The first clause at the ends of the CSR and COEF windows and between CTRL, STATUS and CMD. -/
theorem witness_OtherWritesWhileBusyAreIgnored_words :
    [0x000#32, 0x020#32, 0xFF8#32, 0x1000#32, 0x1790#32].all (fun a =>
      decide ((running 0 (due (.host (.write64 a 1)) State.reset)).busy = true ∧
        (running 0 (due (.host (.write64 a 1)) State.reset)).resetHeld = false ∧
        (a.toNat % 8 = 0 ∧ a.toNat < 0x1798 ∧ a.toNat ≠ 0x008 ∧ a.toNat ≠ 0x010 ∧ a.toNat ≠ 0x018) ∧
        (running 0 (due (.host (.write64 a 1)) State.reset)).agenda = .host (.write64 a 1) :: [])) = true := by
  decide +kernel

/-- The second clause at the ends of the HASH, PIX and ALPHA windows. -/
theorem witness_OtherWritesWhileBusyAreIgnored_bytes :
    inByteWindow 0x100000 (0x2000#32).toNat ∧ inByteWindow 0x100000 (0x20A5#32).toNat ∧
    inByteWindow 0x100000 (0x10000#32).toNat ∧ inByteWindow 0x100000 (0x10FFFF#32).toNat ∧
    (0x2100 ≤ (0x2100#32).toNat ∧ (0x2152#32).toNat ≤ 0x2152) ∧
    State.reset.params.pixCap = 0x100000 ∧
    (running 0 (due (.host (.write8 0x2000 1)) State.reset)).busy = true ∧
    (running 0 (due (.host (.write8 0x2000 1)) State.reset)).resetHeld = false ∧
    (running 0 (due (.host (.write8 0x2000 1)) State.reset)).agenda = .host (.write8 0x2000 1) :: [] := by
  unfold inByteWindow; decide +kernel

theorem witness_CtrlAndStatusWritesTakeEffect :
    State.reset.resetHeld = false ∧
    (due (.host (.write64 0x008 1)) State.reset).agenda = .host (.write64 0x008 1) :: [] ∧
    (due (.host (.write64 0x010 0xA)) State.reset).agenda = .host (.write64 0x010 0xA) :: [] := by decide

theorem witness_ReadsHaveNoSideEffect :
    (due (.host (.read .w64 0xFFFFFFFF)) State.reset).agenda = .host (.read .w64 0xFFFFFFFF) :: [] := rfl

/-- The first and the last CSR, and CTRL and the error context, which answer by the engine phase; the clause of
PIXCAP with the largest capacity. -/
theorem witness_CsrReadsReturnTheRegisters :
    State.reset.engine = .idle ∧ (running 0x41 State.reset).engine = .busy 0x41 State.reset.hostView ∧
    (running 0x41 State.reset).resetHeld = false ∧
    [0, 1, 16, 17, 18, 19, 511].all (fun n =>
      decide (n < 512 ∧ (due (.host (.read .w64 (BitVec.ofNat 32 (8 * n)))) State.reset).resetHeld = false ∧
        (due (.host (.read .w64 (BitVec.ofNat 32 (8 * n)))) State.reset).agenda
          = .host (.read .w64 (BitVec.ofNat 32 (8 * n))) :: [])) = true ∧
    (wide State.reset).params.wf = true := by decide +kernel

theorem witness_StatusReadsItsFields :
    (due (.host (.read .w64 0x010)) State.reset).resetHeld = false ∧
    (due (.host (.read .w64 0x010)) State.reset).agenda = .host (.read .w64 0x010) :: [] := by decide

/-- Each clause: registers 4 to 12 one by one, and 0, 13 and 511 for the registers that ignore writes. -/
theorem witness_CsrWritesStoreTheLowBits :
    [0, 4, 5, 6, 7, 8, 9, 10, 11, 12, 13, 511].all (fun n =>
      decide (n < 512 ∧ (due (.host (.write64 (BitVec.ofNat 32 (8 * n)) 5)) State.reset).busy = false ∧
        (due (.host (.write64 (BitVec.ofNat 32 (8 * n)) 5)) State.reset).resetHeld = false ∧
        (due (.host (.write64 (BitVec.ofNat 32 (8 * n)) 5)) State.reset).agenda
          = .host (.write64 (BitVec.ofNat 32 (8 * n)) 5) :: [])) = true := by decide +kernel

/-- What is to be shown illegal or legal in `IllegalAccessesAreBusErrors`. -/
def illegalNumbers (cap : Nat) (x : Access) : Bool :=
  let a := x.addr
  decide ((x.width = .w8 ∧ a < 0x1798) ∨
    (x.width = .w64 ∧
      (a % 8 ≠ 0 ∨ (0x2000 ≤ a + 7 ∧ a ≤ 0x20A5) ∨ (0x2100 ≤ a + 7 ∧ a ≤ 0x2152) ∨
        (0x10000 ≤ a + 7 ∧ a < 0x10000 + cap))))

/-- Both clauses, at the values where they meet: the last byte below and the first above the word windows; words
beside and in HASH, ALPHA and PIX. -/
theorem witness_IllegalAccessesAreBusErrors :
    [Access.write8 0x1797 0, .write64 0x1 0, .write64 0x2000 0, .write64 0x20A0 0, .read .w64 0x2100,
      .read .w64 0x2150, .read .w64 0x10000, .read .w64 0x10FFF8].all
        (fun x => illegalNumbers 0x100000 x && decide ((due (.host x) State.reset).resetHeld = false)) = true ∧
    [Access.write8 0x1798 0, .write64 0x1790 0, .write64 0x1FF8 0, .write64 0x20A8 0, .read .w64 0x20F8,
      .read .w64 0x2158, .read .w64 0xFFF8, .read .w64 0x110000].all
        (fun x => !illegalNumbers 0x100000 x && decide ((due (.host x) State.reset).resetHeld = false)) = true := by
  decide +kernel

/-- The reserved addresses of `ReservedAddressesReadZero`. -/
def reservedNumbers (cap a : Nat) : Bool :=
  decide ((0x1798 ≤ a ∧ a < 0x2000) ∨ (0x20A6 ≤ a ∧ a < 0x2100) ∨ (0x2153 ≤ a ∧ a < 0x10000) ∨
    0x10000 + cap ≤ a)

/-- Bytes at both ends of each reserved row, and words in each. -/
theorem witness_ReservedAddressesReadZero :
    [0x1798, 0x1FFF, 0x20A6, 0x20FF, 0x2153, 0xFFFF, 0x110000, 0xFFFFFFFF].all (reservedNumbers 0x100000) = true ∧
    [0x1798, 0x1FF8, 0x20A8, 0x20F8, 0x2158, 0xFFF8, 0x110000, 0xFFFFFFF8].all (fun a =>
      (List.range 8).all (fun i => reservedNumbers 0x100000 (a + i)) && decide (a % 8 = 0)) = true ∧
    (due (.host (.read .w8 0x1798)) State.reset).agenda = .host (.read .w8 0x1798) :: [] ∧
    (due (.host (.write8 0x1798 1)) State.reset).agenda = .host (.write8 0x1798 1) :: [] ∧
    (due (.host (.read .w64 0x1798)) State.reset).agenda = .host (.read .w64 0x1798) :: [] ∧
    (due (.host (.write64 0x1798 1)) State.reset).agenda = .host (.write64 0x1798 1) :: [] ∧
    State.reset.resetHeld = false ∧ State.reset.params.pixCap = 0x100000 := by decide +kernel

/-- The block with a byte write and a read of the same address to come. -/
def byteWriteThenRead (a : Addr) : State :=
  { State.reset with agenda := [.host (.write8 a 1), .host (.read .w8 a)] }

theorem witness_ByteWritesAreReadBack :
    (byteWriteThenRead 0x20A5).busy = false ∧ (byteWriteThenRead 0x20A5).resetHeld = false ∧
    inByteWindow (byteWriteThenRead 0x20A5).params.pixCap (0x20A5#32).toNat ∧
    (byteWriteThenRead 0x20A5).agenda = .host (.write8 0x20A5 1) :: .host (.read .w8 0x20A5) :: [] ∧
    inByteWindow (byteWriteThenRead 0x10FFFF).params.pixCap (0x10FFFF#32).toNat := by
  unfold inByteWindow; decide +kernel

theorem witness_CoefWritesAreReadBack :
    let a : Addr := BitVec.ofNat 32 (0x1000 + 8 * (3 * 80 + 2))
    let s : State := { State.reset with agenda := [.host (.write64 a 1), .host (.read .w64 a)] }
    s.busy = false ∧ s.resetHeld = false ∧ 80 ≤ 80 ∧ 2 ≤ 2 ∧
    s.agenda = .host (.write64 a 1) :: .host (.read .w64 a) :: [] := by decide

theorem witness_AlphaRomReadsTheAlphabet :
    let a : Addr := BitVec.ofNat 32 (0x2100 + 82)
    82 ≤ 82 ∧ State.reset.resetHeld = false ∧
    (due (.host (.read .w8 a)) State.reset).agenda = .host (.read .w8 a) :: [] ∧
    (due (.host (.write8 a 1)) State.reset).agenda = .host (.write8 a 1) :: [] := by decide

theorem witness_ResetAbandonsTheRunningCommand :
    (running 0x41 { State.reset with
      agenda := [.assertReset, .host (.read .w64 0), .releaseReset] }).agenda
      = .assertReset :: .host (.read .w64 0) :: .releaseReset :: [] := by decide

/-- One event for each clause, with the state each needs. -/
theorem witness_IrqFollowsDoneAndIrqen :
    [Event.host (.write64 0x010 2), .host (.write64 0x008 0), .host (.write64 0x008 1), .host (.write64 0x018 0),
      .assertReset].all (fun e =>
        decide ((due e State.reset).resetHeld = false ∧ (due e State.reset).agenda = e :: [] ∧
          (due e State.reset).busy = false) && answers (step (due e State.reset)) fun _ => true) = true ∧
    (2#64).getLsbD 1 = true ∧ (0#64).getLsbD 0 = false ∧ (1#64).getLsbD 0 = true ∧
    (running 0 (due .complete State.reset)).resetHeld = false ∧
    (running 0 (due .complete State.reset)).busy = true ∧
    answers (step (running 0 (due .complete State.reset))) (fun _ => true) = true := by decide +kernel

/-- A0 = 0.001, on the linear branch, under both roundings. -/
theorem witness_TogamWritesTheGammaByte :
    let g := Fp.mul 0x3F50624DD2F1A9FC#64 Fp.c12_92
    Fp.clamp01 0x3F50624DD2F1A9FC#64 = 0x3F50624DD2F1A9FC#64 ∧
    Fp.lt 0x3F50624DD2F1A9FC#64 Fp.c0_0031308 = true ∧
    (value (Fp.add (Fp.mul g Fp.c255_0) Fp.c0_5)).any (fun a => decide (0 ≤ a ∧ a < 256)) = true ∧
    (value (Fp.mul g Fp.c255_0)).any (fun a => decide (0 ≤ a ∧ a < 256)) = true := by decide +kernel

/-- First clause: a NaN, the smallest negative value, minus infinity, `-0.0`. Second clause: the value above 1.0 and
`+inf`. -/
theorem witness_GammaClampsItsOperand :
    Fp.isNaN 0x7FF0000000000001#64 = true ∧ Fp.lt 0x8000000000000001#64 Fp.c0_0 = true ∧
    Fp.lt 0xFFF0000000000000#64 Fp.c0_0 = true ∧
    (0x8000000000000000#64 : F64) = 0x8000000000000000#64 ∧
    Fp.lt Fp.c1_0 0x3FF0000000000001#64 = true ∧ Fp.lt Fp.c1_0 0x7FF0000000000000#64 = true := by decide +kernel

/-- The clauses at the ends of their ranges: one and ten digits at the last offsets; 0, 11 and 15; the first offsets
that do not fit. -/
theorem witness_B83encWritesTheDigits :
    ((operands 82 165 State.reset).a1.toNat + 1 ≤ 166 ∧ (operands 82 156 State.reset).a1.toNat + 10 ≤ 166) ∧
    ((0 < 1 ∨ 10 < 0) ∧ (11 < 1 ∨ 10 < 11) ∧ (15 < 1 ∨ 10 < 15) ∧ 15 < 16) ∧
    (166 < (operands 0 166 State.reset).a1.toNat + 1 ∧ 166 < (operands 0 157 State.reset).a1.toNat + 10) := by
  decide

/-- First clause: `Ew7N` at HASH[2]. -/
theorem witness_B83decWritesTheNumber :
    1 ≤ 4 ∧ 4 ≤ 10 ∧
    (operands 0 2 (hashed [0x30, 0x30, 0x45, 0x77, 0x37, 0x4E])).a1.toNat + 4 ≤ 166 ∧
    [14, 58, 7, 23].length = 4 ∧
    spells (operands 0 2 (hashed [0x30, 0x30, 0x45, 0x77, 0x37, 0x4E])) 2 [14, 58, 7, 23] := by
  unfold spells; decide +kernel

/-- `LE!V`. -/
def brokenSymbols : State := hashed [0x4C, 0x45, 0x21, 0x56]

/-- The other clauses: the third byte of `LE!V`; 0, 11 and 15 digits; the first offsets that do not fit. -/
theorem witness_B83decWritesTheNumber_errors :
    (brokenSymbols.a1.toNat + 4 ≤ 166 ∧ [21, 14].length < 4 ∧ spells brokenSymbols brokenSymbols.a1.toNat [21, 14] ∧
      rlut (brokenSymbols.hashByte (brokenSymbols.a1.toNat + [21, 14].length)) = none) ∧
    ((0 < 1 ∨ 10 < 0) ∧ (11 < 1 ∨ 10 < 11) ∧ (15 < 1 ∨ 10 < 15) ∧ 15 < 16) ∧
    (166 < (operands 0 166 State.reset).a1.toNat + 1 ∧ 166 < (operands 0 157 State.reset).a1.toNat + 10) := by
  unfold spells; decide +kernel

/-- Grids of one cell and of 81 cells; counts of 0 and of 10. -/
theorem witness_QmaxWritesTheAcScale :
    (componentsLegal (pictured 1 1 1 1 []) ∧ (pictured 1 1 1 1 []).xcomp.toNat * (pictured 1 1 1 1 []).ycomp.toNat = 1) ∧
    (componentsLegal (pictured 1 1 9 9 []) ∧ (pictured 1 1 9 9 []).xcomp.toNat * (pictured 1 1 9 9 []).ycomp.toNat ≠ 1) ∧
    ¬ componentsLegal (pictured 1 1 0 1 []) ∧ ¬ componentsLegal (pictured 1 1 1 10 []) := by
  unfold componentsLegal; decide +kernel

theorem witness_QacPacksTheAcTerm :
    (operands 80 0 State.reset).a0.toNat ≤ 80 ∧ 80 < (operands 81 0 State.reset).a0.toNat := by decide

/-- The largest field under Literal and Mask; under Fault the largest value in range, and the ends of the values over
it; the smallest value no field can hold. -/
theorem witness_DqdcWritesTheDcCell :
    (operands 47458320 0 State.reset).a0.toNat ≤ 47458320 ∧
    (operands 47458320 0 State.reset).params.overrangePolicy ≠ .fault ∧
    (underPolicy .mask (operands 47458320 0 State.reset)).params.overrangePolicy ≠ .fault ∧
    ¬ 2 ^ 24 ≤ (underPolicy .fault (operands 16777215 0 State.reset)).a0.toNat ∧
    (underPolicy .fault State.reset).params.overrangePolicy = .fault ∧
    2 ^ 24 ≤ (operands 16777216 0 State.reset).a0.toNat ∧
    47458320 < (operands 47458321 0 State.reset).a0.toNat := by decide +kernel

theorem witness_DqmaxWritesTheScale :
    (operands 82 0 State.reset).a0.toNat ≤ 82 ∧ 82 < (operands 83 0 State.reset).a0.toNat := by decide

/-- The same of DQAC, with the last cell and the first index above it. -/
theorem witness_DqacWritesTheAcCell :
    (operands 6888 80 State.reset).a0.toNat ≤ 6888 ∧ (operands 6888 80 State.reset).a1.toNat ≤ 80 ∧
    (operands 6888 80 State.reset).params.overrangePolicy ≠ .fault ∧
    ¬ 6859 ≤ (underPolicy .fault (operands 6858 80 State.reset)).a0.toNat ∧
    (underPolicy .fault State.reset).params.overrangePolicy = .fault ∧
    6859 ≤ (operands 6859 80 State.reset).a0.toNat ∧ 6888 < (operands 6889 80 State.reset).a0.toNat ∧
    80 < (operands 6888 81 State.reset).a1.toNat := by decide +kernel

/-- One pixel, one cell; and one pixel, 81 cells. -/
theorem witness_FdctWritesTheForwardGrid :
    ∀ s ∈ [pictured 1 1 1 1 [1, 2, 3], pictured 1 1 9 9 [1, 2, 3]],
      s.pixLen.toNat = imageBytes s ∧ componentsLegal s ∧ targetLegal s := by
  unfold componentsLegal targetLegal imageBytes; decide +kernel

theorem witness_EncodeWritesTheHash :
    ∀ s ∈ [pictured 1 1 1 1 [1, 2, 3], pictured 1 1 9 9 [1, 2, 3]],
      s.pixLen.toNat = imageBytes s ∧ componentsLegal s ∧ targetLegal s := by
  unfold componentsLegal targetLegal imageBytes; decide +kernel

/-- `10Ew4|fQ`: one AC term. -/
theorem witness_DecodeWritesTheImage :
    spells twoCells 0 [1] ∧ (1 ≤ 80 ∨ twoCells.params.sizeFlagPolicy = .accept) ∧
    twoCells.hashLen.toNat = 4 + 2 * ((1 % 9 + 1) * (1 / 9 + 1)) ∧ spells twoCells 1 [0] ∧
    [14, 58, 4, 80].length = 4 ∧ spells twoCells 2 [14, 58, 4, 80] ∧
    (∀ k, 1 ≤ k → k < (1 % 9 + 1) * (1 / 9 + 1) →
      [41, 26].length = 2 ∧ spells twoCells (4 + 2 * k) [41, 26]) ∧
    (twoCells.params.overrangePolicy = .fault →
      number [14, 58, 4, 80] < 2 ^ 24 ∧
        ∀ k, 1 ≤ k → k < (1 % 9 + 1) * (1 / 9 + 1) → number [41, 26] < 6859) ∧
    targetLegal twoCells := by
  refine ⟨?_, .inl (by omega), by decide, ?_, rfl, ?_, fun k h1 h2 => ⟨rfl, ?_⟩, fun h => ?_, ?_⟩
  · unfold spells; decide +kernel
  · unfold spells; decide +kernel
  · unfold spells; decide +kernel
  · have : k = 1 := by omega
    subst this
    unfold spells; decide +kernel
  · cases h
  · unfold targetLegal imageBytes; decide +kernel

/-- V-T: 2 x 2 with PIX_LEN = 11, and 1024 x 1024 over the capacity. -/
def wrongLength : State := { pictured 2 2 0 0 [] with pixLen := 11 }
def overCapacity : State := { pictured 1024 1024 9 9 [] with pixLen := 3145728 }

/-- The four clauses: the cases of 95_test_vectors.md V-T, and counts at 0 and 10. -/
theorem witness_ImageInputChecksInOrder :
    wrongLength.pixLen.toNat ≠ imageBytes wrongLength ∧
    (∀ s ∈ [pictured 1 1 0 1 [1, 2, 3], pictured 1 1 1 10 [1, 2, 3]],
      s.pixLen.toNat = imageBytes s ∧ ¬ componentsLegal s) ∧
    (∀ s ∈ [pictured 0 5 1 1 [], pictured 5 0 9 9 []],
      s.pixLen.toNat = imageBytes s ∧ componentsLegal s ∧ (s.width.toNat = 0 ∨ s.height.toNat = 0)) ∧
    overCapacity.pixLen.toNat = imageBytes overCapacity ∧ componentsLegal overCapacity ∧
    1 ≤ overCapacity.width.toNat ∧ 1 ≤ overCapacity.height.toNat ∧
    overCapacity.params.pixCap < imageBytes overCapacity := by
  unfold componentsLegal imageBytes; decide +kernel

/-- One cell and 81 cells for one pixel; counts of 0 and 10; a width of 0; an image over the capacity. -/
theorem witness_IdctWritesTheImage :
    (∀ s ∈ [pictured 1 1 1 1 [], pictured 1 1 9 9 []], componentsLegal s ∧ targetLegal s) ∧
    ¬ componentsLegal (pictured 1 1 0 1 []) ∧ ¬ componentsLegal (pictured 1 1 1 10 []) ∧
    (componentsLegal (pictured 0 1 1 1 []) ∧ (pictured 0 1 1 1 []).width.toNat = 0) ∧
    componentsLegal overCapacity ∧ 1 ≤ overCapacity.width.toNat ∧ 1 ≤ overCapacity.height.toNat ∧
    overCapacity.params.pixCap < imageBytes overCapacity := by
  unfold componentsLegal targetLegal imageBytes; decide +kernel

/-- The clauses: HASH_LEN 5; a first byte that is no symbol; flags 81 and 80, the latter in a hash of the wrong
length, as flag 82 under Accept. -/
theorem witness_DecodeHeaderChecksInOrder :
    (hashed [0x30, 0x30, 0x45, 0x77, 0x37]).hashLen.toNat < 6 ∧
    (6 ≤ (hashed [0x21, 0x30, 0x45, 0x77, 0x37, 0x4E]).hashLen.toNat ∧
      rlut ((hashed [0x21, 0x30, 0x45, 0x77, 0x37, 0x4E]).hashByte 0) = none) ∧
    (6 ≤ (hashed [0x7D, 0x30, 0x45, 0x77, 0x37, 0x4E]).hashLen.toNat ∧
      rlut ((hashed [0x7D, 0x30, 0x45, 0x77, 0x37, 0x4E]).hashByte 0) = some 81 ∧
      (hashed [0x7D, 0x30, 0x45, 0x77, 0x37, 0x4E]).params.sizeFlagPolicy = .reject) ∧
    (rlut ((hashed [0x7C, 0x30, 0x45, 0x77, 0x37, 0x4E]).hashByte 0) = some 80 ∧
      (hashed [0x7C, 0x30, 0x45, 0x77, 0x37, 0x4E]).hashLen.toNat ≠ 4 + 2 * ((80 % 9 + 1) * (80 / 9 + 1))) ∧
    (rlut ((hashed [0x7E, 0x30, 0x45, 0x77, 0x37, 0x4E]).hashByte 0) = some 82 ∧
      ({ hashed [0x7E, 0x30, 0x45, 0x77, 0x37, 0x4E] with
        params := { Params.default with sizeFlagPolicy := .accept } } : State).params.sizeFlagPolicy = .accept ∧
      (hashed [0x7E, 0x30, 0x45, 0x77, 0x37, 0x4E]).hashLen.toNat ≠ 4 + 2 * ((82 % 9 + 1) * (82 / 9 + 1))) := by
  decide +kernel

/-- `0!Ew7N`: the second byte; and under Fault `10Ew4|f!`, whose DC field is in range: the last byte. -/
def brokenHash : State := hashed [0x30, 0x21, 0x45, 0x77, 0x37, 0x4E]
def brokenTail : State := underPolicy .fault (hashed [0x31, 0x30, 0x45, 0x77, 0x34, 0x7C, 0x66, 0x21])

theorem witness_DecodeReportsTheFirstInvalidByte :
    (brokenHash.hashLen.toNat = 4 + 2 * ((0 % 9 + 1) * (0 / 9 + 1)) ∧ spells brokenHash 0 [0] ∧
      [0].length < 6 ∧ brokenHash.params.overrangePolicy ≠ .fault ∧ rlut (brokenHash.hashByte 1) = none) ∧
    (brokenTail.hashLen.toNat = 4 + 2 * ((1 % 9 + 1) * (1 / 9 + 1)) ∧
      spells brokenTail 0 [1, 0, 14, 58, 4, 80, 41] ∧ [1, 0, 14, 58, 4, 80, 41].length < 8 ∧
      dcField [1, 0, 14, 58, 4, 80, 41] < 2 ^ 24 ∧ ¬ 6 + 2 * 1 ≤ [1, 0, 14, 58, 4, 80, 41].length ∧
      rlut (brokenTail.hashByte 7) = none) := by
  unfold spells; decide +kernel

/-- `00Ew7N` at 0 x 0, and under Fault at 1024 x 1024 with the capacity of reset. -/
def sized (w : BitVec 16) : State :=
  underPolicy .fault
    { hashed [0x30, 0x30, 0x45, 0x77, 0x37, 0x4E] with width := w, height := w }

theorem witness_DecodeOutputChecksComeLast :
    (sized 0).hashLen.toNat = 4 + 2 * ((0 % 9 + 1) * (0 / 9 + 1)) ∧
    spells (sized 0) 0 [0, 0, 14, 58, 7, 23] ∧ [0, 0, 14, 58, 7, 23].length = 4 + 2 * ((0 % 9 + 1) * (0 / 9 + 1)) ∧
    dcField [0, 0, 14, 58, 7, 23] < 2 ^ 24 ∧ ((sized 0).width.toNat = 0 ∨ (sized 0).height.toNat = 0) ∧
    ((sized 1024).hashLen = (sized 0).hashLen ∧ (sized 1024).mem = (sized 0).mem ∧
      1 ≤ (sized 1024).width.toNat ∧ 1 ≤ (sized 1024).height.toNat ∧
      (sized 1024).params.pixCap < imageBytes (sized 1024)) := by
  unfold spells imageBytes; decide +kernel

/-- `00~~~~` and `10Ew4|~~` under Fault. -/
theorem witness_DecodeReportsTheFirstOverrangeField :
    (overDc.hashLen.toNat = 4 + 2 * ((0 % 9 + 1) * (0 / 9 + 1)) ∧ spells overDc 0 [0, 0, 82, 82, 82, 82] ∧
      overDc.params.overrangePolicy = .fault ∧ 6 ≤ [0, 0, 82, 82, 82, 82].length ∧
      2 ^ 24 ≤ dcField [0, 0, 82, 82, 82, 82]) ∧
    (overAc.hashLen.toNat = 4 + 2 * ((1 % 9 + 1) * (1 / 9 + 1)) ∧ spells overAc 0 [1, 0, 14, 58, 4, 80, 82, 82] ∧
      overAc.params.overrangePolicy = .fault ∧ 6 + 2 * 1 ≤ [1, 0, 14, 58, 4, 80, 82, 82].length ∧
      dcField [1, 0, 14, 58, 4, 80, 82, 82] < 2 ^ 24 ∧ 6859 ≤ acField [1, 0, 14, 58, 4, 80, 82, 82] 1) := by
  unfold spells; decide +kernel

/-- A command that completes with an error. -/
theorem witness_ErrorsArePrecise :
    answers (exec .qac (operands 81 0 State.reset)) (fun t => decide (t.errcode ≠ 0)) = true := by decide

/-- One command that writes each buffer, B83ENC at the last byte of HASH, and the addresses at the ends of the byte
clauses. -/
theorem witness_CommandsWriteOnlyTheirRegisters :
    answers (exec .decode twoCells) (fun t => decide (t.errcode = 0)) = true ∧
    answers (exec .idct (pictured 1 1 1 1 [])) (fun t => decide (t.errcode = 0)) = true ∧
    answers (exec .encode (pictured 1 1 1 1 [1, 2, 3])) (fun t => decide (t.errcode = 0)) = true ∧
    answers (exec (.b83enc 1) (operands 82 165 State.reset)) (fun t => decide (t.errcode = 0)) = true ∧
    (0x1FFF < 0x2000 ∨ 0x20A5 < 0x1FFF) ∧ (0x20A6 < 0x2000 ∨ 0x20A5 < 0x20A6) ∧ 0xFFFF < 0x10000 := by
  decide +kernel

/-- The state after reset, with an event of each kind to come. -/
theorem witness_StepKeepsTheInvariant (rest : List Event) :
    ({ State.reset with agenda := rest } : State).Inv :=
  { memCanonical := rfl
    coefCanonical := rfl
    memInWindows := fun c h => by cases h
    coefInFile := fun c h => by cases h
    errcodeLegal := rfl
    contextClear := fun _ => ⟨rfl, rfl, rfl⟩
    busyClear := fun h => by cases h
    qmaxRange := Nat.zero_le _
    maxvalLegal := .inl rfl
    paramsValid := rfl
    heldIdle := fun _ => rfl }

/-- QMAX running, for the first clause; for the second the block IDLE, and a read of CTRL. -/
theorem witness_BusyAccessesDoNotReachTheCommand :
    (State.reset.engine = .idle ∧ State.reset.resetHeld = false ∧
      ¬(Width.w64 = .w64 ∧ (0x008 : Addr) = 0x010)) ∧
    (running 0x21 State.reset).busy = true ∧ (running 0x21 State.reset).resetHeld = false ∧
    answers (completeRunning (running 0x21 State.reset)) (fun _ => true) = true := by decide

/-- A hash of 8 bytes and another memory that differs at HASH[8]. -/
theorem witness_DecodeIgnoresBytesBeyondTheHash :
    min twoCells.hashLen.toNat 166 ≤ 8 ∧
    (∀ a, a < 0x2000 + 8 ∨ 0x2000 + 166 ≤ a →
      { twoCells with mem := Store.write twoCells.mem 0x2008 0x21 }.byteAt a = twoCells.byteAt a) ∧
    answers (exec .decode twoCells) (fun _ => true) = true := by
  refine ⟨by decide, fun a h => ?_, by decide⟩
  unfold State.byteAt
  simp only
  rw [Store.read_write_ne _ _ (by omega)]

theorem witness_Base83RoundTrip : 82 < 83 ^ 1 ∧ b83decFrom [0x7E, 0x7E] 0 0 = .ok 6888 := by decide +kernel

theorem witness_ReverseTableUndoesTheAlphabet : 82 ≤ 82 ∧ rlut 0x7E = some 82 := by decide +kernel

theorem witness_EncodedHashIsWellFormed :
    answers (exec .encode (pictured 1 1 1 1 [1, 2, 3])) (fun t => decide (t.errcode = 0)) = true := by
  decide +kernel

/-- The largest finite value and the smallest subnormal, whose values are numbers, and a divisor that is not 0. The
other clauses: sums and differences that are 0, of numbers and of zeros; a divisor of 0; a NaN on either side;
infinities of the same sign and of both; a number that is 0 and one that is not beside an infinity. -/
theorem witness_ArithmeticRoundsTheExactResult :
    (value 0x7FEFFFFFFFFFFFFF#64).isSome = true ∧ (value 0x8000000000000001#64).isSome = true ∧
    value Fp.c1_0 = some 1 ∧ (1 : Rat) ≠ 0 ∧ value 0xBFF0000000000000#64 = some (-1) ∧
    (1 : Rat) + -1 = 0 ∧ (1 : Rat) - 1 = 0 ∧ value 0x8000000000000000#64 = some 0 ∧ value Fp.c0_0 = some 0 ∧
    Fp.isNaN 0x7FF0000000000001#64 = true ∧ Fp.isNaN 0xFFFFFFFFFFFFFFFF#64 = true ∧ true ≠ false := by
  decide +kernel

/-- Infinities and zeros as encodings: `1.0 - 1.0` is `+0.0`, `-1.0 / 0.0` is `-inf` (IEEE 754; log entry 16). -/
theorem test_special_operands :
    Fp.inf false = 0x7FF0000000000000#64 ∧ Fp.inf true = 0xFFF0000000000000#64 ∧
    Fp.sub Fp.c1_0 Fp.c1_0 = 0x0000000000000000#64 ∧
    Fp.div 0xBFF0000000000000#64 Fp.c0_0 = 0xFFF0000000000000#64 := by decide +kernel

/-- An integer that binary64 holds exactly, the largest below the bound. -/
theorem witness_FloatOfIntegersRounds : |(9007199254740991 : Int)| < 2 ^ 53 := by decide +kernel

/-- Numbers for the first two clauses, and a NaN on either side for the third. -/
theorem witness_ComparisonsFollowTheValues :
    value 0x8000000000000000#64 = some 0 ∧ value Fp.c0_0 = some 0 ∧ value Fp.c1_0 = some 1 ∧
    Fp.isNaN 0xFFF0000000000001#64 = true := by decide +kernel

/-- `-0.5`, whose floor is no truncation, a value in each range, and a NaN. -/
theorem witness_ClampsAndSignedPowerFollowTheirRules :
    value 0xBFE0000000000000#64 = some (-1 / 2) ∧ value 0x8000000000000000#64 = some 0 ∧
    value 0x3FE0000000000000#64 = some (1 / 2) ∧ value 0x4000000000000000#64 = some 2 ∧
    Fp.isNaN 0x7FF8000000000000#64 = true := by decide +kernel

end Sys2Proof.Tests
end

/-! SUPPORT. The value of a binary64 encoding as a function of its bits 62:0, and the order of the values. -/

namespace Sys2Proof.Machine.Fp

open Sys2Proof.Statements

/-! ## Sign and magnitude -/

/-- Bits 62:0 of an encoding. -/
def magnitude (x : F64) : Nat := x.toNat % 2 ^ 63

theorem infMagnitude_eq : infMagnitude = 9218868437227405312 := by decide

theorem expField_eq (x : F64) : expField x = magnitude x / 2 ^ 52 := by
  unfold expField magnitude; omega

theorem frac_eq (x : F64) : frac x = magnitude x % 2 ^ 52 := by
  unfold frac magnitude; omega

theorem sign_eq_msb (x : F64) : sign x = x.msb := (BitVec.msb_eq_decide x).symm

theorem toNat_withSign {b : Bool} {n : Nat} (hn : n < 2 ^ 63) :
    (withSign b n).toNat = n + if b then 2 ^ 63 else 0 := by
  unfold withSign
  rw [BitVec.toNat_ofNat]
  apply Nat.mod_eq_of_lt
  split <;> omega

theorem magnitude_withSign {b : Bool} {n : Nat} (hn : n < 2 ^ 63) : magnitude (withSign b n) = n := by
  rw [magnitude, toNat_withSign hn]
  split <;> omega

theorem sign_withSign {b : Bool} {n : Nat} (hn : n < 2 ^ 63) : sign (withSign b n) = b := by
  rw [sign, toNat_withSign hn]
  cases b
  · simpa using hn
  · simp

theorem toNat_withSign_mod_two {b : Bool} {n : Nat} (hn : n < 2 ^ 63) :
    (withSign b n).toNat % 2 = n % 2 := by
  rw [toNat_withSign hn]
  split <;> omega

@[simp] theorem magnitude_neg (x : F64) : magnitude (neg x) = magnitude x := by
  rw [magnitude, neg, BitVec.toNat_xor, Nat.xor_mod_two_pow]
  exact Nat.xor_zero _

@[simp] theorem sign_neg (x : F64) : sign (neg x) = !sign x := by
  rw [sign_eq_msb, sign_eq_msb, neg, BitVec.msb_xor]
  exact Bool.xor_true _

theorem key_eq (x : F64) : key x = if sign x then -(magnitude x : Int) else magnitude x := by
  have := x.isLt
  unfold key magnitude
  split
  · next h => simp only [sign, decide_eq_true_eq] at h; omega
  · next h => simp only [sign, decide_eq_true_eq] at h; omega

/-! ## The three classes of encodings -/

/-- The significand of a finite encoding, by its bits 62:0. -/
def significandOf (n : Nat) : Nat := n - (n / 2 ^ 52 - 1) * 2 ^ 52

/-- The exponent of a finite encoding's last place, by its bits 62:0. -/
def placeOf (n : Nat) : Int := (n / 2 ^ 52 - 1 : Nat) - 1074

theorem significandOf_lt (n : Nat) : significandOf n < 2 ^ 53 := by
  unfold significandOf; omega

theorem unpack_of_lt {x : F64} (h : magnitude x < infMagnitude) :
    unpack x = .fin (sign x) (significandOf (magnitude x)) (placeOf (magnitude x)) := by
  rw [infMagnitude_eq] at h
  unfold unpack significandOf placeOf
  rw [expField_eq, frac_eq, if_neg (by omega)]
  split
  · congr 1 <;> omega
  · congr 1 <;> omega

theorem unpack_of_eq {x : F64} (h : magnitude x = infMagnitude) : unpack x = .inf (sign x) := by
  rw [infMagnitude_eq] at h
  unfold unpack
  rw [expField_eq, frac_eq, if_pos (by omega), if_pos (by omega)]

theorem unpack_of_gt {x : F64} (h : infMagnitude < magnitude x) : unpack x = .nan := by
  have : magnitude x < 2 ^ 63 := Nat.mod_lt _ (by decide)
  rw [infMagnitude_eq] at h
  unfold unpack
  rw [expField_eq, frac_eq, if_pos (by omega), if_neg (by omega)]

theorem isNaN_iff (x : F64) : isNaN x = true ↔ infMagnitude < magnitude x := by
  have : magnitude x < 2 ^ 63 := Nat.mod_lt _ (by decide)
  rw [infMagnitude_eq, isNaN, expField_eq, frac_eq, Bool.and_eq_true, decide_eq_true_iff,
    decide_eq_true_iff]
  omega

theorem unpack_of_isNaN {x : F64} (h : isNaN x = true) : unpack x = .nan :=
  unpack_of_gt ((isNaN_iff x).1 h)

@[simp] theorem isNaN_neg (x : F64) : isNaN (neg x) = isNaN x := by
  rw [Bool.eq_iff_iff, isNaN_iff, isNaN_iff, magnitude_neg]

@[simp] theorem isNaN_nanOf (src : NanSource) (x y : F64) : isNaN (nanOf src x y) = true := by
  rw [isNaN_iff, nanOf, magnitude_withSign (by rw [infMagnitude_eq]; split <;> omega)]
  split <;> omega

@[simp] theorem magnitude_inf (b : Bool) : magnitude (inf b) = infMagnitude :=
  magnitude_withSign (by decide)

@[simp] theorem sign_inf (b : Bool) : sign (inf b) = b := sign_withSign (by decide)

@[simp] theorem isNaN_inf (b : Bool) : isNaN (inf b) = false := by cases b <;> decide

@[simp] theorem unpack_inf (b : Bool) : unpack (inf b) = .inf b := by
  rw [unpack_of_eq (magnitude_inf b), sign_inf]

@[simp] theorem neg_inf (b : Bool) : neg (inf b) = inf !b := by cases b <;> decide

@[simp] theorem sign_zero (b : Bool) : sign (zero b) = b := sign_withSign (by decide)

/-! ## The value of a magnitude -/

/-- The value of bits 62:0, as if there were no largest exponent: infinity has the value `2 ^ 1024`. -/
def magValue (n : Nat) : Rat := significandOf n * (2 : Rat) ^ placeOf n

/-- A rational with the sign of an encoding. -/
def signed (b : Bool) (a : Rat) : Rat := (if b then -1 else 1) * a

@[simp] theorem signed_true (a : Rat) : signed true a = -a := neg_one_mul a

@[simp] theorem signed_false (a : Rat) : signed false a = a := one_mul a

theorem abs_signed (b : Bool) (a : Rat) : |signed b a| = |a| := by cases b <;> simp

theorem signed_eq_zero {b : Bool} {a : Rat} : signed b a = 0 ↔ a = 0 := by cases b <;> simp

theorem signed_mul_signed (b c : Bool) (u v : Rat) :
    signed b u * signed c v = signed (b ^^ c) (u * v) := by cases b <;> cases c <;> simp

theorem signed_div_signed (b c : Bool) (u v : Rat) :
    signed b u / signed c v = signed (b ^^ c) (u / v) := by
  cases b <;> cases c <;> simp [neg_div, div_neg]

theorem signed_mul (b : Bool) (u v : Rat) : signed b u * v = signed b (u * v) := mul_assoc _ _ _

theorem signed_sub (b : Bool) (u v : Rat) : signed b u - signed b v = signed b (u - v) := (mul_sub _ _ _).symm

theorem signed_natAbs (i : Int) : signed (decide (i < 0)) i.natAbs = i := by
  rcases lt_or_ge i 0 with hi | hi
  · simp [hi, abs_of_neg]
  · simp [hi.not_gt, abs_of_nonneg hi]

/-- The value by exponent and significand, also where a significand rounded up to `2^53` carries into the exponent
field. -/
theorem magValue_add {j s : Nat} (hs : s ≤ 2 ^ 53) (h : j = 0 ∨ 2 ^ 52 ≤ s) :
    magValue (j * 2 ^ 52 + s) = s * (2 : Rat) ^ ((j : Int) - 1074) := by
  unfold magValue significandOf placeOf
  rcases hs.lt_or_eq with hlt | rfl
  · have hj : (j * 2 ^ 52 + s) / 2 ^ 52 - 1 = j := by omega
    rw [hj, Nat.add_sub_cancel_left]
  · have hj : (j * 2 ^ 52 + 2 ^ 53) / 2 ^ 52 - 1 = j + 1 := by omega
    have hsig : j * 2 ^ 52 + 2 ^ 53 - (j + 1) * 2 ^ 52 = 2 ^ 52 := by omega
    have hplace : ((j + 1 : Nat) : Int) - 1074 = ((j : Int) - 1074) + 1 := by omega
    rw [hj, hsig, hplace, zpow_add_one₀ (by norm_num)]
    push_cast
    ring

@[simp] theorem magValue_zero : magValue 0 = 0 := by simp [magValue, significandOf]

theorem strictMono_magValue : StrictMono magValue := by
  refine strictMono_nat_of_lt_succ fun n => ?_
  have hs := significandOf_lt n
  have hdec : n = (n / 2 ^ 52 - 1) * 2 ^ 52 + significandOf n := by unfold significandOf; omega
  have hnorm : n / 2 ^ 52 - 1 = 0 ∨ 2 ^ 52 ≤ significandOf n := by unfold significandOf; omega
  generalize n / 2 ^ 52 - 1 = j at hdec hnorm
  generalize significandOf n = s at hs hdec hnorm
  rw [hdec, Nat.add_assoc, magValue_add hs.le hnorm, magValue_add hs (by omega)]
  gcongr
  exact Nat.lt_succ_self s

theorem magValue_nonneg (n : Nat) : 0 ≤ magValue n :=
  magValue_zero ▸ strictMono_magValue.monotone n.zero_le

theorem magValue_eq_zero {n : Nat} : magValue n = 0 ↔ n = 0 := by
  rw [← magValue_zero, strictMono_magValue.injective.eq_iff]

/-- The values that are numbers are those of the magnitudes below infinity's. -/
theorem value_eq_some_iff {x : F64} {a : Rat} :
    value x = some a ↔ magnitude x < infMagnitude ∧ a = signed (sign x) (magValue (magnitude x)) := by
  unfold value
  rcases lt_trichotomy (magnitude x) infMagnitude with h | h | h
  · simp only [unpack_of_lt h, h, true_and, Option.some.injEq]
    rw [signed, magValue, mul_assoc, eq_comm]
  · simp [unpack_of_eq h, h]
  · simp [unpack_of_gt h, h.not_gt]

theorem unpack_of_value {x : F64} {a : Rat} (h : value x = some a) :
    ∃ m e, unpack x = .fin (sign x) m e ∧ m < 2 ^ 53 ∧ a = signed (sign x) (m * (2 : Rat) ^ e) := by
  obtain ⟨hlt, rfl⟩ := value_eq_some_iff.1 h
  exact ⟨_, _, unpack_of_lt hlt, significandOf_lt _, rfl⟩

theorem isNaN_of_value {x : F64} {a : Rat} (h : value x = some a) : isNaN x = false := by
  rw [Bool.eq_false_iff, Ne, isNaN_iff]
  exact (value_eq_some_iff.1 h).1.not_gt

theorem value_withSign {b : Bool} {n : Nat} (hn : n < infMagnitude) :
    value (withSign b n) = some (signed b (magValue n)) := by
  have hlt : n < 2 ^ 63 := hn.trans (by decide)
  rw [value_eq_some_iff, magnitude_withSign hlt, sign_withSign hlt]
  exact ⟨hn, rfl⟩

theorem value_neg {x : F64} {a : Rat} (h : value x = some a) : value (neg x) = some (-a) := by
  obtain ⟨hlt, rfl⟩ := value_eq_some_iff.1 h
  rw [value_eq_some_iff, magnitude_neg, sign_neg]
  refine ⟨hlt, ?_⟩
  cases sign x <;> simp

/-! ## The order of the values -/

/-- The value of a place in the order of encodings. -/
def keyValue (k : Int) : Rat := signed (decide (k < 0)) (magValue k.natAbs)

theorem strictMono_keyValue : StrictMono keyValue := by
  apply strictMono_of_odd_strictMonoOn_nonneg
  · intro k
    rcases lt_trichotomy k 0 with hk | rfl | hk
    · simp [keyValue, hk, hk.not_gt]
    · simp [keyValue]
    · simp [keyValue, hk, hk.not_gt]
  · intro k (hk : 0 ≤ k) l (hl : 0 ≤ l) hkl
    simp only [keyValue, hk.not_gt, hl.not_gt, decide_false, signed_false]
    exact strictMono_magValue (by omega)

theorem value_eq_keyValue {x : F64} {a : Rat} (h : value x = some a) : a = keyValue (key x) := by
  obtain ⟨-, rfl⟩ := value_eq_some_iff.1 h
  rw [key_eq, keyValue]
  cases sign x with
  | false => simp [(Int.natCast_nonneg _).not_gt]
  | true =>
    rcases Nat.eq_zero_or_pos (magnitude x) with h0 | h0
    · simp [h0]
    · simp [h0]

theorem lt_of_isNaN {x y : F64} (h : isNaN x = true ∨ isNaN y = true) : lt x y = false := by
  unfold lt; rcases h with h | h <;> simp [h]

theorem le_of_isNaN {x y : F64} (h : isNaN x = true ∨ isNaN y = true) : le x y = false := by
  unfold le; rcases h with h | h <;> simp [h]

theorem lt_iff_key {x y : F64} (hx : isNaN x = false) (hy : isNaN y = false) :
    lt x y = true ↔ key x < key y := by simp [lt, hx, hy]

theorem le_iff_key {x y : F64} (hx : isNaN x = false) (hy : isNaN y = false) :
    le x y = true ↔ key x ≤ key y := by simp [le, hx, hy]

theorem lt_eq_false_of_lt {x y : F64} (h : lt x y = true) : lt y x = false := by
  simp only [lt, Bool.and_eq_true, decide_eq_true_eq] at h
  obtain ⟨-, hkey⟩ := h
  simp [lt, hkey.le]

section Finite

variable {x y : F64} {a b : Rat}

theorem lt_iff_of_value (hx : value x = some a) (hy : value y = some b) : lt x y = true ↔ a < b := by
  rw [lt_iff_key (isNaN_of_value hx) (isNaN_of_value hy), value_eq_keyValue hx, value_eq_keyValue hy,
    strictMono_keyValue.lt_iff_lt]

theorem le_iff_of_value (hx : value x = some a) (hy : value y = some b) : le x y = true ↔ a ≤ b := by
  rw [le_iff_key (isNaN_of_value hx) (isNaN_of_value hy), value_eq_keyValue hx, value_eq_keyValue hy,
    strictMono_keyValue.le_iff_le]

/-- The place of a finite value lies strictly between those of the infinities. -/
theorem key_between_inf (hx : value x = some a) : key (inf true) < key x ∧ key x < key (inf false) := by
  obtain ⟨hlt, -⟩ := value_eq_some_iff.1 hx
  rw [key_eq, key_eq, key_eq, magnitude_inf, magnitude_inf, sign_inf, sign_inf]
  simp only [if_true, Bool.false_eq_true, if_false]
  split <;> omega

theorem lt_inf_false (hx : value x = some a) : lt x (inf false) = true :=
  (lt_iff_key (isNaN_of_value hx) (isNaN_inf _)).2 (key_between_inf hx).2

theorem inf_true_lt (hx : value x = some a) : lt (inf true) x = true :=
  (lt_iff_key (isNaN_inf _) (isNaN_of_value hx)).2 (key_between_inf hx).1

theorem not_inf_false_le (hx : value x = some a) : le (inf false) x = false := by
  rw [Bool.eq_false_iff, Ne, le_iff_key (isNaN_inf _) (isNaN_of_value hx)]
  exact (key_between_inf hx).2.not_ge

theorem not_le_inf_true (hx : value x = some a) : le x (inf true) = false := by
  rw [Bool.eq_false_iff, Ne, le_iff_key (isNaN_of_value hx) (isNaN_inf _)]
  exact (key_between_inf hx).1.not_ge

end Finite

/-- Settles O59: the place of a number in the order of encodings rises strictly with its value. -/
theorem comparisonsFollowTheValues : Obligations.ComparisonsFollowTheValues := by
  intro x y
  refine ⟨fun a b hx hy => ⟨lt_iff_of_value hx hy, le_iff_of_value hx hy⟩, fun a hx => ?_,
    fun h => ⟨lt_of_isNaN h, le_of_isNaN h⟩⟩
  exact ⟨lt_inf_false hx, inf_true_lt hx, not_inf_false_le hx, not_le_inf_true hx⟩

end Sys2Proof.Machine.Fp

/-! SUPPORT. Rounding to nearest, ties to even: `round` against exact rationals. -/

namespace Sys2Proof.Machine.Fp

open Sys2Proof.Statements

/-! ## Rounding to an integer -/

/-- `s` is the integer nearest to `x`, the even one of two equally near. -/
def NearestEven (s : Nat) (x : Rat) : Prop := |s - x| ≤ 1 / 2 ∧ (|s - x| = 1 / 2 → s % 2 = 0)

theorem nearestEven_self (s : Nat) : NearestEven s s := by simp [NearestEven]

theorem NearestEven.le_of_ne {s t : Nat} {x : Rat} (h : NearestEven s x) (hne : t ≠ s) :
    |s - x| ≤ |t - x| ∧ (|s - x| = |t - x| → s % 2 = 0) := by
  obtain ⟨hle, htie⟩ := h
  have hone : (1 : Rat) ≤ |(t : Rat) - s| := by
    have : (1 : Int) ≤ |(t : Int) - s| := Int.one_le_abs (by omega)
    exact_mod_cast this
  have htri : |(t : Rat) - s| ≤ |t - x| + |s - x| := by
    rw [abs_sub_comm (s : Rat) x]; exact abs_sub_le _ _ _
  exact ⟨by linarith, fun heq => htie (by linarith)⟩

theorem nearestEven_div_iff {s d : Nat} {y : Rat} (hd : 0 < d) :
    NearestEven s (y / d) ↔ |2 * (d * s - y)| ≤ d ∧ (|2 * (d * s - y)| = d → s % 2 = 0) := by
  have hd' : (0 : Rat) < d := by exact_mod_cast hd
  have habs : |2 * (d * s - y)| = 2 * d * |s - y / d| := by
    rw [← abs_of_pos (mul_pos two_pos hd'), ← abs_mul]
    congr 1
    field_simp
  have hle : 2 * (d : Rat) * |s - y / d| ≤ d ↔ |s - y / d| ≤ 1 / 2 := by
    constructor <;> intro h <;> nlinarith
  have heq : 2 * (d : Rat) * |s - y / d| = d ↔ |s - y / d| = 1 / 2 := by
    constructor <;> intro h
    · nlinarith
    · rw [h]; ring
  rw [NearestEven, habs, hle, heq]

/-- The distance of `m` from the multiple of `2^k` that `shiftRightRound` takes is at most half of `2^k`. -/
theorem shiftRightRound_dist (m k : Nat) :
    |2 * ((2 ^ k : Nat) * (shiftRightRound m k : Int) - m)| ≤ (2 ^ k : Nat) ∧
    (|2 * ((2 ^ k : Nat) * (shiftRightRound m k : Int) - m)| = (2 ^ k : Nat) →
      shiftRightRound m k % 2 = 0) := by
  unfold shiftRightRound
  have hpos : 0 < 2 ^ k := Nat.two_pow_pos k
  have hdiv : (m : Int) = (2 ^ k : Nat) * (m / 2 ^ k : Nat) + (m % 2 ^ k : Nat) := by
    exact_mod_cast (Nat.div_add_mod m (2 ^ k)).symm
  have hmod := Nat.mod_lt m hpos
  generalize m / 2 ^ k = t at *
  generalize m % 2 ^ k = r at *
  generalize 2 ^ k = d at *
  rw [hdiv]
  dsimp only
  split
  · have : 2 * ((d : Int) * ((t + 1 : Nat) : Int) - (d * t + r)) = 2 * (d - r) := by push_cast; ring
    rw [this, abs_of_nonneg (by omega)]
    omega
  · have : 2 * ((d : Int) * (t : Int) - (d * t + r)) = -(2 * r) := by ring
    rw [this, abs_neg, abs_of_nonneg (by omega)]
    omega

/-- What `m` may stand for in units of its last place: itself, or, where it is odd and has more than two bits that
rounding removes, anything strictly between its neighbours. So it can stand for a quotient of which the last bit
says that a remainder is left. -/
def StandsFor (m : Nat) (y : Rat) : Prop := y = m ∨ 2 ^ 54 ≤ m ∧ m % 2 = 1 ∧ |y - m| < 1

theorem StandsFor.nonneg {m : Nat} {y : Rat} (h : StandsFor m y) : 0 ≤ y := by
  rcases h with rfl | ⟨-, hodd, hnear⟩
  · positivity
  · have : (1 : Rat) ≤ m := by exact_mod_cast (by omega : 1 ≤ m)
    linarith [(abs_lt.1 hnear).1]

/-- What is strictly between the neighbours of an odd `m` rounds as `m` does where at least two bits are removed: then
no tie and no multiple of `2^k` lies strictly between. -/
theorem nearestEven_shiftRightRound {m k : Nat} {y : Rat} (h : y = m ∨ 2 ≤ k ∧ m % 2 = 1 ∧ |y - m| < 1) :
    NearestEven (shiftRightRound m k) (y / 2 ^ k) := by
  have hdist := shiftRightRound_dist m k
  have hcast : (2 : Rat) ^ k = (2 ^ k : Nat) := by push_cast; rfl
  rw [hcast, nearestEven_div_iff (Nat.two_pow_pos k)]
  generalize shiftRightRound m k = s at *
  rcases h with rfl | ⟨hk, hodd, hy⟩
  · exact_mod_cast hdist
  · obtain ⟨i, rfl⟩ : ∃ i, k = i + 2 := ⟨k - 2, by omega⟩
    have hstrict : |2 * ((2 ^ (i + 2) : Nat) * (s : Int) - m)| ≤ (2 ^ (i + 2) : Nat) - 2 := by
      have hfour : ((2 ^ (i + 2) : Nat) : Int) = 4 * (2 ^ i : Nat) := by push_cast; ring
      rw [hfour] at hdist ⊢
      rw [mul_assoc 4] at hdist ⊢
      generalize ((2 ^ i : Nat) : Int) * s = c at *
      have := hdist.1
      rw [abs_le] at this ⊢
      omega
    have hstrict' : |2 * ((2 ^ (i + 2) : Nat) * (s : Rat) - m)| ≤ (2 ^ (i + 2) : Nat) - 2 := by
      exact_mod_cast hstrict
    have hlt : |2 * ((2 ^ (i + 2) : Nat) * (s : Rat) - y)| < (2 ^ (i + 2) : Nat) := by
      rw [abs_le] at hstrict'
      rw [abs_lt] at hy ⊢
      constructor <;> linarith
    exact ⟨hlt.le, fun heq => absurd heq hlt.ne⟩

/-! ## Rounding to a magnitude -/

/-- `N` is the magnitude nearest to `X`, the even one of two equally near, if exponents had no bound. -/
def NearestMag (N : Nat) (X : Rat) : Prop :=
  ∀ n, |magValue N - X| ≤ |magValue n - X| ∧ (|magValue N - X| = |magValue n - X| → n = N ∨ N % 2 = 0)

theorem nearestMag_zero : NearestMag 0 0 := fun n => by simp

/-- A magnitude that is not below the binade of the result is a multiple of the result's last place. -/
theorem exists_magValue_eq_mul {j n : Nat} (h : j = 0 ∨ (j + 1) * 2 ^ 52 ≤ n) :
    ∃ t : Nat, magValue n = t * (2 : Rat) ^ ((j : Int) - 1074) := by
  refine ⟨significandOf n * 2 ^ (n / 2 ^ 52 - 1 - j), ?_⟩
  have hplace : placeOf n = ((n / 2 ^ 52 - 1 - j : Nat) : Int) + ((j : Int) - 1074) := by
    unfold placeOf; omega
  rw [magValue, hplace, zpow_add₀ two_ne_zero, zpow_natCast, ← mul_assoc]
  push_cast
  rfl

/-- A significand that is nearest on the grid of its binade is nearest among all magnitudes: those above lie on that
grid, and those below are farther than the binade's first. -/
theorem nearestMag_of_nearestEven {j s : Nat} {x : Rat} (hs : s ≤ 2 ^ 53) (hx : NearestEven s x)
    (hj : j = 0 ∨ 2 ^ 52 ≤ s ∧ 2 ^ 52 ≤ x) :
    NearestMag (j * 2 ^ 52 + s) (x * (2 : Rat) ^ ((j : Int) - 1074)) := by
  intro n
  have hN := magValue_add hs (hj.imp_right And.left)
  have hu : (0 : Rat) < (2 : Rat) ^ ((j : Int) - 1074) := by positivity
  have hparity : (j * 2 ^ 52 + s) % 2 = s % 2 := by omega
  have hscale (t : Rat) : |t * (2 : Rat) ^ ((j : Int) - 1074) - x * (2 : Rat) ^ ((j : Int) - 1074)|
      = |t - x| * (2 : Rat) ^ ((j : Int) - 1074) := by
    rw [← sub_mul, abs_mul, abs_of_pos hu]
  by_cases hn : j = 0 ∨ (j + 1) * 2 ^ 52 ≤ n
  · obtain ⟨t, hmul⟩ := exists_magValue_eq_mul hn
    by_cases hts : t = s
    · have hsame : n = j * 2 ^ 52 + s := strictMono_magValue.injective (by rw [hmul, hN, hts])
      exact ⟨by rw [hsame], fun _ => .inl hsame⟩
    · obtain ⟨hle, htie⟩ := hx.le_of_ne hts
      rw [hN, hmul, hscale, hscale, hparity]
      exact ⟨by gcongr, fun heq => .inr (htie (mul_right_cancel₀ hu.ne' heq))⟩
  · rw [not_or, not_le] at hn
    obtain ⟨hj0, hn⟩ := hn
    obtain ⟨hs52, hx52⟩ := hj.resolve_left hj0
    have hfirst : magValue ((j + 1) * 2 ^ 52) = ((2 ^ 52 : Nat) : Rat) * (2 : Rat) ^ ((j : Int) - 1074) := by
      rw [← magValue_add (by decide) (.inr le_rfl), Nat.succ_mul]
    have hbelow : magValue n < 2 ^ 52 * (2 : Rat) ^ ((j : Int) - 1074) := by
      have := strictMono_magValue hn
      rw [hfirst] at this
      exact_mod_cast this
    have hnear : |(s : Rat) - x| ≤ x - 2 ^ 52 := by
      by_cases h52 : 2 ^ 52 = s
      · subst h52; push_cast; rw [abs_of_nonpos (by linarith)]; linarith
      · have := (hx.le_of_ne h52).1
        have hx' : (0 : Rat) ≤ x - (2 ^ 52 : Nat) := by push_cast; linarith
        rw [abs_sub_comm ((2 ^ 52 : Nat) : Rat), abs_of_nonneg hx'] at this
        exact_mod_cast this
    have hlt : |magValue (j * 2 ^ 52 + s) - x * (2 : Rat) ^ ((j : Int) - 1074)|
        < |magValue n - x * (2 : Rat) ^ ((j : Int) - 1074)| := by
      rw [hN, hscale, abs_sub_comm (magValue n)]
      refine lt_of_lt_of_le ?_ (le_abs_self _)
      calc |(s : Rat) - x| * (2 : Rat) ^ ((j : Int) - 1074)
          ≤ (x - 2 ^ 52) * (2 : Rat) ^ ((j : Int) - 1074) := by gcongr
        _ < x * (2 : Rat) ^ ((j : Int) - 1074) - magValue n := by rw [sub_mul]; linarith
    exact ⟨hlt.le, fun heq => absurd heq hlt.ne⟩

/-! ## Overflow -/

theorem magValue_infMagnitude : magValue infMagnitude = (2 ^ 54 - 1) * 2 ^ 970 + 2 ^ 970 := by
  have hplace : ((2046 : Nat) : Int) - 1074 = (970 + 2 : Nat) := by decide
  rw [show infMagnitude = 2046 * 2 ^ 52 + 2 ^ 52 by decide, magValue_add (by decide) (.inr le_rfl), hplace,
    zpow_natCast, pow_add]
  generalize (2 : Rat) ^ 970 = u
  push_cast
  ring

theorem magValue_pred_infMagnitude :
    magValue (infMagnitude - 1) = (2 ^ 54 - 1) * 2 ^ 970 - 2 ^ 970 := by
  have hplace : ((2045 : Nat) : Int) - 1074 = (970 + 1 : Nat) := by decide
  rw [show infMagnitude - 1 = 2045 * 2 ^ 52 + (2 ^ 53 - 1) by decide, magValue_add (by decide) (by decide), hplace,
    zpow_natCast, pow_add]
  generalize (2 : Rat) ^ 970 = u
  push_cast
  ring

/-- Rounding overflows exactly from the midpoint between the largest finite value and infinity's on: the largest
finite magnitude is odd, so the tie goes to infinity. -/
theorem NearestMag.infMagnitude_le_iff {N : Nat} {X : Rat} (h : NearestMag N X) :
    infMagnitude ≤ N ↔ (2 ^ 54 - 1) * 2 ^ 970 ≤ X := by
  have hinf := magValue_infMagnitude
  have hmax := magValue_pred_infMagnitude
  have hu : (0 : Rat) < 2 ^ 970 := by positivity
  generalize (2 : Rat) ^ 970 = u at *
  constructor
  · intro hN
    have hNinf := strictMono_magValue.monotone hN
    by_contra! hX
    have := (h (infMagnitude - 1)).1
    rw [abs_of_pos (by linarith)] at this
    rcases abs_cases (magValue (infMagnitude - 1) - X) with ⟨heq, -⟩ | ⟨heq, -⟩ <;> linarith
  · intro hX
    by_contra! hN
    have hNmax : magValue N ≤ magValue (infMagnitude - 1) := strictMono_magValue.monotone (by omega)
    obtain ⟨hle, htie⟩ := h infMagnitude
    rw [abs_of_neg (by linarith : magValue N - X < 0)] at hle htie
    rcases abs_cases (magValue infMagnitude - X) with ⟨heq, -⟩ | ⟨heq, -⟩
    · have hNeq : N = infMagnitude - 1 := strictMono_magValue.injective (by linarith)
      have hodd : (infMagnitude - 1) % 2 = 1 := by decide
      have := htie (by rw [heq]; linarith)
      omega
    · linarith

/-- A signed magnitude is nearest among the values of both signs if it is nearest among the magnitudes: a number
of the other sign is no nearer than zero is. -/
theorem NearestMag.signed_le {N : Nat} {X : Rat} (h : NearestMag N X) (hX : 0 ≤ X) (b c : Bool) (n : Nat) :
    |signed b (magValue N) - signed b X| ≤ |signed c (magValue n) - signed b X| ∧
    (|signed b (magValue N) - signed b X| = |signed c (magValue n) - signed b X| →
      signed c (magValue n) = signed b (magValue N) ∨ N % 2 = 0) := by
  rw [signed_sub, abs_signed]
  by_cases hcb : c = b
  · subst hcb
    rw [signed_sub, abs_signed]
    exact ⟨(h n).1, fun heq => ((h n).2 heq).imp_left (congrArg fun k => signed c (magValue k))⟩
  · have hn := magValue_nonneg n
    have hopp : |signed c (magValue n) - signed b X| = magValue n + X := by
      rw [Bool.eq_not.2 hcb, show signed (!b) (magValue n) = signed b (-magValue n) by cases b <;> simp,
        signed_sub, abs_signed, abs_of_nonpos (by linarith)]
      ring
    obtain ⟨hle, htie⟩ := h 0
    rw [magValue_zero, zero_sub, abs_neg, abs_of_nonneg hX] at hle htie
    rw [hopp]
    refine ⟨by linarith, fun heq => (htie (by linarith)).imp_left fun h0 => ?_⟩
    subst h0
    rw [magValue_zero, signed_eq_zero.2 (by linarith : magValue n = 0), signed_eq_zero.2 rfl]

/-- The encoding made of a sign and the nearest magnitude is the signed number rounded to binary64. -/
theorem NearestMag.roundsTo_withSign {N : Nat} {X : Rat} (h : NearestMag N X) (hX : 0 ≤ X) (b : Bool) :
    roundsTo (withSign b (min N infMagnitude)) (signed b X) := by
  rw [roundsTo, abs_signed, abs_of_nonneg hX, ← h.infMagnitude_le_iff]
  constructor
  · intro hN
    have hpos : 0 < X := lt_of_lt_of_le (by positivity) (h.infMagnitude_le_iff.1 hN)
    have hsign : decide (signed b X < 0) = b := by cases b <;> simp [hpos, hpos.le]
    rw [min_eq_right hN, hsign, inf]
  · intro hlt
    have hN : N < infMagnitude := by rw [← not_le, h.infMagnitude_le_iff]; exact hlt.not_ge
    rw [min_eq_left hN.le]
    refine ⟨_, value_withSign hN, fun y u hy => ?_⟩
    obtain ⟨-, rfl⟩ := value_eq_some_iff.1 hy
    rw [toNat_withSign_mod_two (hN.trans (by decide))]
    exact h.signed_le hX b (sign y) (magnitude y)

/-! ## `round` -/

/-- The exponent of the last place of a rounded `m * 2^e`. -/
def lastPlace (m : Nat) (e : Int) : Int := max ((Nat.log2 m : Int) + e - 52) (-1074)

/-- The significand of a rounded `m * 2^e`. -/
def significand (m : Nat) (e : Int) : Nat :=
  if lastPlace m e ≤ e then m * 2 ^ (e - lastPlace m e).toNat
  else shiftRightRound m (lastPlace m e - e).toNat

/-- The bits 62:0 of a rounded `m * 2^e`, if exponents had no bound. -/
def roundMag (m : Nat) (e : Int) : Nat :=
  if m = 0 then 0 else (lastPlace m e + 1074).toNat * 2 ^ 52 + significand m e

theorem round_eq_withSign (b : Bool) (m : Nat) (e : Int) :
    round b m e = withSign b (min (roundMag m e) infMagnitude) := by
  unfold round roundMag
  split
  · rfl
  · rfl

theorem sign_round (b : Bool) (m : Nat) (e : Int) : sign (round b m e) = b := by
  rw [round_eq_withSign]
  exact sign_withSign (lt_of_le_of_lt (min_le_right _ _) (by decide))

/-- A number of at most 53 bits is its own significand, shifted up. -/
theorem significand_of_le {m : Nat} {e : Int} (hm : m ≠ 0) (hq : lastPlace m e ≤ e) :
    m < 2 ^ 53 ∧ significand m e < 2 ^ 53 ∧ (lastPlace m e = -1074 ∨ 2 ^ 52 ≤ significand m e) ∧
    (significand m e : Rat) = m * (2 : Rat) ^ (e - lastPlace m e) := by
  have hlow := Nat.log2_self_le hm
  have hhigh : m < 2 ^ (m.log2 + 1) := Nat.lt_log2_self
  obtain ⟨i, hi⟩ : ∃ i : Nat, e - lastPlace m e = i := Int.eq_ofNat_of_zero_le (by omega)
  have hbits : m.log2 + i ≤ 52 ∧ (lastPlace m e = -1074 ∨ m.log2 + i = 52) := by
    unfold lastPlace at hi ⊢; omega
  have hsig : significand m e = m * 2 ^ i := by rw [significand, if_pos hq, hi, Int.toNat_natCast]
  rw [hsig, hi]
  refine ⟨?_, ?_, hbits.2.imp_right fun h52 => ?_, by push_cast; rfl⟩
  · exact hhigh.trans_le (Nat.pow_le_pow_right two_pos (by omega))
  · calc m * 2 ^ i < 2 ^ (m.log2 + 1) * 2 ^ i := by gcongr
      _ ≤ 2 ^ 53 := by rw [← pow_add]; exact Nat.pow_le_pow_right two_pos (by omega)
  · calc 2 ^ 52 = 2 ^ m.log2 * 2 ^ i := by rw [← pow_add, h52]
      _ ≤ m * 2 ^ i := by gcongr

/-- A longer number is shifted down, by at least two bits if it has 55. -/
theorem significand_of_gt {m : Nat} {e : Int} {y : Rat} (hm : m ≠ 0) (hq : e < lastPlace m e) (hy : StandsFor m y) :
    significand m e ≤ 2 ^ 53 ∧ NearestEven (significand m e) (y * (2 : Rat) ^ (e - lastPlace m e)) ∧
    (lastPlace m e = -1074 ∨ 2 ^ 52 ≤ significand m e ∧ 2 ^ 52 ≤ y * (2 : Rat) ^ (e - lastPlace m e)) := by
  have hlow := Nat.log2_self_le hm
  have hhigh : m < 2 ^ (m.log2 + 1) := Nat.lt_log2_self
  obtain ⟨k, hk⟩ : ∃ k : Nat, lastPlace m e - e = k := Int.eq_ofNat_of_zero_le (by omega)
  have hbits : m.log2 ≤ k + 52 ∧ (lastPlace m e = -1074 ∨ m.log2 = k + 52) := by
    unfold lastPlace at hk ⊢; omega
  have hsig : significand m e = shiftRightRound m k := by
    rw [significand, if_neg hq.not_ge, hk, Int.toNat_natCast]
  have hscale : y * (2 : Rat) ^ (e - lastPlace m e) = y / 2 ^ k := by
    rw [← neg_sub, hk, zpow_neg, zpow_natCast, div_eq_mul_inv]
  have hdiv : m / 2 ^ k ≤ shiftRightRound m k ∧ shiftRightRound m k ≤ m / 2 ^ k + 1 := by
    unfold shiftRightRound; dsimp only; split <;> omega
  rw [hsig, hscale]
  refine ⟨hdiv.2.trans ?_, nearestEven_shiftRightRound ?_, hbits.2.imp_right fun h52 => ?_⟩
  · rw [Nat.succ_le_iff, Nat.div_lt_iff_lt_mul (Nat.two_pow_pos k), ← pow_add]
    exact hhigh.trans_le (Nat.pow_le_pow_right two_pos (by omega))
  · refine hy.imp_right fun ⟨h54, hodd, hnear⟩ => ⟨?_, hodd, hnear⟩
    have : 54 < m.log2 + 1 := (Nat.pow_lt_pow_iff_right one_lt_two).1 (h54.trans_lt hhigh)
    omega
  · rw [h52, pow_add] at hlow
    have hy52 : ((2 ^ k * 2 ^ 52 : Nat) : Rat) ≤ y := by
      rcases hy with rfl | ⟨-, hodd, hnear⟩
      · exact_mod_cast hlow
      · have heven : 2 ^ k * 2 ^ 52 % 2 = 0 := Nat.mod_eq_zero_of_dvd (dvd_mul_of_dvd_right (by decide) _)
        have hstep : 2 ^ k * 2 ^ 52 + 1 ≤ m := by
          generalize 2 ^ k * 2 ^ 52 = c at *
          omega
        have hstep' : ((2 ^ k * 2 ^ 52 : Nat) : Rat) + 1 ≤ m := by exact_mod_cast hstep
        linarith [(abs_lt.1 hnear).1]
    refine ⟨le_trans ?_ hdiv.1, ?_⟩
    · rwa [Nat.le_div_iff_mul_le (Nat.two_pow_pos k), mul_comm]
    · rw [le_div_iff₀ (by positivity), mul_comm]
      exact_mod_cast hy52

/-- The bits that `round` computes are the magnitude nearest to what its operand stands for. -/
theorem nearestMag_roundMag {m : Nat} {e : Int} {y : Rat} (hm : m ≠ 0) (hy : StandsFor m y) :
    NearestMag (roundMag m e) (y * (2 : Rat) ^ e) := by
  have hplace : ((lastPlace m e + 1074).toNat : Int) - 1074 = lastPlace m e := by unfold lastPlace; omega
  have hsplit : y * (2 : Rat) ^ e
      = y * (2 : Rat) ^ (e - lastPlace m e) * (2 : Rat) ^ (((lastPlace m e + 1074).toNat : Int) - 1074) := by
    rw [hplace, mul_assoc, ← zpow_add₀ two_ne_zero, sub_add_cancel]
  have hzero : lastPlace m e = -1074 → (lastPlace m e + 1074).toNat = 0 := by omega
  rw [roundMag, if_neg hm, hsplit]
  rcases le_or_gt (lastPlace m e) e with hq | hq
  · obtain ⟨hm53, hs, hj, hval⟩ := significand_of_le hm hq
    obtain rfl : y = m := hy.resolve_right fun h => by omega
    rw [← hval]
    refine nearestMag_of_nearestEven hs.le (nearestEven_self _) (hj.imp hzero fun h52 => ⟨h52, ?_⟩)
    exact_mod_cast h52
  · obtain ⟨hs, hx, hj⟩ := significand_of_gt hm hq hy
    exact nearestMag_of_nearestEven hs hx (hj.imp_left hzero)

/-- `round` rounds what its operand stands for. -/
theorem roundsTo_round_of_standsFor {b : Bool} {m : Nat} {e : Int} {y : Rat} (hy : StandsFor m y) :
    roundsTo (round b m e) (signed b (y * (2 : Rat) ^ e)) := by
  have hnear : NearestMag (roundMag m e) (y * (2 : Rat) ^ e) := by
    rcases eq_or_ne m 0 with rfl | hm
    · obtain rfl : y = (0 : Nat) := hy.resolve_right fun h => by omega
      rw [Nat.cast_zero, zero_mul]
      exact nearestMag_zero
    · exact nearestMag_roundMag hm hy
  rw [round_eq_withSign]
  exact hnear.roundsTo_withSign (mul_nonneg hy.nonneg (by positivity)) b

theorem roundsTo_round (b : Bool) (m : Nat) (e : Int) : roundsTo (round b m e) (signed b (m * (2 : Rat) ^ e)) :=
  roundsTo_round_of_standsFor (.inl rfl)

end Sys2Proof.Machine.Fp

/-! The four operations on numbers and on special operands. -/

namespace Sys2Proof.Machine.Fp

open Sys2Proof.Statements

/-! ## The operations, case by case -/

theorem add_of_isNaN {x y : F64} (h : isNaN x = true ∨ isNaN y = true) : add x y = nanOf .add x y := by
  unfold add
  rcases h with h | h
  · rw [unpack_of_isNaN h]
  · rw [unpack_of_isNaN h]; cases unpack x <;> rfl

theorem mul_of_isNaN {x y : F64} (h : isNaN x = true ∨ isNaN y = true) : mul x y = nanOf .mul x y := by
  unfold mul
  rcases h with h | h
  · rw [unpack_of_isNaN h]
  · rw [unpack_of_isNaN h]; cases unpack x <;> rfl

theorem div_of_isNaN {x y : F64} (h : isNaN x = true ∨ isNaN y = true) : div x y = nanOf .div x y := by
  unfold div
  rcases h with h | h
  · rw [unpack_of_isNaN h]
  · rw [unpack_of_isNaN h]; cases unpack x <;> rfl

theorem add_inf_inf (p q : Bool) :
    add (inf p) (inf q) = if p = q then inf p else nanOf .add (inf p) (inf q) := by simp [add]

theorem mul_inf_inf (p q : Bool) : mul (inf p) (inf q) = inf (p ^^ q) := by simp [mul]

theorem div_inf_inf (p q : Bool) : div (inf p) (inf q) = nanOf .div (inf p) (inf q) := by simp [div]

theorem signed_mul_zpow_eq_zero {b : Bool} {m : Nat} {e : Int} :
    signed b (m * (2 : Rat) ^ e) = 0 ↔ m = 0 := by
  rw [signed_eq_zero, mul_eq_zero_iff_right (by positivity), Nat.cast_eq_zero]

section InfiniteOperand

variable {x : F64} {a : Rat} (p : Bool) (hx : value x = some a)

include hx

theorem add_inf_left : add (inf p) x = inf p := by
  obtain ⟨m, e, hu, -, -⟩ := unpack_of_value hx
  simp [add, hu]

theorem add_inf_right : add x (inf p) = inf p := by
  obtain ⟨m, e, hu, -, -⟩ := unpack_of_value hx
  simp [add, hu]

theorem mul_inf_left : mul (inf p) x = if a = 0 then nanOf .mul (inf p) x else inf (p ^^ sign x) := by
  obtain ⟨m, e, hu, -, rfl⟩ := unpack_of_value hx
  simp [mul, hu, signed_mul_zpow_eq_zero]

theorem mul_inf_right : mul x (inf p) = if a = 0 then nanOf .mul x (inf p) else inf (sign x ^^ p) := by
  obtain ⟨m, e, hu, -, rfl⟩ := unpack_of_value hx
  simp [mul, hu, signed_mul_zpow_eq_zero]

theorem div_inf_left : div (inf p) x = inf (p ^^ sign x) := by
  obtain ⟨m, e, hu, -, -⟩ := unpack_of_value hx
  simp [div, hu]

theorem div_inf_right : div x (inf p) = zero (sign x ^^ p) := by
  obtain ⟨m, e, hu, -, -⟩ := unpack_of_value hx
  simp [div, hu]

end InfiniteOperand

theorem cast_scaled (b : Bool) (m k : Nat) : (scaled b m k : Rat) = signed b (m * (2 : Rat) ^ k) := by
  cases b <;> simp [scaled]

/-- A number written with a lower exponent. -/
theorem cast_scaled_mul_zpow {b : Bool} {m : Nat} {e q : Int} (h : q ≤ e) :
    (scaled b m (e - q).toNat : Rat) * (2 : Rat) ^ q = signed b (m * (2 : Rat) ^ e) := by
  rw [cast_scaled, signed_mul, mul_assoc, ← zpow_natCast, Int.toNat_of_nonneg (by omega),
    ← zpow_add₀ two_ne_zero, sub_add_cancel]

/-- `round` of the absolute value of an integer, with its sign. -/
theorem roundsTo_round_int (v q : Int) :
    roundsTo (round (decide (v < 0)) v.natAbs q) (v * (2 : Rat) ^ q) := by
  rw [← signed_natAbs v, signed_mul]
  exact roundsTo_round _ _ _

theorem roundsTo_zero (b : Bool) : roundsTo (zero b) 0 := by
  have := roundsTo_round b 0 0
  rwa [Nat.cast_zero, zero_mul, signed_eq_zero.2 rfl] at this

/-- The integer that stands for a quotient, its last bit saying whether a remainder is left. -/
theorem standsFor_quotient {m n : Nat} (hn : n ≠ 0) (hn53 : n < 2 ^ 53) :
    StandsFor (2 * (m * 2 ^ 110 / n) + if m * 2 ^ 110 % n = 0 then 0 else 1)
      (2 * (m * 2 ^ 110 : Nat) / n) := by
  have hn0 : (n : Rat) ≠ 0 := Nat.cast_ne_zero.2 hn
  have hpos : (0 : Rat) < n := by positivity
  have hlong : m * 2 ^ 110 % n ≠ 0 → 2 ^ 53 ≤ m * 2 ^ 110 / n := fun hr => by
    have hm : 1 ≤ m := Nat.one_le_iff_ne_zero.2 fun h => by simp [h] at hr
    rw [Nat.le_div_iff_mul_le (by omega)]
    calc 2 ^ 53 * n ≤ 2 ^ 53 * 2 ^ 53 := by gcongr
      _ ≤ 1 * 2 ^ 110 := by norm_num
      _ ≤ m * 2 ^ 110 := by gcongr
  generalize m * 2 ^ 110 = t at *
  have hdiv : (t : Rat) = n * (t / n : Nat) + (t % n : Nat) := by exact_mod_cast (Nat.div_add_mod t n).symm
  have hquot : 2 * (t : Rat) / n = 2 * (t / n : Nat) + 2 * (t % n : Nat) / n := by
    rw [hdiv]; field_simp
  rw [hquot]
  split
  · next hr => left; simp [hr]
  · next hr =>
    refine .inr ⟨by have := hlong hr; omega, by omega, ?_⟩
    have hr0 : (0 : Rat) < (t % n : Nat) := by exact_mod_cast Nat.pos_of_ne_zero hr
    have hrn : ((t % n : Nat) : Rat) < n := by exact_mod_cast Nat.mod_lt t (by omega)
    have h0 : 0 < 2 * ((t % n : Nat) : Rat) / n := by positivity
    have h2 : 2 * ((t % n : Nat) : Rat) / n < 2 := by rw [div_lt_iff₀ hpos]; linarith
    rw [Nat.cast_add, Nat.cast_mul, Nat.cast_ofNat, Nat.cast_one, abs_lt]
    constructor <;> linarith

section FiniteOperands

variable {x y : F64} {a b : Rat} (hx : value x = some a) (hy : value y = some b)

include hx hy

theorem add_of_value : ∃ v q : Int, (v : Rat) * (2 : Rat) ^ q = a + b ∧
    add x y = if v = 0 then zero (sign x && sign y) else round (decide (v < 0)) v.natAbs q := by
  obtain ⟨m, e, hux, -, rfl⟩ := unpack_of_value hx
  obtain ⟨n, f, huy, -, rfl⟩ := unpack_of_value hy
  refine ⟨scaled (sign x) m (e - min e f).toNat + scaled (sign y) n (f - min e f).toNat, min e f, ?_, ?_⟩
  · rw [Int.cast_add, add_mul, cast_scaled_mul_zpow (min_le_left e f), cast_scaled_mul_zpow (min_le_right e f)]
  · simp only [add, hux, huy]

theorem mul_of_value : ∃ (m : Nat) (e : Int), a * b = signed (sign x ^^ sign y) (m * (2 : Rat) ^ e) ∧
    mul x y = round (sign x ^^ sign y) m e := by
  obtain ⟨m, e, hux, -, rfl⟩ := unpack_of_value hx
  obtain ⟨n, f, huy, -, rfl⟩ := unpack_of_value hy
  refine ⟨m * n, e + f, ?_, by simp only [mul, hux, huy]⟩
  rw [signed_mul_signed, zpow_add₀ two_ne_zero, Nat.cast_mul, mul_mul_mul_comm]

theorem div_of_value (hb : b ≠ 0) : ∃ (m : Nat) (e : Int) (z : Rat),
    a / b = signed (sign x ^^ sign y) (z * (2 : Rat) ^ e) ∧ StandsFor m z ∧
    div x y = round (sign x ^^ sign y) m e := by
  obtain ⟨m, e, hux, -, rfl⟩ := unpack_of_value hx
  obtain ⟨n, f, huy, hn53, rfl⟩ := unpack_of_value hy
  have hn : n ≠ 0 := fun h => hb (signed_mul_zpow_eq_zero.2 h)
  refine ⟨_, e - f - 111, _, ?_, standsFor_quotient (m := m) hn hn53, by simp only [div, hux, huy, if_neg hn]⟩
  rw [signed_div_signed, zpow_sub₀ two_ne_zero, zpow_sub₀ two_ne_zero]
  congr 1
  push_cast
  field_simp
  ring

theorem div_of_value_zero (hb : b = 0) :
    div x y = if a = 0 then nanOf .div x y else inf (sign x ^^ sign y) := by
  obtain ⟨m, e, hux, -, rfl⟩ := unpack_of_value hx
  obtain ⟨n, f, huy, -, rfl⟩ := unpack_of_value hy
  simp [div, hux, huy, signed_mul_zpow_eq_zero.1 hb, signed_mul_zpow_eq_zero]

theorem roundsTo_add : roundsTo (add x y) (a + b) := by
  obtain ⟨v, q, hv, hadd⟩ := add_of_value hx hy
  rw [← hv, hadd]
  split
  · next h => rw [h, Int.cast_zero, zero_mul]; exact roundsTo_zero _
  · exact roundsTo_round_int v q

theorem add_of_sum_zero (h : a + b = 0) : add x y = zero (sign x && sign y) := by
  obtain ⟨v, q, hv, hadd⟩ := add_of_value hx hy
  rw [h, mul_eq_zero_iff_right (by positivity), Int.cast_eq_zero] at hv
  rw [hadd, if_pos hv]

theorem roundsTo_sub : roundsTo (sub x y) (a - b) := sub_eq_add_neg a b ▸ roundsTo_add hx (value_neg hy)

theorem sub_of_difference_zero (h : a - b = 0) : sub x y = zero (sign x && !sign y) := by
  rw [sub, add_of_sum_zero hx (value_neg hy) (by linarith), sign_neg]

theorem roundsTo_mul : roundsTo (mul x y) (a * b) := by
  obtain ⟨m, e, hab, hmul⟩ := mul_of_value hx hy
  rw [hab, hmul]
  exact roundsTo_round _ _ _

theorem sign_mul : sign (mul x y) = (sign x ^^ sign y) := by
  obtain ⟨m, e, -, hmul⟩ := mul_of_value hx hy
  rw [hmul, sign_round]

theorem roundsTo_div (hb : b ≠ 0) : roundsTo (div x y) (a / b) := by
  obtain ⟨m, e, z, hab, hz, hdiv⟩ := div_of_value hx hy hb
  rw [hab, hdiv]
  exact roundsTo_round_of_standsFor hz

theorem sign_div (hb : b ≠ 0) : sign (div x y) = (sign x ^^ sign y) := by
  obtain ⟨m, e, z, -, -, hdiv⟩ := div_of_value hx hy hb
  rw [hdiv, sign_round]

end FiniteOperands

/-- Settles O57: each operation is `round` of its exact result or, for a quotient, of an integer that stands for it;
the special operands are the other cases of the operations. -/
theorem arithmeticRoundsTheExactResult : Obligations.ArithmeticRoundsTheExactResult := by
  refine ⟨fun x y a b hx hy => ?_, fun x y a b hx hy => ?_, fun x y h => ?_, fun p q => ?_, fun p x a hx => ?_⟩
  · exact ⟨roundsTo_add hx hy, roundsTo_sub hx hy, roundsTo_mul hx hy, roundsTo_div hx hy⟩
  · refine ⟨add_of_sum_zero hx hy, sub_of_difference_zero hx hy, sign_mul hx hy, sign_div hx hy,
      fun ha hb => ?_, fun ha hb => ?_⟩
    · rw [div_of_value_zero hx hy hb, if_neg ha]
    · rw [div_of_value_zero hx hy hb, if_pos ha, isNaN_nanOf]
  · have hneg : isNaN x = true ∨ isNaN (neg y) = true := by rwa [isNaN_neg]
    rw [sub, add_of_isNaN h, add_of_isNaN hneg, mul_of_isNaN h, div_of_isNaN h]
    simp only [isNaN_nanOf, and_self]
  · rw [sub, neg_inf, mul_inf_inf, div_inf_inf, add_inf_inf, add_inf_inf]
    refine ⟨?_, fun hpq => ?_, rfl, isNaN_nanOf _ _ _⟩
    · rintro rfl
      simp
    · rw [Bool.eq_not.2 hpq]
      simp
  · rw [sub, sub, neg_inf, add_inf_left p hx, add_inf_right p hx, add_inf_left p (value_neg hx),
      add_inf_right (!p) hx, mul_inf_left p hx, mul_inf_right p hx, div_inf_left p hx, div_inf_right p hx]
    refine ⟨rfl, rfl, rfl, rfl, fun ha => ?_, fun ha => ?_, rfl, rfl⟩
    · rw [if_neg ha, if_neg ha]; exact ⟨rfl, rfl⟩
    · rw [if_pos ha, if_pos ha]; exact ⟨isNaN_nanOf _ _ _, isNaN_nanOf _ _ _⟩

end Sys2Proof.Machine.Fp

/-! The conversion of integers, and the clamps and the signed power. -/

namespace Sys2Proof.Machine.Fp

open Sys2Proof.Statements

/-! ## Conversion of integers -/

theorem magValue_roundMag_of_le {m : Nat} {e : Int} (hm : m ≠ 0) (hq : lastPlace m e ≤ e) :
    magValue (roundMag m e) = m * (2 : Rat) ^ e := by
  obtain ⟨-, hs, hj, hval⟩ := significand_of_le hm hq
  have hplace : ((lastPlace m e + 1074).toNat : Int) - 1074 = lastPlace m e := by unfold lastPlace; omega
  rw [roundMag, if_neg hm, magValue_add hs.le (hj.imp_left (by omega)), hplace, hval, mul_assoc,
    ← zpow_add₀ two_ne_zero, sub_add_cancel]

/-- An integer of at most 53 bits is a value. -/
theorem value_round_of_lt {b : Bool} {m : Nat} (hm : m < 2 ^ 53) : value (round b m 0) = some (signed b m) := by
  have hmag : magValue (roundMag m 0) = m := by
    rcases eq_or_ne m 0 with rfl | hm0
    · simp [roundMag]
    · have hlog : m.log2 < 53 := (Nat.log2_lt hm0).2 hm
      rw [magValue_roundMag_of_le hm0 (by unfold lastPlace; omega), zpow_zero, mul_one]
  have hfin : roundMag m 0 < infMagnitude := by
    rw [← strictMono_magValue.lt_iff_lt, hmag, magValue_infMagnitude]
    have : (m : Rat) < 2 ^ 53 := by exact_mod_cast hm
    have : (1 : Rat) ≤ 2 ^ 970 := one_le_pow₀ one_le_two
    generalize (2 : Rat) ^ 970 = u at *
    linarith
  rw [round_eq_withSign, min_eq_left hfin.le, value_withSign hfin, hmag]

theorem roundsTo_ofInt (i : Int) : roundsTo (ofInt i) i := by
  have := roundsTo_round_int i 0
  rwa [zpow_zero, mul_one] at this

theorem value_ofInt {i : Int} (hi : |i| < 2 ^ 53) : value (ofInt i) = some (i : Rat) := by
  rw [Int.abs_eq_natAbs] at hi
  rw [ofInt, value_round_of_lt (by exact_mod_cast hi), signed_natAbs]

theorem ofInt_natCast (i : Nat) : ofInt i = ofNat i := by
  rw [ofInt, decide_eq_false (Int.natCast_nonneg i).not_gt, Int.natAbs_natCast, ofNat]

/-- Settles O58: `ofInt` is `round` of the absolute value, and `round` keeps a number of 53 bits. -/
theorem floatOfIntegersRounds : Obligations.FloatOfIntegersRounds :=
  ⟨fun i => ⟨roundsTo_ofInt i, value_ofInt⟩, fun i => (ofInt_natCast i).symm⟩

/-! ## The floor -/

theorem neg_natCast_ediv {m d : Nat} (hd : 0 < d) : -(m : Int) / d = -((m + (d - 1)) / d : Nat) := by
  have hdiv := Nat.div_add_mod (m + (d - 1)) d
  have hmod := Nat.mod_lt (m + (d - 1)) hd
  generalize (m + (d - 1)) / d = c at *
  generalize (m + (d - 1)) % d = r at *
  rw [Int.ediv_eq_iff_of_pos (by omega), neg_mul, ← Nat.cast_mul, mul_comm c d]
  omega

theorem floor_signed (b : Bool) (m : Nat) (e : Int) :
    ⌊signed b (m * (2 : Rat) ^ e)⌋ = floorFin b m e := by
  unfold floorFin
  split
  · next he =>
    rw [← Int.toNat_of_nonneg he, zpow_natCast, ← cast_scaled, Int.floor_intCast, Int.toNat_natCast]
  · next he =>
    have hexp : (2 : Rat) ^ e = ((2 ^ (-e).toNat : Nat) : Rat)⁻¹ := by
      rw [Nat.cast_pow, Nat.cast_ofNat, ← zpow_natCast, ← zpow_neg, Int.toNat_of_nonneg (by omega), neg_neg]
    have hpos : 0 < 2 ^ (-e).toNat := Nat.two_pow_pos _
    rw [hexp, ← div_eq_mul_inv]
    dsimp only
    generalize 2 ^ (-e).toNat = d at *
    cases b with
    | false => rw [signed_false, Rat.floor_natCast_div_natCast]; simp
    | true =>
      have hneg : -((m : Rat) / d) = ((-m : Int) : Rat) / d := by push_cast; ring
      rw [signed_true, hneg, Rat.floor_intCast_div_natCast, neg_natCast_ediv hpos, if_pos rfl]

theorem floorclamp_of_value {x : F64} {a : Rat} (hx : value x = some a) (lo hi : Nat) :
    (floorclamp x lo hi : Int) = max (lo : Int) (min (hi : Int) ⌊a⌋) := by
  obtain ⟨m, e, hu, -, rfl⟩ := unpack_of_value hx
  rw [floor_signed]
  simp only [floorclamp, hu]
  exact Int.toNat_of_nonneg (le_max_of_le_left (Int.natCast_nonneg lo))

theorem floorclamp_of_isNaN {x : F64} (hx : isNaN x = true) (lo hi : Nat) : floorclamp x lo hi = lo := by
  simp only [floorclamp, unpack_of_isNaN hx]

theorem floorclamp_inf_true (lo hi : Nat) : floorclamp (inf true) lo hi = lo := by
  simp only [floorclamp, unpack_inf]

theorem floorclamp_inf_false (lo hi : Nat) : floorclamp (inf false) lo hi = hi := by
  simp only [floorclamp, unpack_inf]

/-! ## `clamp01` and `signedPow` -/

theorem value_c0_0 : value c0_0 = some 0 := by decide +kernel

theorem value_c1_0 : value c1_0 = some 1 := by decide +kernel

theorem clamp01_of_value {x : F64} {a : Rat} (hx : value x = some a) :
    clamp01 x = if a < 0 then c0_0 else if 1 < a then c1_0 else x := by
  simp only [clamp01, isNaN_of_value hx, lt_iff_of_value hx value_c0_0, lt_iff_of_value value_c1_0 hx,
    Bool.false_eq_true, if_false]

theorem clamp01_of_isNaN {x : F64} (hx : isNaN x = true) : clamp01 x = c0_0 := by rw [clamp01, if_pos hx]

theorem clamp01_inf_true : clamp01 (inf true) = c0_0 := by
  simp [clamp01, inf_true_lt value_c0_0]

theorem clamp01_inf_false : clamp01 (inf false) = c1_0 := by
  simp [clamp01, lt_inf_false value_c1_0, lt_eq_false_of_lt (lt_inf_false value_c0_0)]

section SignedPow

variable (fn : Libm) (p : F64)

theorem signedPow_of_value {x : F64} {a : Rat} (hx : value x = some a) :
    signedPow fn x p
      = if 0 < a then fn.pow x p else if a < 0 then neg (fn.pow (neg x) p) else c0_0 := by
  simp only [signedPow, isNaN_of_value hx, lt_iff_of_value hx value_c0_0, lt_iff_of_value value_c0_0 hx,
    Bool.false_eq_true, if_false]

theorem isNaN_signedPow {x : F64} (hx : isNaN x = true) : isNaN (signedPow fn x p) = true := by
  rw [signedPow, lt_of_isNaN (.inr hx), lt_of_isNaN (.inl hx), if_pos hx]
  exact isNaN_nanOf _ _ _

theorem signedPow_inf_false : signedPow fn (inf false) p = fn.pow (inf false) p := by
  rw [signedPow, if_pos (lt_inf_false value_c0_0)]

theorem signedPow_inf_true : signedPow fn (inf true) p = neg (fn.pow (inf false) p) := by
  rw [signedPow, lt_eq_false_of_lt (inf_true_lt value_c0_0), inf_true_lt value_c0_0, neg_inf]
  rfl

end SignedPow

/-- Settles O60, from the values of the comparisons and of the floor. -/
theorem clampsAndSignedPowerFollowTheirRules : Obligations.ClampsAndSignedPowerFollowTheirRules := by
  refine ⟨fun x lo hi => ?_, fun x => ?_, fun fn x p => ?_⟩
  · exact ⟨fun a hx => floorclamp_of_value hx lo hi, fun hx => floorclamp_of_isNaN hx lo hi,
      floorclamp_inf_true lo hi, floorclamp_inf_false lo hi⟩
  · exact ⟨fun a hx => clamp01_of_value hx, clamp01_of_isNaN, clamp01_inf_true, clamp01_inf_false⟩
  · exact ⟨fun a hx => signedPow_of_value fn p hx, isNaN_signedPow fn p, signedPow_inf_false fn p,
      signedPow_inf_true fn p⟩

end Sys2Proof.Machine.Fp

/-! SUPPORT. The invariant: what a command may stage, and every event of the block. -/

namespace Sys2Proof.Machine

/-! ## What a command stages stays inside the registers' ranges and the buffers -/

/-- Staged results that a block of capacity `cap` can commit: a legal scale, and runs that end inside COEF, HASH and
PIX. -/
structure Staged.Legal (cap : Nat) (x : Staged) : Prop where
  qmaxRange : ∀ q ∈ x.qmax, q.toNat ≤ 82 := by simp
  maxvalLegal : ∀ v ∈ x.maxval, legalMaxval v := by simp
  coefInFile : x.coef.1 + x.coef.2.length ≤ 81 := by simp
  hashInWindow : x.hash.1 + x.hash.2.length ≤ hashCap := by simp
  pixInWindow : x.pix.length ≤ cap := by simp

theorem toNat_ofNat8_le {n k : Nat} (h : n ≤ k) : (BitVec.ofNat 8 n).toNat ≤ k :=
  (Nat.mod_le ..).trans h

theorem Staged.legal_r0 (cap : Nat) (o : Option Word) : Legal cap { r0 := o } where

theorem Staged.legal_scale (cap : Nat) {q : Nat} {v : F64} (hq : q ≤ 82) (hv : legalMaxval v) :
    Legal cap { qmax := some (BitVec.ofNat 8 q), maxval := some v } where
  qmaxRange := by rintro _ ⟨⟩; exact toNat_ofNat8_le hq
  maxvalLegal := by rintro _ ⟨⟩; exact hv

theorem stageB83enc_legal {n : Nat} {s : State} {x : Staged} (h : stageB83enc n s = .ok x) :
    x.Legal s.params.pixCap := by
  simp only [stageB83enc, checkOffset, bind_eq_ok, checkDigits_ok_iff, checkAtMost_ok_iff, pure_eq_ok,
    Except.ok.injEq] at h
  obtain ⟨_, ⟨_, hn⟩, _, ha, rfl⟩ := h
  exact { hashInWindow := by simp only [List.length_map, b83enc_length, hashCap] at *; omega }

theorem stageB83dec_legal {n : Nat} {s : State} {x : Staged} (h : stageB83dec n s = .ok x) :
    x.Legal s.params.pixCap := by
  simp only [stageB83dec, bind_eq_ok, pure_eq_ok, Except.ok.injEq] at h
  obtain ⟨_, _, _, _, v, _, rfl⟩ := h
  exact Staged.legal_r0 _ _

theorem stageQmax_legal {s : State} {x : Staged} (h : stageQmax s = .ok x) : x.Legal s.params.pixCap := by
  simp only [stageQmax, bind_eq_ok, pure_eq_ok, Except.ok.injEq] at h
  obtain ⟨_, _, rfl⟩ := h
  exact Staged.legal_scale _ (acScale_fst_le _) (acScale_legal _)

theorem stageQac_legal {fn : Libm} {s : State} {x : Staged} (h : stageQac fn s = .ok x) :
    x.Legal s.params.pixCap := by
  simp only [stageQac, bind_eq_ok, pure_eq_ok, Except.ok.injEq] at h
  obtain ⟨_, _, rfl⟩ := h
  exact Staged.legal_r0 _ _

theorem stageDqdc_legal {fn : Libm} {s : State} {x : Staged} (h : stageDqdc fn s = .ok x) :
    x.Legal s.params.pixCap := by
  simp only [stageDqdc, bind_eq_ok, pure_eq_ok, Except.ok.injEq] at h
  obtain ⟨_, _, cell, _, rfl⟩ := h
  exact {}

theorem stageDqmax_legal {s : State} {x : Staged} (h : stageDqmax s = .ok x) : x.Legal s.params.pixCap := by
  simp only [stageDqmax, bind_eq_ok, checkAtMost_ok_iff, pure_eq_ok, Except.ok.injEq] at h
  obtain ⟨_, ha, rfl⟩ := h
  exact Staged.legal_scale _ ha (legalMaxval_scaleOf ha)

theorem stageDqac_legal {fn : Libm} {s : State} {x : Staged} (h : stageDqac fn s = .ok x) :
    x.Legal s.params.pixCap := by
  simp only [stageDqac, bind_eq_ok, checkAtMost_ok_iff, pure_eq_ok, Except.ok.injEq] at h
  obtain ⟨_, _, _, hk, q, _, rfl⟩ := h
  exact { coefInFile := Nat.succ_le_succ hk }

theorem forwardGrid_length_le {fn : Libm} {s : State} {u : Unit} (h : checkImage s = .ok u) :
    (forwardGrid fn s).length ≤ 81 := by
  obtain ⟨_, ⟨_, hx, _, hy⟩, _⟩ := checkImage_ok_iff.1 h
  rw [forwardGrid_length]
  exact Nat.mul_le_mul hx hy

theorem stageFdct_legal {fn : Libm} {s : State} {x : Staged} (h : stageFdct fn s = .ok x) :
    x.Legal s.params.pixCap := by
  simp only [stageFdct, bind_eq_ok, pure_eq_ok, Except.ok.injEq] at h
  obtain ⟨_, hc, rfl⟩ := h
  exact { coefInFile := (Nat.zero_add _).trans_le (forwardGrid_length_le hc) }

theorem inverseImage_length_le {fn : Libm} {mode : GammaRounding} {grid : List Rgb} {xc : Nat} {s : State} {u : Unit}
    (h : checkTarget s = .ok u) : (inverseImage fn mode grid xc s.w s.h).length ≤ s.params.pixCap := by
  obtain ⟨_, _, hneed⟩ := checkTarget_ok_iff.1 h
  rwa [inverseImage_length]

theorem stageIdct_legal {fn : Libm} {s : State} {x : Staged} (h : stageIdct fn s = .ok x) :
    x.Legal s.params.pixCap := by
  simp only [stageIdct, bind_eq_ok, pure_eq_ok, Except.ok.injEq] at h
  obtain ⟨_, _, _, ht, rfl⟩ := h
  exact { pixInWindow := inverseImage_length_le ht }

theorem stageEncode_legal {fn : Libm} {s : State} {x : Staged} (h : stageEncode fn s = .ok x) :
    x.Legal s.params.pixCap := by
  simp only [stageEncode, bind_eq_ok, pure_eq_ok, Except.ok.injEq] at h
  obtain ⟨_, hc, rfl⟩ := h
  have hlen := forwardGrid_length_le (fn := fn) hc
  exact {
    qmaxRange := by rintro _ ⟨⟩; exact toNat_ofNat8_le (acScale_fst_le _)
    maxvalLegal := by rintro _ ⟨⟩; exact acScale_legal _
    coefInFile := (Nat.zero_add _).trans_le hlen
    hashInWindow := by simp only [List.length_map, buildHash_length, List.length_tail, hashCap]; omega }

theorem stageDecode_legal {fn : Libm} {s : State} {x : Staged} (h : stageDecode fn s = .ok x) :
    x.Legal s.params.pixCap := by
  simp only [stageDecode, bind_eq_ok, pure_eq_ok, Except.ok.injEq] at h
  obtain ⟨f, hf, fields, hfields, _, ht, rfl⟩ := h
  obtain ⟨hcells, hpos, _⟩ := cells_le_of_flag (decodeHeader_flag_lt hf)
  obtain ⟨hq, hlen⟩ := decodeFields_ok hfields
  exact {
    qmaxRange := by rintro _ ⟨⟩; exact toNat_ofNat8_le hq
    maxvalLegal := by rintro _ ⟨⟩; exact decodeScale_legal hq
    coefInFile := by simp only; omega
    pixInWindow := inverseImage_length_le ht }

/-- Every command stages legal results, whatever the state. -/
theorem stageOf_legal {i : Instr} {s : State} {x : Staged} (h : stageOf i s = .ok x) : x.Legal s.params.pixCap := by
  cases i with
  | nop => cases h; exact Staged.legal_r0 _ _
  | tolin => cases h; exact Staged.legal_r0 _ _
  | togam => cases h; exact Staged.legal_r0 _ _
  | b83enc n => exact stageB83enc_legal h
  | b83dec n => exact stageB83dec_legal h
  | qdc => cases h; exact Staged.legal_r0 _ _
  | qmax => exact stageQmax_legal h
  | qac => exact stageQac_legal h
  | dqdc => exact stageDqdc_legal h
  | dqmax => exact stageDqmax_legal h
  | dqac => exact stageDqac_legal h
  | fdct => exact stageFdct_legal h
  | idct => exact stageIdct_legal h
  | encode => exact stageEncode_legal h
  | decode => exact stageDecode_legal h

/-! ## What each event does to the invariant -/

theorem flatMap_toList_length (cells : List Rgb) : (cells.flatMap Rgb.toList).length = 3 * cells.length := by
  simp [List.length_flatMap, Rgb.toList, mul_comm]

theorem coefIndex_lt_of_rowOf {cap a : Nat} (h : rowOf cap a = .coef) : (a - coefBase) / 8 < 243 := by
  have hb := rowOf_bounds cap a
  simp only [h, coefBase, reduceCtorEq, false_and, false_or, or_false, true_and] at hb ⊢
  omega

theorem inByteWindow_of_rowOf {cap a : Nat} (h : rowOf cap a = .hash ∨ rowOf cap a = .pix) : inByteWindow cap a := by
  have hb := rowOf_bounds cap a
  rcases h with h | h
  · simp only [h, reduceCtorEq, false_and, false_or, or_false, true_and] at hb
    exact .inl hb
  · simp only [h, reduceCtorEq, false_and, false_or, or_false, true_and] at hb
    exact .inr hb

section Events

variable {s : State} (hs : s.Inv)
include hs

/-! The agenda and the response are the model's own, and the invariant does not read them. -/

theorem State.Inv.with_agenda (rest : List Event) : ({ s with agenda := rest } : State).Inv := { hs with }

theorem State.Inv.with_port (r : Response) : ({ s with port := r } : State).Inv := { hs with }

theorem State.Inv.commit_mem_inByteWindow {x : Staged} (hx : x.Legal s.params.pixCap) :
    ∀ c ∈ (s.commit x).mem, inByteWindow s.params.pixCap c.1 := by
  intro c hc
  have hhash := hx.hashInWindow
  have hpix := hx.pixInWindow
  unfold inByteWindow
  rcases Store.mem_writeRun hc with hp | hc
  · right; omega
  · rcases Store.mem_writeRun hc with hh | hc
    · left; omega
    · exact hs.memInWindows c hc

theorem State.Inv.finish_commit {x : Staged} (hx : x.Legal s.params.pixCap) : (s.commit x).finish.Inv where
  memCanonical := Store.wf_writeRun (Store.wf_writeRun hs.memCanonical _ _) _ _
  coefCanonical := Store.wf_writeRun hs.coefCanonical _ _
  memInWindows := hs.commit_mem_inByteWindow hx
  coefInFile := by
    intro c hc
    have hcoef := hx.coefInFile
    rcases Store.mem_writeRun hc with hc | hc
    · rw [flatMap_toList_length] at hc; omega
    · exact hs.coefInFile c hc
  errcodeLegal := rfl
  contextClear := fun _ => ⟨rfl, rfl, rfl⟩
  busyClear := nofun
  qmaxRange := by
    cases hq : x.qmax with
    | none => simpa [hq] using hs.qmaxRange
    | some q => simpa [hq] using hx.qmaxRange q hq
  maxvalLegal := by
    cases hv : x.maxval with
    | none => simpa [hv] using hs.maxvalLegal
    | some v => simpa [hv] using hx.maxvalLegal v hv
  paramsValid := hs.paramsValid
  heldIdle := fun _ => rfl

theorem State.Inv.raise (r : Raise) : (s.raise r).Inv := by
  have hcode : legalErrcode r.kind.code = true ∧ r.kind.code ≠ 0 := by cases r.kind <;> decide
  exact { hs with
    errcodeLegal := hcode.1
    contextClear := fun h => absurd h hcode.2
    busyClear := nofun
    heldIdle := fun _ => rfl }

theorem State.Inv.complete (i : Instr) : (s.complete (stageOf i s)).Inv := by
  rcases s.complete_cases (stageOf i s) with ⟨x, hx, heq⟩ | ⟨r, _, heq⟩
  · rw [heq]; exact hs.finish_commit (stageOf_legal hx)
  · rw [heq]; exact hs.raise r

theorem State.Inv.completeRunning {t : State} (h : completeRunning s = .next t) : t.Inv := by
  rcases completeRunning_cases s with ⟨_, heq⟩ | ⟨_, _, i, _, _, heq⟩ | ⟨_, _, _, _, _, heq⟩
  all_goals rw [heq] at h; cases h
  · exact hs
  · exact hs.complete i
  · exact hs.raise _

theorem State.Inv.writeStatus (v : Word) : (s.writeStatus v).Inv :=
  { hs with
    busyClear := fun hb => by
      obtain ⟨hdone, herr⟩ := hs.busyClear hb
      exact ⟨by simp [State.writeStatus, hdone], herr⟩ }

/-- Acceptance leaves the engine BUSY, which is why reset must be released. -/
theorem State.Inv.writeCmd (hr : s.resetHeld = false) (v : Word) : (s.writeCmd v).Inv := by
  unfold State.writeCmd
  split
  · exact { hs with }
  · exact { hs with
      errcodeLegal := rfl
      contextClear := fun _ => ⟨rfl, rfl, rfl⟩
      busyClear := fun _ => ⟨rfl, rfl⟩
      heldIdle := fun h => by cases hr.symm.trans h }

theorem State.Inv.writeDataCsr (n : Nat) (v : Word) : (s.writeDataCsr n v).Inv := by
  unfold State.writeDataCsr
  split <;> exact { hs with }

theorem State.Inv.write_coef {e : Nat} (he : e < 243) (v : Word) :
    ({ s with coef := Store.write s.coef e v } : State).Inv :=
  { hs with
    coefCanonical := Store.wf_write hs.coefCanonical e v
    coefInFile := fun c hc => (Store.mem_write hc).elim (fun h => h ▸ he) (hs.coefInFile c) }

theorem State.Inv.write_mem {a : Nat} (ha : inByteWindow s.params.pixCap a) (v : Byte) :
    ({ s with mem := Store.write s.mem a v } : State).Inv :=
  { hs with
    memCanonical := Store.wf_write hs.memCanonical a v
    memInWindows := fun c hc => (Store.mem_write hc).elim (fun h => h ▸ ha) (hs.memInWindows c) }

theorem State.Inv.accessEffect (hr : s.resetHeld = false) (x : Access) : (s.accessEffect x).Inv := by
  rcases s.accessEffect_cases x with heq | ⟨v, heq⟩ | ⟨v, heq⟩ | ⟨v, heq⟩ | ⟨_, n, v, heq⟩ |
    ⟨_, a, v, hrow, _, heq⟩ | ⟨_, a, v, hrow, heq⟩
  all_goals rw [heq]
  · exact hs
  · exact { hs with }
  · exact hs.writeStatus v
  · exact hs.writeCmd hr v
  · exact hs.writeDataCsr n v
  · exact hs.write_coef (coefIndex_lt_of_rowOf hrow) v
  · exact hs.write_mem (inByteWindow_of_rowOf hrow) v

theorem State.Inv.hostAccess (x : Access) : (s.hostAccess x).Inv := by
  unfold State.hostAccess
  split_ifs with hr
  · exact hs.with_port _
  · exact (hs.accessEffect (Bool.eq_false_of_not_eq_true hr) x).with_port _
  · exact hs.with_port _

theorem State.Inv.assertReset : s.assertReset.Inv where
  memCanonical := State.reset_wf.1
  coefCanonical := State.reset_wf.2
  memInWindows := nofun
  coefInFile := nofun
  errcodeLegal := rfl
  contextClear := fun _ => ⟨rfl, rfl, rfl⟩
  busyClear := nofun
  qmaxRange := Nat.zero_le _
  maxvalLegal := legalMaxval_one
  paramsValid := hs.paramsValid
  heldIdle := fun _ => rfl

theorem State.Inv.releaseReset : s.releaseReset.Inv := { hs with heldIdle := nofun }

end Events

/-- Settles O49, event by event: a command commits what its stage has checked, or raises; an access writes one register
or one element of a window; reset puts the reset values. -/
theorem stepKeepsTheInvariant : Obligations.StepKeepsTheInvariant := by
  intro s t hs h
  rcases step_cases s with ⟨_, heq⟩ | ⟨x, rest, _, heq⟩ | ⟨rest, _, heq⟩ | ⟨rest, _, heq⟩ | ⟨rest, _, heq⟩
  all_goals rw [heq] at h
  · exact hs.completeRunning h
  · cases h; exact (hs.with_agenda rest).hostAccess x
  · exact (hs.with_agenda rest).completeRunning h
  · cases h; exact (hs.with_agenda rest).assertReset
  · cases h; exact (hs.with_agenda rest).releaseReset

end Sys2Proof.Machine

/-! SUPPORT. The CSRs and the ALPHA ROM as the host reads and writes them. -/

namespace Sys2Proof.Machine

open Sys2Proof.Statements

/-! ## One step for one access -/

/-- A legal access as the next event. -/
theorem step_legalAccess {s : State} {x : Access} {rest : List Event} (hr : s.resetHeld = false)
    (ha : s.agenda = .host x :: rest) (hl : legalAccess s.params.pixCap x.width x.addr = true) :
    step s = .next
      { { s with agenda := rest }.accessEffect x with port := { s with agenda := rest }.accessData x } := by
  rw [step_host ha]
  exact congrArg _ (State.hostAccess_legal hr hl)

/-- The host address of a CSR (10_state.md R20). -/
def csrAddr (n : Nat) : Addr := BitVec.ofNat 32 (8 * n)

theorem toNat_csrAddr {n : Nat} (hn : n < 512) : (csrAddr n).toNat = 8 * n :=
  Nat.mod_eq_of_lt (by omega)

theorem legalAccess_csr (cap : Nat) {n : Nat} (hn : n < 512) : legalAccess cap .w64 (csrAddr n).toNat = true := by
  rw [toNat_csrAddr hn, legalAccess_w64_iff]
  omega

theorem State.load64_csr (s : State) {n : Nat} (hn : n < 512) : s.load64 (csrAddr n).toNat = s.readCsr n := by
  rw [toNat_csrAddr hn, State.load64, rowOf_csr (by omega)]
  simp

theorem State.store64_csr (s : State) {n : Nat} (hn : n < 512) (v : Word) :
    s.store64 (csrAddr n).toNat v = s.writeCsr n v := by
  rw [toNat_csrAddr hn, State.store64, rowOf_csr (by omega)]
  simp

/-- A read of a CSR changes nothing of the block (20_memory.md R71). -/
theorem step_readCsr {s : State} {n : Nat} {rest : List Event} (hn : n < 512) (hr : s.resetHeld = false)
    (ha : s.agenda = .host (.read .w64 (csrAddr n)) :: rest) :
    step s = .next { s with agenda := rest, port := .data64 (s.readCsr n) } := by
  rw [step_legalAccess hr ha (legalAccess_csr _ hn), State.accessData, State.load64_csr _ hn]
  rfl

theorem step_writeCsr {s : State} {n : Nat} {v : Word} {rest : List Event} (hn : n < 512) (hr : s.resetHeld = false)
    (ha : s.agenda = .host (.write64 (csrAddr n) v) :: rest) :
    step s = .next { { s with agenda := rest }.writeCsr n v with port := .written } := by
  rw [step_legalAccess hr ha (legalAccess_csr _ hn), State.accessEffect, State.store64_csr _ hn]
  rfl

/-! ## Reads of the CSRs -/

theorem State.readCsr_ctrl_toNat (s : State) : (s.readCsr 1).toNat = if s.readable.irqen then 1 else 0 := by
  show (BitVec.ofNat 64 (flagBit s.readable.irqen 0)).toNat = _
  cases s.readable.irqen <;> rfl

theorem State.readCsr_pixCap_toNat {s : State} (h : s.params.wf = true) : (s.readCsr 19).toNat = s.params.pixCap := by
  simp only [Params.wf, Bool.and_eq_true, decide_eq_true_eq] at h
  exact Nat.mod_eq_of_lt (by omega)

theorem State.readCsr_reserved (s : State) {n : Nat} (h : 20 ≤ n) : s.readCsr n = 0 := by
  unfold State.readCsr
  split
  case h_21 => rfl
  all_goals omega

/-- Settles O11, register by register. -/
theorem csrReadsReturnTheRegisters : Obligations.CsrReadsReturnTheRegisters := by
  intro s n rest hn hr ha
  have narrow {w : Nat} (x : BitVec w) (hw : w ≤ 64) : (x.setWidth 64).toNat = x.toNat :=
    BitVec.toNat_setWidth_of_le hw
  refine ⟨s.readCsr n, step_readCsr hn hr ha, ?_, fun he => ?_, fun w b he => ?_, ?_⟩
  · rintro rfl; rfl
  · have hv := State.readable_idle he
    refine ⟨?_, ?_, ?_, ?_⟩ <;> rintro rfl
    · rw [State.readCsr_ctrl_toNat, hv]; rfl
    · exact congrArg HostView.errExp hv
    · exact congrArg HostView.errAct hv
    · exact congrArg HostView.errPos hv
  · have hv := State.readable_busy he
    refine ⟨?_, ?_, ?_, ?_⟩ <;> rintro rfl
    · rw [State.readCsr_ctrl_toNat, hv]
    · exact congrArg HostView.errExp hv
    · exact congrArg HostView.errAct hv
    · exact congrArg HostView.errPos hv
  · refine ⟨?_, ?_, ?_, ?_, ?_, ?_, ?_, ?_, ?_, ?_, ?_, ?_, ?_, ?_, s.readCsr_reserved⟩ <;> rintro rfl
    · rfl
    · exact narrow s.width (by decide)
    · exact narrow s.height (by decide)
    · exact narrow s.xcomp (by decide)
    · exact narrow s.ycomp (by decide)
    · rfl
    · rfl
    · exact narrow s.hashLen (by decide)
    · rfl
    · rfl
    · rfl
    · exact narrow s.qmax (by decide)
    · rfl
    · exact State.readCsr_pixCap_toNat

/-! ## The bits of STATUS -/

theorem flagBit_eq (b : Bool) (i : Nat) : flagBit b i = b.toNat * 2 ^ i := by
  cases b <;> simp [flagBit]

/-- STATUS as a number (10_state.md R23). -/
theorem State.status_toNat (s : State) :
    s.status.toNat = s.busy.toNat + s.done.toNat * 2 + s.err.toNat * 4 + s.cmdlost.toNat * 8
      + s.errcode.toNat * 256 := by
  have hb := s.busy.toNat_le
  have hd := s.done.toNat_le
  have he := s.err.toNat_le
  have hc := s.cmdlost.toNat_le
  have hcode := s.errcode.isLt
  simp only [State.status, flagBit_eq, BitVec.toNat_ofNat]
  omega

theorem getLsbD_eq_iff {x : Word} {i : Nat} {b : Bool} : x.getLsbD i = b ↔ x.toNat / 2 ^ i % 2 = b.toNat := by
  rw [← Nat.toNat_testBit, BitVec.testBit_toNat]
  cases x.getLsbD i <;> cases b <;> simp

theorem extractLsb'_eq_iff {x : Word} {i k : Nat} {y : BitVec k} :
    x.extractLsb' i k = y ↔ x.toNat / 2 ^ i % 2 ^ k = y.toNat := by
  rw [← BitVec.toNat_inj, BitVec.extractLsb'_toNat, Nat.shiftRight_eq_div_pow]

/-- Settles O12, from the value of STATUS: each flag is below 2 and ERRCODE below 256. -/
theorem statusReadsItsFields : Obligations.StatusReadsItsFields := by
  intro s rest hr ha
  have hb := s.busy.toNat_le
  have hd := s.done.toNat_le
  have he := s.err.toNat_le
  have hc := s.cmdlost.toNat_le
  have hcode := s.errcode.isLt
  have herr : s.err = true ↔ s.errcode ≠ 0 := decide_eq_true_iff
  refine ⟨s.status, step_readCsr (n := 2) (by decide) hr ha, ?_⟩
  rw [← herr, ← Bool.eq_iff_iff]
  simp only [getLsbD_eq_iff, extractLsb'_eq_iff, State.status_toNat, BitVec.ofNat_eq_ofNat, BitVec.toNat_ofNat]
  omega

/-! ## Writes of the CSRs -/

/-- Settles O9: the writes of CSRs 1 and 2, which ask for no engine phase. -/
theorem ctrlAndStatusWritesTakeEffect : Obligations.CtrlAndStatusWritesTakeEffect :=
  fun _ _ _ hr =>
    ⟨fun ha => step_writeCsr (n := 1) (by decide) hr ha, fun ha => step_writeCsr (n := 2) (by decide) hr ha⟩

theorem State.writeCsr_idle {s : State} (hb : s.busy = false) {n : Nat} (hn : n = 0 ∨ 4 ≤ n) (v : Word) :
    s.writeCsr n v = s.writeDataCsr n v := by
  unfold State.writeCsr
  split
  case h_4 => rw [State.unlessBusy, hb]; rfl
  all_goals omega

theorem State.writeDataCsr_readOnly (s : State) {n : Nat} (hn : n = 0 ∨ 13 ≤ n) (v : Word) :
    s.writeDataCsr n v = s := by
  unfold State.writeDataCsr
  split
  case h_10 => rfl
  all_goals omega

/-- Settles O13, register by register. -/
theorem csrWritesStoreTheLowBits : Obligations.CsrWritesStoreTheLowBits := by
  intro s n v rest hb hr hn ha t
  have hstep (h : n = 0 ∨ 4 ≤ n) :
      step s = .next { { s with agenda := rest }.writeDataCsr n v with port := .written } := by
    rw [step_writeCsr hn hr ha, State.writeCsr_idle (s := { s with agenda := rest }) hb h]
  have low (k : Nat) (hk : k ≤ 64) : v.extractLsb' 0 k = v.setWidth k := (BitVec.setWidth_eq_extractLsb' hk).symm
  rw [low 16 (by decide), low 8 (by decide)]
  refine ⟨?_, ?_, ?_, ?_, ?_, ?_, ?_, ?_, ?_, fun h => ?readOnly⟩
  case readOnly => rw [hstep (by omega), State.writeDataCsr_readOnly _ h]
  all_goals
    rintro rfl
    exact hstep (by decide)

/-! ## The ALPHA ROM -/

/-- The ROM of the model holds the codes of 42_base83.md R120. -/
theorem alpha_eq_symbolCode : ∀ i : Fin 83, alpha i = BitVec.ofNat 8 (symbolCode i) := by decide +kernel

/-- Settles O18: the ROM is read from its row, in which no store takes effect. -/
theorem alphaRomReadsTheAlphabet : Obligations.AlphaRomReadsTheAlphabet := by
  intro s i v rest hi hr a
  have haddr : a.toNat = 0x2100 + i := Nat.mod_eq_of_lt (by omega)
  have hrow (cap : Nat) : rowOf cap a.toNat = .alpha := rowOf_alpha (by omega) (by omega)
  have hl (cap : Nat) : legalAccess cap .w8 a.toNat = true := (legalAccess_w8_iff _ _).2 (by omega)
  refine ⟨fun ha => ?_, fun ha => ?_⟩
  · have hdata : alpha (a.toNat - alphaBase) = BitVec.ofNat 8 (symbolCode i) := by
      rw [haddr, Nat.add_sub_cancel_left]
      exact alpha_eq_symbolCode ⟨i, by omega⟩
    rw [step_legalAccess hr ha (hl _), State.accessData, State.load8, hrow]
    simp only [hdata]
    rfl
  · rw [step_legalAccess hr ha (hl _), State.accessEffect, State.store8, hrow]
    rfl

end Sys2Proof.Machine

/-! SUPPORT. The address map: legal and illegal accesses, reserved rows, the byte and coefficient windows. -/

namespace Sys2Proof.Machine

/-! ## One step for one access, legal or not -/

/-- An illegal access as the next event (20_memory.md R67). -/
theorem step_illegalAccess {s : State} {x : Access} {rest : List Event} (hr : s.resetHeld = false)
    (ha : s.agenda = .host x :: rest) (hl : ¬ legalAccess s.params.pixCap x.width x.addr = true) :
    step s = .next { s with agenda := rest, port := .busError } := by
  rw [step_host ha]
  exact congrArg _ (State.hostAccess_illegal hr hl)

/-- A read, answered or not, moves the response only (20_memory.md R71). -/
theorem State.hostAccess_read (s : State) (w : Width) (a : Addr) :
    ∃ r, s.hostAccess (.read w a) = { s with port := r } := by
  unfold State.hostAccess
  split_ifs
  · exact ⟨_, rfl⟩
  · exact ⟨_, rfl⟩
  · exact ⟨_, rfl⟩

/-- Settles O10: a read moves the response only, and the step takes the read from the agenda. -/
theorem readsHaveNoSideEffect : Obligations.ReadsHaveNoSideEffect := by
  intro s w a rest ha
  obtain ⟨r, hread⟩ := ({ s with agenda := rest } : State).hostAccess_read w a
  exact ⟨_, step_host ha, by rw [hread]⟩

section LegalAccess

variable {s : State} {a : Addr} {rest : List Event} (hr : s.resetHeld = false)
include hr

theorem step_read8 {v : Byte} (ha : s.agenda = .host (.read .w8 a) :: rest)
    (hl : legalAccess s.params.pixCap .w8 a.toNat = true) (hload : s.load8 a.toNat = v) :
    step s = .next { s with agenda := rest, port := .data8 v } :=
  hload ▸ step_legalAccess hr ha hl

theorem step_read64 {v : Word} (ha : s.agenda = .host (.read .w64 a) :: rest)
    (hl : legalAccess s.params.pixCap .w64 a.toNat = true) (hload : s.load64 a.toNat = v) :
    step s = .next { s with agenda := rest, port := .data64 v } :=
  hload ▸ step_legalAccess hr ha hl

theorem step_write8 {v : Byte} {t : State} (ha : s.agenda = .host (.write8 a v) :: rest)
    (hl : legalAccess s.params.pixCap .w8 a.toNat = true) (hstore : { s with agenda := rest }.store8 a.toNat v = t) :
    step s = .next { t with port := .written } :=
  hstore ▸ step_legalAccess hr ha hl

theorem step_write64 {v : Word} {t : State} (ha : s.agenda = .host (.write64 a v) :: rest)
    (hl : legalAccess s.params.pixCap .w64 a.toNat = true) (hstore : { s with agenda := rest }.store64 a.toNat v = t) :
    step s = .next { t with port := .written } :=
  hstore ▸ step_legalAccess hr ha hl

end LegalAccess

/-! ## Bus errors -/

/-- The illegal accesses in numbers, at either width (20_memory.md R60, R63). -/
theorem not_legalAccess_iff (cap a : Nat) (w : Width) :
    ¬ legalAccess cap w a = true ↔
      (w = .w8 ∧ a < 0x1798) ∨
        (w = .w64 ∧
          (a % 8 ≠ 0 ∨ (0x2000 ≤ a + 7 ∧ a ≤ 0x20A5) ∨ (0x2100 ≤ a + 7 ∧ a ≤ 0x2152) ∨
            (0x10000 ≤ a + 7 ∧ a < 0x10000 + cap))) := by
  cases w with
  | w8 => rw [legalAccess_w8_iff]; simp
  | w64 => rw [legalAccess_w64_iff]; simp only [reduceCtorEq, false_and, false_or, true_and]; omega

/-- A legal access is never answered by a bus error (20_memory.md R67). -/
theorem State.accessData_ne_busError (s : State) (x : Access) : s.accessData x ≠ .busError := by
  cases x with
  | read w a => cases w <;> nofun
  | write8 a v => nofun
  | write64 a v => nofun

/-- Settles O14: the listed accesses are the illegal ones, and a legal one is answered by data or by an
acknowledgement. -/
theorem illegalAccessesAreBusErrors : Obligations.IllegalAccessesAreBusErrors := by
  intro s x rest hr ha a cap illegal
  have hiff : ¬ legalAccess cap x.width a = true ↔ illegal := not_legalAccess_iff cap a x.width
  refine ⟨fun hi => step_illegalAccess hr ha (hiff.2 hi), fun hi => ⟨_, step_legalAccess hr ha ?_, ?_⟩⟩
  · exact not_not.1 (mt hiff.1 hi)
  · exact State.accessData_ne_busError _ x

/-! ## Reserved rows -/

/-- A byte of a reserved row of the map (20_memory.md R60). -/
def ReservedByte (cap a : Nat) : Prop :=
  (0x1798 ≤ a ∧ a < 0x2000) ∨ (0x20A6 ≤ a ∧ a < 0x2100) ∨ (0x2153 ≤ a ∧ a < 0x10000) ∨ 0x10000 + cap ≤ a

section Reserved

variable {cap a : Nat}

theorem legalAccess_w8_of_reserved (h : ReservedByte cap a) : legalAccess cap .w8 a = true := by
  unfold ReservedByte at h
  exact (legalAccess_w8_iff cap a).2 (by omega)

theorem legalAccess_w64_of_reserved (h : ∀ i, i < 8 → ReservedByte cap (a + i)) (h8 : a % 8 = 0) :
    legalAccess cap .w64 a = true := by
  have hfirst := h 0 (by decide)
  have hlast := h 7 (by decide)
  unfold ReservedByte at hfirst hlast
  exact (legalAccess_w64_iff cap a).2 (by omega)

variable {s : State} (h : ReservedByte s.params.pixCap a)
include h

theorem State.load8_reserved : s.load8 a = 0 := by
  rcases rowOf_reserved h with hrow | hrow | hrow | hrow <;> rw [State.load8, hrow]

theorem State.load64_reserved : s.load64 a = 0 := by
  rcases rowOf_reserved h with hrow | hrow | hrow | hrow <;> rw [State.load64, hrow]

theorem State.store8_reserved {v : Byte} : s.store8 a v = s := by
  rcases rowOf_reserved h with hrow | hrow | hrow | hrow <;> rw [State.store8, hrow]

theorem State.store64_reserved {v : Word} : s.store64 a v = s := by
  rcases rowOf_reserved h with hrow | hrow | hrow | hrow <;> rw [State.store64, hrow]

end Reserved

/-- Settles O15: every access that stays in a reserved row is legal, loads 0 and stores nothing. -/
theorem reservedAddressesReadZero : Obligations.ReservedAddressesReadZero := by
  intro s a v b rest hr cap reserved
  refine ⟨fun h ha => ?_, fun h ha => ?_, fun h h8 => ⟨fun ha => ?_, fun ha => ?_⟩⟩
  · exact step_read8 hr ha (legalAccess_w8_of_reserved h) (State.load8_reserved h)
  · exact step_write8 hr ha (legalAccess_w8_of_reserved h) (State.store8_reserved (s := { s with agenda := rest }) h)
  · exact step_read64 hr ha (legalAccess_w64_of_reserved h h8) (State.load64_reserved (h 0 (by decide)))
  · exact step_write64 hr ha (legalAccess_w64_of_reserved h h8)
      (State.store64_reserved (s := { s with agenda := rest }) (h 0 (by decide)))

/-! ## The HASH and PIX windows -/

section ByteWritten

variable {s t : State} {a : Nat} {v : Byte} (hm : t.mem = Store.write s.mem a v)
include hm

theorem State.byteAt_written_same : t.byteAt a = v := by
  rw [State.byteAt, hm, Store.read_write_same, Option.getD_some]

theorem State.byteAt_written_ne (he : t.epoch = s.epoch) {b : Nat} (hb : b ≠ a) : t.byteAt b = s.byteAt b := by
  rw [State.byteAt, hm, he, Store.read_write_ne _ _ hb.symm, State.byteAt]

end ByteWritten

section ByteWindow

variable {s : State} {a : Nat} (h : inByteWindow s.params.pixCap a)
include h

theorem rowOf_of_inByteWindow : rowOf s.params.pixCap a = .hash ∨ rowOf s.params.pixCap a = .pix := by
  rcases h with ⟨hlo, hhi⟩ | ⟨hlo, hhi⟩
  · exact .inl (rowOf_hash hlo hhi)
  · exact .inr (rowOf_pix hlo hhi)

theorem legalAccess_of_inByteWindow : legalAccess s.params.pixCap .w8 a = true := by
  simp only [inByteWindow, hashBase, pixBase] at h
  exact (legalAccess_w8_iff _ a).2 (by omega)

theorem State.load8_of_inByteWindow : s.load8 a = s.byteAt a := by
  rcases rowOf_of_inByteWindow h with hrow | hrow <;> rw [State.load8, hrow]

theorem State.store8_of_inByteWindow (hb : s.busy = false) {v : Byte} :
    s.store8 a v = { s with mem := Store.write s.mem a v } := by
  rcases rowOf_of_inByteWindow h with hrow | hrow <;> (rw [State.store8, hrow]; simp [State.unlessBusy, hb])

end ByteWindow

/-- Settles O16: the store lists one key of the byte memory, and the load reads it. -/
theorem byteWritesAreReadBack : Obligations.ByteWritesAreReadBack := by
  intro s a v rest hb hr hin ha
  have hl := legalAccess_of_inByteWindow hin
  have hstore := State.store8_of_inByteWindow (s := { s with agenda := .host (.read .w8 a) :: rest }) (v := v) hin hb
  refine ⟨_, step_write8 hr ha hl hstore, State.byteAt_written_same rfl, fun b hne => ?others, rfl, ?readBack⟩
  case others =>
    refine State.byteAt_written_ne (v := v) ?_ ?_ hne
    · rfl
    · rfl
  case readBack =>
    refine step_read8 ?_ rfl ?_ ?_
    · exact hr
    · exact hl
    · exact Eq.trans (State.load8_of_inByteWindow hin) (State.byteAt_written_same rfl)

/-! ## The COEF window -/

section CoefWritten

variable {s t : State} {e : Nat} {v : Word} (hc : t.coef = Store.write s.coef e v)
include hc

theorem State.coefElem_written_same : t.coefElem e = v := by
  rw [State.coefElem, hc, Store.read_write_same, Option.getD_some]

theorem State.coefElem_written_ne (he : t.epoch = s.epoch) {i : Nat} (hi : i ≠ e) : t.coefElem i = s.coefElem i := by
  rw [State.coefElem, hc, he, Store.read_write_ne _ _ hi.symm, State.coefElem]

end CoefWritten

/-- The host address of element `e` of COEF (20_memory.md R61). -/
def coefAddr (e : Nat) : Addr := BitVec.ofNat 32 (0x1000 + 8 * e)

section CoefWindow

variable {e : Nat} (he : e < 243)
include he

theorem toNat_coefAddr : (coefAddr e).toNat = 0x1000 + 8 * e := Nat.mod_eq_of_lt (by omega)

theorem legalAccess_coefAddr (cap : Nat) : legalAccess cap .w64 (coefAddr e).toNat = true := by
  rw [toNat_coefAddr he, legalAccess_w64_iff]
  omega

theorem rowOf_coefAddr (cap : Nat) : rowOf cap (coefAddr e).toNat = .coef := by
  rw [toNat_coefAddr he]
  exact rowOf_coef (by omega) (by omega)

theorem coefIndex_coefAddr : ((coefAddr e).toNat - coefBase) / 8 = e := by
  rw [toNat_coefAddr he, coefBase]
  omega

theorem State.load64_coefAddr (s : State) : s.load64 (coefAddr e).toNat = s.coefElem e := by
  rw [State.load64, rowOf_coefAddr he]
  simp only [coefIndex_coefAddr he]

theorem State.store64_coefAddr {s : State} (hb : s.busy = false) {v : Word} :
    s.store64 (coefAddr e).toNat v = { s with coef := Store.write s.coef e v } := by
  rw [State.store64, rowOf_coefAddr he]
  simp [State.unlessBusy, hb, coefIndex_coefAddr he]

end CoefWindow

/-- Settles O17: the store lists one element of COEF, and the load reads it. -/
theorem coefWritesAreReadBack : Obligations.CoefWritesAreReadBack := by
  intro s k c v rest hb hr hk hc a ha
  have he : 3 * k + c < 243 := by omega
  have hl := legalAccess_coefAddr he s.params.pixCap
  have hstore := State.store64_coefAddr he (s := { s with agenda := .host (.read .w64 a) :: rest }) (v := v) hb
  refine ⟨_, step_write64 hr ha hl hstore, State.coefElem_written_same rfl, fun e hne => ?others, rfl, ?readBack⟩
  case others =>
    refine State.coefElem_written_ne (v := v) ?_ ?_ hne
    · rfl
    · rfl
  case readBack =>
    refine step_read64 ?_ rfl ?_ ?_
    · exact hr
    · exact hl
    · exact Eq.trans (State.load64_coefAddr he _) (State.coefElem_written_same rfl)

end Sys2Proof.Machine

/-! SUPPORT. Host accesses while a command runs: what they change, what the command and the reads see of it. -/

namespace Sys2Proof.Machine

/-! ## What the host can change while BUSY -/

/-- `s` after host accesses made while BUSY (70_reset_and_hazards.md R261, R262): IRQEN, CMDLOST and the response are
new, DONE is kept or cleared, and nothing else moves. -/
def State.touched (s : State) (irqen keepDone cmdlost : Bool) (port : Response) : State :=
  { s with irqen := irqen, done := s.done && keepDone, cmdlost := cmdlost, port := port }

theorem State.touched_self (s : State) : s = s.touched s.irqen true s.cmdlost s.port := by
  simp [State.touched]

theorem State.touched_touched (s : State) (i i' k k' c c' : Bool) (p p' : Response) :
    (s.touched i k c p).touched i' k' c' p' = s.touched i' (k && k') c' p' := by
  simp [State.touched, Bool.and_assoc]

/-- An access made while BUSY touches the block so. -/
theorem State.accessEffect_busy {s : State} (hb : s.busy = true) (x : Access) :
    ∃ i k c, s.accessEffect x = s.touched i k c s.port := by
  have idle (h : s.busy = false) : False := Bool.false_ne_true (h.symm.trans hb)
  rcases s.accessEffect_cases x with heq | ⟨v, heq⟩ | ⟨v, heq⟩ | ⟨v, heq⟩ | ⟨h, _⟩ | ⟨h, _⟩ | ⟨h, _⟩
  · exact ⟨_, true, _, heq.trans s.touched_self⟩
  · exact ⟨v.getLsbD 0, true, s.cmdlost, by rw [heq]; simp [State.writeCtrl, State.touched]⟩
  · exact ⟨s.irqen, _, _, heq⟩
  · exact ⟨s.irqen, true, true, by rw [heq]; simp [State.writeCmd, hb, State.touched]⟩
  · exact (idle h).elim
  · exact (idle h).elim
  · exact (idle h).elim

theorem State.hostAccess_busy {s : State} (hb : s.busy = true) (x : Access) :
    ∃ i k c p, s.hostAccess x = s.touched i k c p := by
  have answered (r : Response) : ∃ i k c p, ({ s with port := r } : State) = s.touched i k c p :=
    ⟨s.irqen, true, s.cmdlost, r, by simp [State.touched]⟩
  unfold State.hostAccess
  split_ifs
  · exact answered _
  · obtain ⟨i, k, c, heq⟩ := State.accessEffect_busy hb x
    exact ⟨i, k, c, s.accessData x, by rw [heq]; rfl⟩
  · exact answered _

/-- Any number of accesses made while BUSY touch the block as one does: the engine stays BUSY. -/
theorem State.foldl_hostAccess_busy {s : State} (hb : s.busy = true) (xs : List Access) :
    ∃ i k c p, xs.foldl State.hostAccess s = s.touched i k c p := by
  induction xs generalizing s with
  | nil => exact ⟨_, _, _, _, s.touched_self⟩
  | cons x xs ih =>
    obtain ⟨i, k, c, p, hx⟩ := State.hostAccess_busy hb x
    obtain ⟨i', k', c', p', hxs⟩ := ih (s := s.touched i k c p) hb
    exact ⟨i', k && k', c', p', by rw [List.foldl_cons, hx, hxs, State.touched_touched]⟩

/-! ## The running command does not see it -/

section Command

variable (s : State) (i k c : Bool) (p : Response)

theorem decodeAcs_touched (fn : Libm) (mv : F64) (count n : Nat) :
    decodeAcs fn (s.touched i k c p) mv count n = decodeAcs fn s mv count n := by
  induction count generalizing n with
  | zero => rfl
  | succ count ih => simp only [decodeAcs, ih]; rfl

theorem stageDecode_touched (fn : Libm) : stageDecode fn (s.touched i k c p) = stageDecode fn s := by
  simp only [stageDecode, decodeFields, decodeAcs_touched]
  rfl

/-- No command reads what a touch changes. -/
theorem stageOf_touched (x : Instr) : stageOf x (s.touched i k c p) = stageOf x s := by
  cases x with
  | decode => exact stageDecode_touched s i k c p Config.libm
  | _ => rfl

/-- Completion overwrites DONE and leaves IRQEN, CMDLOST and the response as they stand. -/
theorem State.complete_touched (e : Except Raise Staged) :
    (s.touched i k c p).complete e = { s.complete e with irqen := i, cmdlost := c, port := p } := by
  cases e with
  | ok x => rfl
  | error r => rfl

variable {s} {t : State}

theorem performWord_touched {w : Word} (h : performWord w s = .next t) :
    performWord w (s.touched i k c p) = .next { t with irqen := i, cmdlost := c, port := p } := by
  unfold performWord at h ⊢
  cases hd : decode w with
  | ok x =>
    simp only [hd, exec_eq_next_iff] at h ⊢
    rw [stageOf_touched, State.complete_touched, h]
  | error e =>
    simp only [hd] at h ⊢
    cases h
    rfl

theorem completeRunning_touched (hb : s.busy = true) (h : completeRunning s = .next t) :
    completeRunning (s.touched i k c p) = .next { t with irqen := i, cmdlost := c, port := p } := by
  obtain ⟨w, b, he⟩ := State.busy_eq_true_iff.1 hb
  have run {s' : State} (he' : s'.engine = .busy w b) : completeRunning s' = performWord w s' := by
    rw [completeRunning, he']
  rw [run he] at h
  rw [run (s' := s.touched i k c p) he]
  exact performWord_touched i k c p h

end Command

/-! ## The reads do not see the command -/

/-- Acceptance, a CMD write while IDLE (60_exceptions.md R225), and whatever accesses come after it. -/
theorem State.foldl_hostAccess_cmd {s : State} (he : s.engine = .idle) (hr : s.resetHeld = false) (w : Word)
    (xs : List Access) :
    ∃ i k c p, xs.foldl State.hostAccess (s.hostAccess (.write64 (csrAddr 3) w)) = (s.accept w).touched i k c p := by
  have hcmd : s.hostAccess (.write64 (csrAddr 3) w) = (s.accept w).touched s.irqen true s.cmdlost .written := by
    rw [State.hostAccess_legal hr (legalAccess_csr _ (by decide)), State.accessEffect, State.store64_csr s (by decide),
      State.writeCsr, State.writeCmd, State.busy_eq_false_iff.2 he]
    rfl
  obtain ⟨i, k, c, p, h⟩ := State.foldl_hostAccess_busy (s := (s.accept w).touched s.irqen true s.cmdlost .written) rfl xs
  exact ⟨i, true && k, c, p, by rw [hcmd, h, State.touched_touched]⟩

/-- The response of a block that is not held in reset (20_memory.md R67). -/
theorem State.hostAccess_port {s : State} (hr : s.resetHeld = false) (x : Access) :
    (s.hostAccess x).port = if legalAccess s.params.pixCap x.width x.addr then s.accessData x else .busError := by
  split_ifs with hl
  · rw [State.hostAccess_legal hr hl]
  · rw [State.hostAccess_illegal hr hl]

section Reads

variable {s : State} (he : s.engine = .idle) (w : Word) (i k c : Bool) (p : Response)

theorem State.status_accepted : ((s.accept w).touched i k c p).status = if c then 0x9 else 0x1 := by
  simp only [State.status, State.touched, State.accept, State.busy, State.err]
  cases c
  · rfl
  · rfl

theorem State.load8_accepted (a : Nat) : ((s.accept w).touched i k c p).load8 a = s.load8 a := rfl

include he

theorem State.readCsr_accepted {n : Nat} (hn : n ≠ 2) : ((s.accept w).touched i k c p).readCsr n = s.readCsr n := by
  have hview : ((s.accept w).touched i k c p).readable = s.readable := (State.readable_idle he).symm
  unfold State.readCsr State.ctrl
  rw [hview]
  split
  case h_3 => exact absurd rfl hn
  all_goals rfl

theorem State.load64_accepted {a : Nat} (ha : a / 8 ≠ 2) :
    ((s.accept w).touched i k c p).load64 a = s.load64 a := by
  unfold State.load64
  have hrow : rowOf ((s.accept w).touched i k c p).params.pixCap a = rowOf s.params.pixCap a := rfl
  rw [hrow]
  split
  · exact State.readCsr_accepted he w i k c p ha
  · rfl
  · rfl

/-- No read but that of STATUS sees the acceptance and what came after it (70_reset_and_hazards.md R263). -/
theorem State.port_read_accepted (hr : s.resetHeld = false) {d : Width} {a : Addr} (ha : ¬(d = .w64 ∧ a = 0x010)) :
    (((s.accept w).touched i k c p).hostAccess (.read d a)).port = (s.hostAccess (.read d a)).port := by
  rw [State.hostAccess_port hr, State.hostAccess_port (s := (s.accept w).touched i k c p) hr]
  refine ite_congr rfl (fun hl => ?_) (fun _ => rfl)
  cases d with
  | w8 => rfl
  | w64 =>
    have h8 : a.toNat % 8 = 0 := ((legalAccess_w64_iff _ _).1 hl).1
    have hstatus (hn : a.toNat / 8 = 2) : a = 0x010 := by bv_omega
    exact congrArg Response.data64 (State.load64_accepted he w i k c p fun hn => ha ⟨rfl, hstatus hn⟩)

end Reads

/-- Settles O51. An access made while BUSY touches only what no command reads and completion overwrites or leaves; of
what acceptance and such accesses change, the port answers STATUS alone as it now stands. -/
theorem busyAccessesDoNotReachTheCommand : Obligations.BusyAccessesDoNotReachTheCommand := by
  refine ⟨fun s t x hb _ h => ?_, fun s w xs he hr => ?_⟩
  · obtain ⟨i, k, c, p, hx⟩ := State.hostAccess_busy hb x
    rw [hx]
    exact completeRunning_touched i k c p hb h
  · intro u
    obtain ⟨i, k, c, p, hu⟩ : ∃ i k c p, u = (s.accept w).touched i k c p := State.foldl_hostAccess_cmd he hr w xs
    rw [hu]
    refine ⟨fun d a ha => State.port_read_accepted he w i k c p hr ha, ?_⟩
    rw [State.hostAccess_port (s := (s.accept w).touched i k c p) hr]
    refine (if_pos (legalAccess_csr _ (n := 2) (by decide))).trans (congrArg Response.data64 ?_)
    exact (State.load64_csr _ (n := 2) (by decide)).trans (State.status_accepted w i k c p)

end Sys2Proof.Machine

/-! SUPPORT. The encoding: the fields of a word, and the command the decoder reads from them. -/

namespace Sys2Proof.Laws.EncodedWord

/-- The per-instruction family, for every command. -/
theorem statement : ∀ i, Statement i
  | .nop => nop
  | .tolin => tolin
  | .togam => togam
  | .b83enc n => b83enc n
  | .b83dec n => b83dec n
  | .qdc => qdc
  | .qmax => qmax
  | .qac => qac
  | .dqdc => dqdc
  | .dqmax => dqmax
  | .dqac => dqac
  | .fdct => fdct
  | .idct => idct
  | .encode => encode
  | .decode => decode

end Sys2Proof.Laws.EncodedWord

namespace Sys2Proof

/-! ## The fields of a word -/

theorem toNat_eq_fields (w : Word) : w.toNat = opcField w + nField w * 256 + rsvField w * 4096 := by
  unfold opcField nField rsvField
  omega

theorem nField_lt (w : Word) : nField w < 16 := Nat.mod_lt _ (by decide)

theorem opcode_lt (i : Instr) : opcode i < 256 := by cases i <;> simp [opcode]

theorem Instr.wf_iff (i : Instr) : i.wf = true ↔ digitCount i < 16 := by
  cases i <;> simp [Instr.wf, digitCount]

theorem encode_eq (i : Instr) : encode i = BitVec.ofNat 64 (opcode i + digitCount i * 256) :=
  congrArg _ (Machine.or_shiftLeft_eq (k := 8) (opcode_lt i))

/-! ## The command of the fields -/

theorem withoutDigits_eq_ok_iff {i j : Instr} {n : Nat} : withoutDigits i n = .ok j ↔ n = 0 ∧ i = j := by
  unfold withoutDigits
  split_ifs with h
  · simp [h]
  · simp [h]

theorem fields_of_decode {w : Word} {i : Instr} (h : decode w = .ok i) :
    rsvField w = 0 ∧ opcField w = opcode i ∧ nField w = digitCount i := by
  unfold decode at h
  split_ifs at h with hr
  refine ⟨not_not.1 hr, ?_⟩
  split at h
  case h_4 ho | h_5 ho => cases h; exact ⟨ho, rfl⟩
  case h_16 => cases h
  all_goals
    rename_i ho
    obtain ⟨hn, rfl⟩ := withoutDigits_eq_ok_iff.1 h
    exact ⟨ho, hn⟩

theorem decode_of_fields {w : Word} {i : Instr} (hr : rsvField w = 0) (ho : opcField w = opcode i)
    (hn : nField w = digitCount i) : decode w = .ok i := by
  unfold decode
  rw [if_neg (not_not.2 hr), ho, hn]
  cases i <;> rfl

/-- Settles O1: the fields of the word `encode` writes are those by which the decoder knows the command. -/
theorem decodeOfEncodeIsIdentity : Obligations.DecodeOfEncodeIsIdentity := by
  intro i hi
  obtain ⟨ho, hn, hr⟩ := Laws.EncodedWord.statement i hi
  exact decode_of_fields hr ho hn

/-- Settles O2: no bit lies outside the three fields, and the fields of the word are those of the command. -/
theorem encodeOfDecodeIsIdentity : Obligations.EncodeOfDecodeIsIdentity := by
  intro w i h
  obtain ⟨hr, ho, hn⟩ := fields_of_decode h
  refine ⟨(Instr.wf_iff i).2 (hn ▸ nField_lt w), ?_⟩
  have hw : opcField w + nField w * 256 = w.toNat := by rw [toNat_eq_fields w, hr, Nat.zero_mul, Nat.add_zero]
  rw [encode_eq, ← ho, ← hn, hw, BitVec.ofNat_toNat, BitVec.setWidth_eq]

theorem exists_withoutDigits_eq_error_iff {i : Instr} {n : Nat} :
    (∃ e, withoutDigits i n = .error e) ↔ n ≠ 0 := by
  unfold withoutDigits
  split_ifs with h
  · simp [h]
  · simp [h]

/-- Settles O3, branch by branch of the decoder: a reserved bit, the rows of the opcode table, no row. -/
theorem reservedWordsAreExactlyTheRejected : Obligations.ReservedWordsAreExactlyTheRejected := by
  intro w
  change (∃ e, decode w = .error e) ↔ rsvField w ≠ 0 ∨ opcField w ∉ _ ∨
    (nField w ≠ 0 ∧ opcField w ≠ 0x10 ∧ opcField w ≠ 0x11)
  unfold decode
  split_ifs with hr
  · simp [hr]
  · split
    case h_4 ho | h_5 ho => simp [hr, ho]
    case h_16 =>
      refine iff_of_true ⟨_, rfl⟩ (.inr (.inl ?_))
      simp only [List.mem_cons, List.not_mem_nil, or_false]
      tauto
    all_goals
      rename_i ho
      rw [exists_withoutDigits_eq_error_iff]
      simp [hr, ho]

/-- Settles O4: each word is the one `encode` writes for its command. -/
theorem writtenOutWordsDecode : Obligations.WrittenOutWordsDecode := by
  have word := decodeOfEncodeIsIdentity
  exact ⟨word .nop rfl, word .tolin rfl, word .togam rfl, word (.b83enc 2) rfl, word (.b83enc 4) rfl,
    word (.b83dec 10) rfl, word .qdc rfl, word .qmax rfl, word .qac rfl, word .dqdc rfl, word .dqmax rfl,
    word .dqac rfl, word .fdct rfl, word .idct rfl, word .encode rfl, word .decode rfl⟩

end Sys2Proof

/-! SUPPORT. The command a completion runs, and what each command may stage. -/

namespace Sys2Proof.Machine

open Sys2Proof.Statements

/-! ## The completion of the latched word -/

section Completion

variable {s : State} {w : Word} {b : HostView} (he : s.engine = .busy w b)
include he

theorem completeRunning_busy : completeRunning s = performWord w s := by
  rw [completeRunning, he]

theorem completeRunning_of_decode_ok {i : Instr} (hd : decode w = .ok i) : completeRunning s = exec i s := by
  rw [completeRunning_busy he, performWord, hd]

theorem completeRunning_of_decode_error (hd : ∃ e, decode w = .error e) :
    completeRunning s = .next (errState s 16 0 w.toNat 0) := by
  obtain ⟨e, hd⟩ := hd
  have hact : contextWord w.toNat = BitVec.ofNat 64 w.toNat := contextWord_of_lt w.isLt
  rw [completeRunning_busy he, performWord, hd, errState, ← hact]
  rfl

end Completion

theorem step_complete {s : State} {rest : List Event} (h : s.agenda = .complete :: rest) :
    step s = completeRunning { s with agenda := rest } := step_cons h

/-- Settles O5: either way the step completes the latched word, and its command is what the word decodes to. -/
theorem stepRunsTheLatchedCommand : Obligations.StepRunsTheLatchedCommand := by
  intro s w b i he hd
  refine ⟨fun ha => ?_, fun rest ha => ?_⟩
  · rw [step_nil ha, completeRunning_of_decode_ok he hd]
  · rw [step_complete ha]
    exact completeRunning_of_decode_ok (s := { s with agenda := rest }) he hd

/-- Settles O6: either way the step completes the latched word, and the raise of a word, which is below `2^64`, is
narrowed to the word itself. -/
theorem illegalWordCompletesWithIllegalCommand : Obligations.IllegalWordCompletesWithIllegalCommand := by
  intro s w b he hd
  refine ⟨fun ha => ?_, fun rest ha => ?_⟩
  · rw [step_nil ha, completeRunning_of_decode_error he hd]
  · rw [step_complete ha]
    exact completeRunning_of_decode_error (s := { s with agenda := rest }) he hd

/-! ## What a command may stage -/

/-- Every result that `e` ends in has the property. -/
def Yields {α : Type} (P : α → Prop) (e : Except Raise α) : Prop := ∀ a, e = .ok a → P a

theorem Yields.ok {α : Type} {P : α → Prop} {a : α} (h : P a) : Yields P (.ok a) := by
  rintro _ ⟨⟩
  exact h

theorem Yields.bind {α β : Type} {P : β → Prop} {e : Except Raise α} {f : α → Except Raise β}
    (h : ∀ a, Yields P (f a)) : Yields P (e >>= f) := by
  intro b hb
  obtain ⟨a, _, hfa⟩ := bind_eq_ok.1 hb
  exact h a b hfa

/-- Staged results that write only what the opcode map gives command `i` (30_encoding.md R82). -/
structure Staged.WritesOf (i : Instr) (x : Staged) : Prop where
  r0 : i ∉ [.tolin, .togam, .qdc, .qac] → (∀ n, i ≠ .b83dec n) → x.r0 = none := by simp
  scale : i ∉ [.qmax, .dqmax, .encode, .decode] → x.qmax = none ∧ x.maxval = none := by simp
  pixLen : i ∉ [.idct, .decode] → x.pixLen = none := by simp
  hashLen : i ≠ .encode → x.hashLen = none := by simp
  counts : i ≠ .decode → x.xcomp = none ∧ x.ycomp = none := by simp
  coef : i ∉ [.dqdc, .dqac, .fdct, .encode, .decode] → x.coef.2 = [] := by simp
  hash : i ≠ .encode → (∀ n, i ≠ .b83enc n) → x.hash.2 = [] := by simp
  pix : i ∉ [.idct, .decode] → x.pix = [] := by simp

/-- Every command stages only its own registers and buffers, whatever its checks find. -/
theorem stageOf_writesOf (i : Instr) (s : State) : Yields (Staged.WritesOf i) (stageOf i s) := by
  cases i with
  | nop => exact .ok {}
  | tolin => exact .ok {}
  | togam => exact .ok {}
  | b83enc n => exact .bind fun _ => .bind fun _ => .ok {}
  | b83dec n => exact .bind fun _ => .bind fun _ => .bind fun _ => .ok {}
  | qdc => exact .ok {}
  | qmax => exact .bind fun _ => .ok {}
  | qac => exact .bind fun _ => .ok {}
  | dqdc => exact .bind fun _ => .bind fun _ => .ok {}
  | dqmax => exact .bind fun _ => .ok {}
  | dqac => exact .bind fun _ => .bind fun _ => .bind fun _ => .ok {}
  | fdct => exact .bind fun _ => .ok {}
  | idct => exact .bind fun _ => .bind fun _ => .ok {}
  | encode => exact .bind fun _ => .ok {}
  | decode => exact .bind fun _ => .bind fun _ => .bind fun _ => .ok {}

/-! ## What a completion leaves as it was -/

/-- Bytes outside the HASH run and the PIX run are as they were. -/
theorem State.commit_byteAt_outside (s : State) (x : Staged) {a : Nat}
    (hp : a < pixBase ∨ pixBase + x.pix.length ≤ a)
    (hh : a < hashBase + x.hash.1 ∨ hashBase + x.hash.1 + x.hash.2.length ≤ a) :
    (s.commit x).byteAt a = s.byteAt a := by
  rw [State.commit_byteAt, if_neg (by omega), if_neg (by omega)]

section Commit

variable {i : Instr} {s : State} {x : Staged} (hw : x.WritesOf i)
include hw

theorem Staged.WritesOf.commit_coef (h : i ∉ [.dqdc, .dqac, .fdct, .encode, .decode]) :
    (s.commit x).coef = s.coef := by
  simp [hw.coef h]

theorem Staged.WritesOf.commit_mem (hp : i ∉ [.idct, .encode, .decode]) (hh : ∀ n, i ≠ .b83enc n) :
    (s.commit x).mem = s.mem := by
  simp only [List.mem_cons, List.not_mem_nil, or_false, not_or] at hp
  obtain ⟨hidct, hencode, hdecode⟩ := hp
  simp [hw.pix (by simp [hidct, hdecode]), hw.hash hencode hh]

theorem Staged.WritesOf.commit_byteAt_of_hash (hl : x.Legal s.params.pixCap) (h : i = .encode ∨ ∃ n, i = .b83enc n)
    {a : Nat} (ha : a < 0x2000 ∨ 0x20A5 < a) : (s.commit x).byteAt a = s.byteAt a := by
  have hpix : x.pix = [] := hw.pix (by rcases h with rfl | ⟨n, rfl⟩ <;> simp)
  have hhash : x.hash.1 + x.hash.2.length ≤ 166 := hl.hashInWindow
  have hbase : hashBase = 0x2000 := rfl
  exact s.commit_byteAt_outside x (by rw [hpix, List.length_nil]; omega) (by omega)

theorem Staged.WritesOf.commit_byteAt_of_pix (h : i = .idct ∨ i = .decode) {a : Nat} (ha : a < 0x10000) :
    (s.commit x).byteAt a = s.byteAt a := by
  have hhash : x.hash.2 = [] := by rcases h with rfl | rfl <;> exact hw.hash nofun nofun
  exact s.commit_byteAt_outside x (.inl ha) (by rw [hhash, List.length_nil]; omega)

end Commit

/-- Settles O48: a completion with results commits only what the opcode map lets the command stage, its runs inside
their windows; one with an error commits nothing. -/
theorem commandsWriteOnlyTheirRegisters : Obligations.CommandsWriteOnlyTheirRegisters := by
  intro i s t h
  obtain rfl := exec_eq_next_iff.1 h
  rcases s.complete_cases (stageOf i s) with ⟨x, hx, heq⟩ | ⟨r, _, heq⟩
  all_goals rw [heq]
  · have hw := stageOf_writesOf i s x hx
    refine ⟨⟨rfl, rfl, rfl, rfl, rfl, rfl, rfl, rfl, rfl, rfl, rfl, rfl⟩, fun h h' => ?_, fun h => ?_,
      fun h => ?_, fun h => ?_, fun h => ?_, hw.commit_coef, hw.commit_mem,
      fun h a => hw.commit_byteAt_of_hash (stageOf_legal hx) h, fun h a => hw.commit_byteAt_of_pix h⟩
    · simp [hw.r0 h h']
    · simp [hw.scale h]
    · simp [hw.pixLen h]
    · simp [hw.hashLen h]
    · simp [hw.counts h]
  · exact ⟨⟨rfl, rfl, rfl, rfl, rfl, rfl, rfl, rfl, rfl, rfl, rfl, rfl⟩, fun _ _ => rfl, fun _ => ⟨rfl, rfl⟩,
      fun _ => rfl, fun _ => rfl, fun _ => ⟨rfl, rfl⟩, fun _ => rfl, fun _ _ => rfl, fun _ _ _ => rfl,
      fun _ _ _ => rfl⟩

end Sys2Proof.Machine

/-! SUPPORT. The colour space: the byte that truncation gives, and the clamp of the gamma operand. -/

namespace Sys2Proof.Machine

open Sys2Proof.Statements

/-! ## Truncation to a byte -/

theorem truncByte_of_unpack {t : F64} {neg : Bool} {m : Nat} {e : Int} (hu : Fp.unpack t = .fin neg m e)
    (hneg : neg = true → m = 0) (hlt : Fp.floorFin false m e < 256) :
    truncByte t = BitVec.ofNat 8 (Fp.floorFin false m e).toNat := by
  have hfree : ¬((neg = true ∧ m ≠ 0) ∨ 256 ≤ Fp.floorFin false m e) := by
    rintro (⟨hn, hm⟩ | hge)
    · exact hm (hneg hn)
    · omega
  simp only [truncByte, hu, if_neg hfree]

/-- In the range of 41_colorspace.md R103 the byte is the floor. Of the negative encodings only `-0.0` has a value
there, and it truncates as `+0.0` does. -/
theorem truncByte_of_value {t : F64} {a : Rat} (ht : value t = some a) (h0 : 0 ≤ a) (h256 : a < 256) :
    ((truncByte t).toNat : Int) = ⌊a⌋ := by
  obtain ⟨m, e, hu, -, rfl⟩ := Fp.unpack_of_value ht
  have hnonneg : (0 : Rat) ≤ m * (2 : Rat) ^ e := by positivity
  have hmag : Fp.signed (Fp.sign t) (m * (2 : Rat) ^ e) = Fp.signed false (m * (2 : Rat) ^ e) := by
    rw [Fp.signed_false, ← abs_of_nonneg h0, Fp.abs_signed, abs_of_nonneg hnonneg]
  have hneg : Fp.sign t = true → m = 0 := by
    intro hs
    rw [hs, Fp.signed_true, neg_nonneg] at h0
    simpa [zpow_ne_zero] using h0.antisymm hnonneg
  rw [hmag] at h0 h256 ⊢
  rw [← Int.floor_nonneg, Fp.floor_signed] at h0
  have hlt : Fp.floorFin false m e < 256 := by
    rw [← Fp.floor_signed, Int.floor_lt]; exact_mod_cast h256
  rw [Fp.floor_signed, truncByte_of_unpack hu hneg hlt, BitVec.toNat_ofNat]
  omega

/-! ## TOLIN and TOGAM -/

theorem toGamma_eq (fn : Libm) (mode : GammaRounding) (x : F64) :
    toGamma fn mode x = truncByte
      (if mode = .nearest then Fp.add (Fp.mul (gammaCurve fn (Fp.clamp01 x)) Fp.c255_0) Fp.c0_5
        else Fp.mul (gammaCurve fn (Fp.clamp01 x)) Fp.c255_0) := by
  cases mode <;> rfl

/-- A command that stages only R0 completes without error and changes nothing else. -/
theorem exec_of_stages_r0 {i : Instr} {s : State} {v : Word} (h : stageOf i s = .ok { r0 := some v }) :
    exec i s = .next { okState s with r0 := v } := by
  rw [exec_eq, h, State.complete_ok, State.finish_commit_r0]
  rfl

/-- Settles O24: TOGAM stages the gamma byte, and the byte is the truncation of the scaled curve. -/
theorem togamWritesTheGammaByte : Obligations.TogamWritesTheGammaByte := by
  intro s byte v g t
  constructor
  · rw [BitVec.ofNat_toNat]
    exact exec_of_stages_r0 rfl
  · intro a ha h0 h256
    have hbyte : byte = truncByte t := toGamma_eq _ _ _
    rw [hbyte]
    exact truncByte_of_value ha h0 h256

/-- Settles O23: TOLIN stages the linear value of A0. -/
theorem tolinWritesTheLinearValue : Obligations.TolinWritesTheLinearValue := by
  intro s v
  exact exec_of_stages_r0 rfl

/-! ## The clamp of the gamma operand -/

theorem toGamma_congr_clamp01 (fn : Libm) (mode : GammaRounding) {x y : F64} (h : Fp.clamp01 x = Fp.clamp01 y) :
    toGamma fn mode x = toGamma fn mode y := by
  rw [toGamma_eq, toGamma_eq, h]

theorem clamp01_of_lt_zero {x : F64} (h : Fp.lt x Fp.c0_0 = true) : Fp.clamp01 x = Fp.c0_0 := by
  rw [Fp.clamp01, if_pos h, ite_self]

/-- The order of encodings is transitive, the infinities included. -/
theorem Fp.lt_trans {x y z : F64} (hxy : Fp.lt x y = true) (hyz : Fp.lt y z = true) : Fp.lt x z = true := by
  simp only [Fp.lt, Bool.and_eq_true, decide_eq_true_eq] at *
  obtain ⟨⟨hx, -⟩, hkey⟩ := hxy
  obtain ⟨⟨-, hz⟩, hkey'⟩ := hyz
  exact ⟨⟨hx, hz⟩, hkey.trans hkey'⟩

theorem clamp01_of_one_lt {x : F64} (h : Fp.lt Fp.c1_0 x = true) : Fp.clamp01 x = Fp.c1_0 := by
  have hnan : ¬Fp.isNaN x = true := fun hx => by simp [Fp.lt_of_isNaN (.inr hx)] at h
  have hzero : ¬Fp.lt x Fp.c0_0 = true := fun hx => absurd (Fp.lt_trans h hx) (by decide)
  rw [Fp.clamp01, if_neg hnan, if_neg hzero, if_pos h]

/-- Both zeros are on the linear branch of the curve, so POW_IMPL is not called. -/
theorem gammaCurve_zero (fn : Libm) (b : Bool) : gammaCurve fn (Fp.zero b) = Fp.zero b := by
  have hlin : Fp.lt (Fp.zero b) Fp.c0_0031308 = true := by cases b <;> decide +kernel
  rw [gammaCurve, if_pos hlin]
  cases b <;> decide +kernel

theorem toGamma_zero (fn : Libm) (mode : GammaRounding) (b : Bool) : toGamma fn mode (Fp.zero b) = 0 := by
  have hclamp : Fp.clamp01 (Fp.zero b) = Fp.zero b := by cases b <;> decide +kernel
  rw [toGamma_eq, hclamp, gammaCurve_zero]
  cases mode <;> cases b <;> decide +kernel

/-- Settles O25: each of these operands clamps as `+0.0`, `-0.0` or 1.0 does. -/
theorem gammaClampsItsOperand : Obligations.GammaClampsItsOperand := by
  intro mode x
  have hbyte : ∀ {x}, Fp.clamp01 x = Fp.c0_0 → toGamma Config.libm mode x = 0 := fun hx =>
    (toGamma_congr_clamp01 _ _ (y := Fp.zero false) hx).trans (toGamma_zero _ _ false)
  refine ⟨?_, fun hx => toGamma_congr_clamp01 _ _ (clamp01_of_one_lt hx)⟩
  rintro (hnan | hneg | rfl)
  · exact hbyte (Fp.clamp01_of_isNaN hnan)
  · exact hbyte (clamp01_of_lt_zero hneg)
  · exact toGamma_zero _ _ true

end Sys2Proof.Machine

/-! SUPPORT. The base-83 commands: the number that digits spell, the field that N and A1 give, and what the two commands
make of it. -/

namespace Sys2Proof.Machine

open Sys2Proof.Statements

/-! ## The reverse table -/

/-- Settles O54, both ways by the table's check over all bytes. -/
theorem reverseTableUndoesTheAlphabet : Obligations.ReverseTableUndoesTheAlphabet := by
  refine ⟨fun i hi => rlut_alpha (Nat.lt_succ_of_le hi), fun b i h => ?_⟩
  obtain ⟨hi, hb⟩ := rlut_some h
  exact ⟨Nat.le_of_lt_succ hi, hb⟩

/-! ## Digits and numbers -/

theorem number_append (ds : List Nat) (d : Nat) : number (ds ++ [d]) = number ds * 83 + d := by
  simp [number, List.foldl_append]

/-- The last digit is the least significant. -/
theorem b83enc_mul_add (v n : Nat) {d : Nat} (hd : d < 83) : b83enc (v * 83 + d) (n + 1) = b83enc v n ++ [d] := by
  have hlast : (v * 83 + d) % 83 = d := by omega
  have hinit : ∀ i ∈ List.range n, (v * 83 + d) / 83 ^ (n - i) % 83 = v / 83 ^ (n - 1 - i) % 83 := by
    intro i hi
    have hn : n - i = n - 1 - i + 1 := by have := List.mem_range.1 hi; omega
    have hv : (v * 83 + d) / 83 = v := by omega
    rw [hn, Nat.pow_succ', ← Nat.div_div_eq_div_mul, hv]
  simp only [b83enc, List.range_succ, List.map_append, List.map_cons, List.map_nil, Nat.add_sub_cancel, Nat.sub_self,
    pow_zero, Nat.div_one, hlast, List.map_congr_left hinit]

/-- Digits are the digits of the number they spell (42_base83.md R126). -/
theorem b83enc_number (ds : List Nat) (hds : ∀ d ∈ ds, d < 83) : b83enc (number ds) ds.length = ds := by
  induction ds using List.reverseRecOn with
  | nil => rfl
  | append_singleton ds d ih =>
    have hd : d < 83 := hds d (by simp)
    have hinit : ∀ e ∈ ds, e < 83 := fun e he => hds e (by simp [he])
    rw [number_append, List.length_append, List.length_singleton, b83enc_mul_add _ _ hd, ih hinit]

/-- Settles O53: the digits of a value spell it, and digits that spell a value are its digits. -/
theorem base83RoundTrip : Obligations.Base83RoundTrip := by
  constructor
  · intro v n p hv
    rw [b83decFrom_spells _ p 0 _ (map_rlut_map_alpha _ fun _ => b83enc_lt), foldl_digits, Nat.mod_eq_of_lt hv,
      Nat.zero_mul, Nat.zero_add]
  · intro bs p v h
    obtain ⟨ds, hmap, rfl⟩ := b83decFrom_ok h
    obtain ⟨halpha, hds⟩ := map_alpha_of_map_rlut hmap
    have hlen : bs.length = ds.length := by rw [← halpha, List.length_map]
    rw [hlen]
    exact ⟨foldl_lt ds hds, by rw [← number, b83enc_number ds hds, halpha]⟩

/-! ## The field of a base-83 command -/

/-- A command that stages an error whose context fits its registers completes with that error. -/
theorem exec_of_stages_error {i : Instr} {s : State} {r : Raise} (h : stageOf i s = .error r) (hexp : r.exp < 2 ^ 64)
    (hact : r.act < 2 ^ 64) (hpos : r.pos < 2 ^ 64) :
    exec i s = .next (errState s r.kind.code r.exp r.act r.pos) := by
  rw [exec_eq, h, State.complete_error, State.raise, contextWord_of_lt hexp, contextWord_of_lt hact,
    contextWord_of_lt hpos]
  rfl

section Field

variable {i : Instr} {s : State} {n : Nat} {e : Except Raise Staged}
  (hstage : stageOf i s = do checkDigits n; checkOffset s n; e)
include hstage

theorem stageOf_of_field_fits (h1 : 1 ≤ n) (h10 : n ≤ 10) (hfit : s.a1.toNat + n ≤ 166) : stageOf i s = e := by
  have hoff : checkOffset s n = .ok () := checkAtMost_pass (Nat.le_sub_of_add_le hfit)
  rw [hstage, checkDigits_pass h1 h10, hoff]
  rfl

theorem exec_of_digits_illegal (h16 : n < 16) (h : n < 1 ∨ 10 < n) : exec i s = .next (errState s 17 10 n 2) := by
  have herr : stageOf i s = .error ⟨.illegalOperand, 10, n, 2⟩ := by
    rw [hstage, checkDigits_fail h]
    rfl
  exact exec_of_stages_error herr (by simp) (show n < 2 ^ 64 by omega) (by simp)

theorem exec_of_offset_illegal (h1 : 1 ≤ n) (h10 : n ≤ 10) (h : 166 < s.a1.toNat + n) :
    exec i s = .next (errState s 17 (166 - n) s.a1.toNat 1) := by
  have hoff : checkOffset s n = .error ⟨.illegalOperand, 166 - n, s.a1.toNat, 1⟩ :=
    checkAtMost_fail (show 166 - n < s.a1.toNat by omega)
  have herr : stageOf i s = .error ⟨.illegalOperand, 166 - n, s.a1.toNat, 1⟩ := by
    rw [hstage, checkDigits_pass h1 h10, hoff]
    rfl
  exact exec_of_stages_error herr (show 166 - n < 2 ^ 64 by omega) s.a1.isLt (by simp)

end Field

/-! ## B83ENC -/

/-- A byte of the HASH run reads as it was staged, where the run lies in HASH. -/
theorem State.commit_hashByte (s : State) (x : Staged) {i : Nat} (hi : i < x.hash.2.length)
    (hfit : x.hash.1 + x.hash.2.length ≤ hashCap) : (s.commit x).hashByte (x.hash.1 + i) = x.hash.2[i] := by
  have hpix : hashBase + (x.hash.1 + i) < pixBase := by simp only [hashBase, pixBase, hashCap] at *; omega
  have hidx : hashBase + (x.hash.1 + i) - (hashBase + x.hash.1) = i := by omega
  rw [State.hashByte, State.commit_byteAt, if_neg (by omega), if_pos (by omega), hidx, List.getElem?_eq_getElem hi,
    Option.getD_some]

/-- A command that stages only a run of HASH bytes completes without error, and no byte outside the run changes. -/
theorem exec_of_stages_hash {i : Instr} {s : State} {p : Nat} {bytes : List Byte}
    (h : stageOf i s = .ok { hash := (p, bytes) }) (hfit : p + bytes.length ≤ hashCap) :
    ∃ t, exec i s = .next t ∧
      (∀ k (hk : k < bytes.length), t.hashByte (p + k) = bytes[k]) ∧
      (∀ a, (a < hashBase + p ∨ hashBase + p + bytes.length ≤ a) → t.byteAt a = s.byteAt a) ∧
      { t with mem := s.mem } = okState s := by
  refine ⟨_, exec_eq i s, ?_⟩
  rw [h]
  refine ⟨fun k hk => s.commit_hashByte { hash := (p, bytes) } hk hfit, fun a ha => ?_, rfl⟩
  exact s.commit_byteAt_outside { hash := (p, bytes) } (by rw [List.length_nil]; omega) ha

/-- Settles O26: the digits of A0 are committed as one run of HASH bytes. -/
theorem b83encWritesTheDigits : Obligations.B83encWritesTheDigits := by
  intro s n h16
  refine ⟨fun h1 h10 hfit => ?_, exec_of_digits_illegal rfl h16, exec_of_offset_illegal rfl⟩
  have hstage : stageOf (.b83enc n) s = .ok { hash := (s.a1Nat, (b83enc s.a0Nat n).map alpha) } :=
    stageOf_of_field_fits rfl h1 h10 hfit
  have hlen : ((b83enc s.a0Nat n).map alpha).length = n := by simp
  obtain ⟨t, ht, hbytes, hframe, hrest⟩ := exec_of_stages_hash hstage (by rw [hlen]; exact hfit)
  rw [hlen] at hframe
  refine ⟨t, ht, fun i hi => (hbytes i (by rwa [hlen])).trans ?_, hframe, hrest⟩
  rw [List.getElem_map, b83enc_getElem]
  rfl

/-! ## B83DEC -/

/-- Settles O27: the field is decoded where the checks pass, and its number or its error is what is staged. -/
theorem b83decWritesTheNumber : Obligations.B83decWritesTheNumber := by
  intro s n h16
  refine ⟨fun h1 h10 hfit => ?_, exec_of_digits_illegal rfl h16, exec_of_offset_illegal rfl⟩
  have hstage : stageOf (.b83dec n) s = s.b83dec s.a1Nat n >>= fun v => pure { r0 := some (BitVec.ofNat 64 v) } :=
    stageOf_of_field_fits rfl h1 h10 hfit
  constructor
  · rintro ds rfl hds
    have hdec : s.b83dec s.a1Nat ds.length = .ok (number ds) := s.b83dec_of_spells _ ds hds
    refine ⟨exec_of_stages_r0 (by rw [hstage, hdec, bind_ok, pure_eq_ok]), ?_⟩
    calc number ds < 83 ^ ds.length := State.b83dec_lt hdec
      _ ≤ 83 ^ 10 := Nat.pow_le_pow_right (by omega) h10
      _ < 2 ^ 64 := by norm_num
  · intro ds hlt hds hnone
    have hdec := s.b83dec_invalid s.a1Nat n ds.length hlt hnone fun j hj => ⟨_, hds j hj⟩
    rw [hdec, bind_error] at hstage
    exact exec_of_stages_error hstage (by simp) (show (s.hashByte _).toNat < 2 ^ 64 by omega)
      (show s.a1.toNat + ds.length < 2 ^ 64 by omega)

end Sys2Proof.Machine

/-! SUPPORT. The quantizer's commands: the operand A0, the cell that DQDC and DQAC write, and the maximum that QMAX
takes over the elements of the AC cells. -/

namespace Sys2Proof.Machine

open Sys2Proof.Statements

/-- Settles O55, code by code: each is a sum of clamped or byte-wide parts. -/
theorem packedCodesFitTheirFields : Obligations.PackedCodesFitTheirFields := by
  intro fn mode x v maxValue acs
  exact ⟨dcQuant_lt fn mode x, acQuant_le fn v maxValue, acPack_le fn x maxValue, acScale_fst_le acs⟩

/-! ## What completes -/

/-- A command that stages only the scale completes without error and changes only QMAX and MAXVAL. -/
theorem exec_of_stages_scale {i : Instr} {s : State} {q : BitVec 8} {v : F64}
    (h : stageOf i s = .ok { qmax := some q, maxval := some v }) :
    exec i s = .next { okState s with qmax := q, maxval := v } := by
  rw [exec_eq, h, State.complete_ok, State.finish_commit_scale]
  rfl

/-- A command that stages one cell completes without error and changes no element outside the cell. -/
theorem exec_of_stages_cell {i : Instr} {s : State} {k : Nat} {x : Rgb} (h : stageOf i s = .ok { coef := (k, [x]) }) :
    ∃ t, exec i s = .next t ∧ cell t k = triple x ∧
      (∀ e, (e < 3 * k ∨ 3 * k + 3 ≤ e) → t.coefElem e = s.coefElem e) ∧
      { t with coef := s.coef } = okState s := by
  refine ⟨_, exec_eq i s, ?_⟩
  rw [h]
  have hcell : (s.commit { coef := (k, [x]) }).coefCell k = x := s.commit_coefCell { coef := (k, [x]) } zero_lt_one
  exact ⟨congrArg triple hcell, fun e => s.commit_coefElem_outside { coef := (k, [x]) }, rfl⟩

/-! ## An operand and its largest legal value -/

section Operand

variable {i : Instr} {s : State} {a : Word} {limit pos : Nat} {e : Unit → Except Raise Staged}
  (hstage : stageOf i s = checkAtMost limit a.toNat pos >>= e)
include hstage

theorem stageOf_of_operand_le (h : a.toNat ≤ limit) : stageOf i s = e () := by
  rw [hstage, checkAtMost_pass h, bind_ok]

theorem exec_of_operand_illegal (hpos : pos < 2 ^ 64) (h : limit < a.toNat) :
    exec i s = .next (errState s 17 limit a.toNat pos) := by
  have herr : stageOf i s = .error ⟨.illegalOperand, limit, a.toNat, pos⟩ := by
    rw [hstage, checkAtMost_fail h, bind_error]
  exact exec_of_stages_error herr (h.trans a.isLt) a.isLt hpos

end Operand

/-! ## The component counts -/

theorem exec_of_components_illegal {i : Instr} {s : State} {e : Unit → Except Raise Staged}
    (hstage : stageOf i s = checkComponents s >>= e) (h : ¬componentsLegal s) :
    exec i s = .next (errState s 18 9 (s.xcomp.toNat + s.ycomp.toNat * 256) 0) := by
  have hpack : s.xc ||| s.yc <<< 8 = s.xcomp.toNat + s.ycomp.toNat * 256 := or_shiftLeft_eq s.xcomp.isLt
  have hfits : s.xcomp.toNat + s.ycomp.toNat * 256 < 2 ^ 64 := by
    have hx := s.xcomp.isLt
    have hy := s.ycomp.isLt
    omega
  have herr : stageOf i s = .error ⟨.invalidComponents, 9, s.xcomp.toNat + s.ycomp.toNat * 256, 0⟩ := by
    rw [hstage, checkComponents_fail h, bind_error, hpack]
  exact exec_of_stages_error herr (by simp) hfits (by simp)

/-! ## QMAX -/

/-- The maximum over cells is the maximum over their elements in storage order (43_quantizer.md R141). -/
theorem actualMax_eq_foldl_elements (acs : List Rgb) :
    actualMax acs = (acs.flatMap Rgb.toList).foldl maxStep Fp.c0_0 := by
  rw [actualMax, List.foldl_flatMap]
  rfl

theorem State.coefAcs_elements (s : State) (n : Nat) :
    (s.coefAcs n).flatMap Rgb.toList = (List.range (3 * (n - 1))).map fun e => s.coefElem (3 + e) := by
  rw [State.coefAcs]
  induction n - 1 with
  | zero => rfl
  | succ m ih =>
    rw [List.range_succ, List.map_append, List.flatMap_append, ih, Nat.mul_succ, List.range_add, List.map_append]
    simp [Rgb.toList, State.coefCell, List.range_succ, Nat.mul_succ, Nat.add_comm, Nat.add_left_comm]

theorem acScale_of_ne_nil {acs : List Rgb} (h : acs ≠ []) :
    acScale acs = (quantizedMax (actualMax acs), scaleOf (quantizedMax (actualMax acs))) := by
  cases acs with
  | nil => exact absurd rfl h
  | cons x xs => rfl

/-- Settles O29: a grid of one cell has no AC cell, and the maximum over the AC cells of any other is that over their
elements. -/
theorem qmaxWritesTheAcScale : Obligations.QmaxWritesTheAcScale := by
  intro s n m q
  have hstage (h : componentsLegal s) : stageOf .qmax s
      = .ok { qmax := some (BitVec.ofNat 8 (acScale (s.coefAcs n)).1), maxval := some (acScale (s.coefAcs n)).2 } := by
    have hpass : checkComponents s = .ok () := checkComponents_ok_iff.2 h
    show (checkComponents s >>= fun _ => _) = _
    rw [hpass]
    rfl
  refine ⟨fun h h1 => ?_, fun h h1 => ⟨quantizedMax_le m, ?_⟩, exec_of_components_illegal rfl⟩
  · have hnil : s.coefAcs n = [] := by rw [h1]; rfl
    have hs := hstage h
    rw [hnil] at hs
    exact exec_of_stages_scale hs
  · have hm : actualMax (s.coefAcs n) = m := by
      rw [actualMax_eq_foldl_elements, State.coefAcs_elements, List.foldl_map]
      rfl
    have hne : s.coefAcs n ≠ [] := by
      have hpos : 0 < n := by
        obtain ⟨hx, -, hy, -⟩ := h
        exact Nat.mul_pos hx hy
      rw [State.coefAcs, ne_eq, List.map_eq_nil_iff, List.range_eq_nil]
      omega
    have hs := hstage h
    rw [acScale_of_ne_nil hne, hm] at hs
    exact exec_of_stages_scale hs

/-! ## QDC and QAC -/

/-- Settles O28: the packed bytes are staged for R0, their fields disjoint. -/
theorem qdcPacksTheDcTerm : Obligations.QdcPacksTheDcTerm := by
  intro s g
  have hpack : dcQuant Config.libm s.params.gammaRounding (s.coefCell 0)
      = g (s.coefElem 0) * 2 ^ 16 + g (s.coefElem 1) * 2 ^ 8 + g (s.coefElem 2) := dcQuant_eq _ _ _
  rw [← hpack]
  exact exec_of_stages_r0 rfl

/-- Settles O30: where A0 names a cell, its packed quantiles are staged for R0. -/
theorem qacPacksTheAcTerm : Obligations.QacPacksTheAcTerm := by
  intro s q
  refine ⟨fun h => ?_, exec_of_operand_illegal rfl (by simp)⟩
  exact exec_of_stages_r0 (stageOf_of_operand_le (i := .qac) rfl h)

/-! ## DQDC, DQMAX and DQAC -/

/-- Settles O32: where A0 is a quantized maximum, it and its scale are staged. -/
theorem dqmaxWritesTheScale : Obligations.DqmaxWritesTheScale := by
  intro s
  refine ⟨fun h => ?_, exec_of_operand_illegal rfl (by simp)⟩
  have hlow : s.a0.extractLsb' 0 8 = BitVec.ofNat 8 s.a0Nat := rfl
  rw [hlow]
  exact exec_of_stages_scale (stageOf_of_operand_le (i := .dqmax) rfl h)

/-- Settles O31: where a field can hold A0, the cell it dequantizes to, or the error of doing so, is staged. -/
theorem dqdcWritesTheDcCell : Obligations.DqdcWritesTheDcCell := by
  intro s v red
  have hstage (h : v ≤ 47458320) : stageOf .dqdc s
      = dcDequant Config.libm s.params.overrangePolicy v 0 >>= fun x => pure { coef := (0, [x]) } :=
    stageOf_of_operand_le (i := .dqdc) rfl h
  refine ⟨fun hv hpolicy => ?_, fun hover hv hfault => ?_, exec_of_operand_illegal rfl (by simp)⟩
  · have hs := hstage hv
    rw [dcDequant_eq hpolicy, bind_ok, pure_eq_ok] at hs
    obtain ⟨t, ht, hcell, hframe, hrest⟩ := exec_of_stages_cell hs
    exact ⟨t, ht, hcell, fun e he => hframe e (.inr he), hrest⟩
  · have hs := hstage hv
    rw [hfault, dcDequant_fault hover, bind_error] at hs
    exact exec_of_stages_error hs (by simp) s.a0.isLt (by simp)

/-- Settles O33: where a field can hold A0 and A1 names a cell, the cell it dequantizes to, or the error of unpacking
A0, is staged. -/
theorem dqacWritesTheAcCell : Obligations.DqacWritesTheAcCell := by
  intro s v k red part
  have hchecks (h : v ≤ 6888) : stageOf .dqac s = checkAtMost 80 k 1 >>= fun _ =>
      acUnpack s.params.overrangePolicy v 0 >>= fun q =>
        pure { coef := (k, [acDequantRgb Config.libm q s.maxval s.punch]) } :=
    stageOf_of_operand_le (i := .dqac) rfl h
  have hstage (hv : v ≤ 6888) (hk : k ≤ 80) := stageOf_of_operand_le (hchecks hv) hk
  refine ⟨fun hv hk hpolicy => ?_, fun hover hv hk hfault => ?_, exec_of_operand_illegal rfl (by simp),
    fun hv => exec_of_operand_illegal (hchecks hv) (by simp)⟩
  · have hs := hstage hv hk
    rw [acUnpack_eq hv hpolicy, bind_ok, pure_eq_ok] at hs
    exact exec_of_stages_cell hs
  · have hs := hstage hv hk
    rw [hfault, acUnpack_fault hover, bind_error] at hs
    exact exec_of_stages_error hs (by simp) s.a0.isLt (by simp)

end Sys2Proof.Machine

/-! SUPPORT. The fields of a hash that DECODE parses, and the first that is over its range. -/

namespace Sys2Proof.Machine

open Sys2Proof.Statements

/-! ## Fields of a spelled hash -/

section Spelled

variable {s : State} {ds : List Nat} (hds : spells s 0 ds)
include hds

theorem rlut_hashByte_of_spells {i : Nat} (hi : i < ds.length) : rlut (s.hashByte i) = some (ds.getD i 0) := by
  rw [List.getD_eq_getElem _ _ hi, ← hds i hi, Nat.zero_add]

/-- A field inside the spelled part of HASH decodes to the number of its digits. -/
theorem b83dec_of_spells_from_zero {p n : Nat} (hn : p + n ≤ ds.length) :
    s.b83dec p n = .ok (number ((List.range n).map fun i => ds.getD (p + i) 0)) := by
  have hfield := s.b83dec_of_spells p ((List.range n).map fun i => ds.getD (p + i) 0) fun i hi => by
    simp only [List.length_map, List.length_range] at hi
    rw [rlut_hashByte_of_spells hds (by omega), List.getElem_map, List.getElem_range]
  rwa [List.length_map, List.length_range] at hfield

theorem b83dec_dcField (h : 6 ≤ ds.length) : s.b83dec 2 4 = .ok (dcField ds) := b83dec_of_spells_from_zero hds h

theorem b83dec_acField {k : Nat} (h : 6 + 2 * k ≤ ds.length) : s.b83dec (4 + 2 * k) 2 = .ok (acField ds k) := by
  rw [b83dec_of_spells_from_zero hds (by omega), acField, Nat.add_right_comm 4 1 (2 * k)]
  rfl

theorem acField_le {k : Nat} (h : 6 + 2 * k ≤ ds.length) : acField ds k ≤ maxAcField :=
  Nat.le_of_lt_succ (State.b83dec_lt (b83dec_acField hds h))

theorem decodeHeader_of_spells {f : Nat} (hf : ds[0]? = some f) (hflag : f ≤ 80 ∨ s.params.sizeFlagPolicy = .accept)
    (hlen : s.hashLen.toNat = hashLength (flagXc f * flagYc f)) : decodeHeader s = .ok f := by
  obtain ⟨hpos, rfl⟩ := List.getElem?_eq_some_iff.1 hf
  exact decodeHeader_ok_iff.2 ⟨s.b83dec_one 0 _ (hds 0 hpos), hflag, hlen⟩

end Spelled

/-! ## The first error of the fields -/

/-- After a sound header DECODE completes with the error of its fields. -/
theorem exec_decode_of_fields_error {s : State} {f : Nat} {r : Raise} (hheader : decodeHeader s = .ok f)
    (hfields : decodeFields Config.libm s (flagXc f * flagYc f) = .error r) (hexp : r.exp < 2 ^ 64)
    (hact : r.act < 2 ^ 64) (hpos : r.pos < 2 ^ 64) :
    exec .decode s = .next (errState s r.kind.code r.exp r.act r.pos) := by
  have hstage : stageOf .decode s = .error r := by
    show stageDecode Config.libm s = _
    rw [stageDecode, hheader, bind_ok]
    exact bind_eq_error.2 (.inl hfields)
  exact exec_of_stages_error hstage hexp hact hpos

section Fields

variable {fn : Libm} {s : State} {n q v : Nat} {r : Raise} (hq : s.b83dec 1 1 = .ok q) (hdc : s.b83dec 2 4 = .ok v)
include hq hdc

theorem decodeFields_dc_error (h : dcDequant fn s.params.overrangePolicy v 2 = .error r) :
    decodeFields fn s n = .error r := by
  rw [decodeFields, hq, bind_ok, hdc, bind_ok, h, bind_error]

theorem decodeFields_acs_error {cell : Rgb} (h : dcDequant fn s.params.overrangePolicy v 2 = .ok cell)
    (hacs : decodeAcs fn s (decodeScale n q) (n - 1) 1 = .error r) : decodeFields fn s n = .error r := by
  rw [decodeFields, hq, bind_ok, hdc, bind_ok, h, bind_ok, hacs, bind_error]

end Fields

/-- Settles O44: up to the first field over its range the digits decode and the codes are in range, and the parse stops
there. -/
theorem decodeReportsTheFirstOverrangeField : Obligations.DecodeReportsTheFirstOverrangeField := by
  intro s f ds n hlen hds hf hmax hflag hfault
  have hheader : decodeHeader s = .ok f := decodeHeader_of_spells hds hf hflag hlen
  refine ⟨fun h6 hover => ?_, fun k hk h6 hdc hbefore hover => ?_⟩
  · have hlt : dcField ds < 83 ^ 4 := State.b83dec_lt (b83dec_dcField hds h6)
    have hdequant : dcDequant Config.libm s.params.overrangePolicy (dcField ds) 2
        = .error ⟨.fieldOverrange, 2 ^ 24 - 1, dcField ds, 2⟩ := hfault ▸ dcDequant_fault hover
    have hfields := decodeFields_dc_error (n := n) (b83dec_of_spells_from_zero hds (by omega))
      (b83dec_dcField hds h6) hdequant
    exact exec_decode_of_fields_error hheader hfields (by simp) (show dcField ds < 2 ^ 64 by omega) (by simp)
  · have hacs : ∀ mv, decodeAcs Config.libm s mv (n - 1) 1
        = .error ⟨.fieldOverrange, 6858, acField ds k, 4 + 2 * k⟩ := fun mv => by
      refine decodeAcs_error _ s mv (n - 1) 1 k _ hk (by omega) (fun j hj hjk => ?_)
        (.inr ⟨_, b83dec_acField hds h6, hfault ▸ acUnpack_fault hover⟩)
      have hin : ¬6859 ≤ acField ds j := Nat.not_le.2 (hbefore j hj hjk)
      exact ⟨_, _, b83dec_acField hds (by omega), acUnpack_eq (acField_le hds (by omega)) fun h => absurd h hin⟩
    have hfields := decodeFields_acs_error (b83dec_of_spells_from_zero hds (by omega)) (b83dec_dcField hds (by omega))
      (dcDequant_eq fun h => absurd h (Nat.not_le.2 hdc)) (hacs _)
    have hact : acField ds k ≤ 6888 := acField_le hds h6
    exact exec_decode_of_fields_error hheader hfields (by simp) (show acField ds k < 2 ^ 64 by omega)
      (show 4 + 2 * k < 2 ^ 64 by omega)

end Sys2Proof.Machine

/-! SUPPORT. The transform unit: the sums of a forward cell and of an inverse pixel, the checks on the image, and what
FDCT and IDCT write. -/

namespace Sys2Proof.Machine

open Sys2Proof.Statements

/-! ## The sums -/

/-- Rows without a pixel add nothing to a sum. -/
theorem forRange_forRange_zero {α : Type} (h : Nat) (f : Nat → Nat → α → α) (a : α) :
    forRange h (fun y acc => forRange 0 (fun x acc => f x y acc) acc) a = a := by
  induction h with
  | zero => rfl
  | succ h ih => exact ih

/-- The sums of a forward cell are one loop over the pixels in buffer order, for an image without a pixel too
(44_transform.md R171). -/
theorem fsum_eq_foldl (fn : Libm) (pix : Nat → Byte) (w h x y : Nat) :
    fsum fn pix w h x y = (List.range (w * h)).foldl (fun acc i =>
      let t := fbasis fn w h x y (i % w) (i / w)
      Rgb.mk (Fp.add acc.r (Fp.mul t (toLinear fn (pix (3 * i)).toNat)))
        (Fp.add acc.g (Fp.mul t (toLinear fn (pix (3 * i + 1)).toNat)))
        (Fp.add acc.b (Fp.mul t (toLinear fn (pix (3 * i + 2)).toNat)))) Rgb.zero := by
  rcases Nat.eq_zero_or_pos w with rfl | hw
  · rw [Nat.zero_mul]
    exact forRange_forRange_zero h _ _
  · refine (forRange_nested w h hw _ _).trans ?_
    simp only [Nat.div_add_mod']

/-- Settles O35: the loop over the pixels in buffer order is a fold for each channel. -/
theorem forwardCellSumsInBufferOrder : Obligations.ForwardCellSumsInBufferOrder := by
  intro fn pix w h x y term sum scale
  have hsum : fsum fn pix w h x y = Rgb.mk (sum 0) (sum 1) (sum 2) := by
    rw [fsum_eq_foldl]
    exact foldl_rgb _ (fun a i => Fp.add a (term 0 i)) (fun a i => Fp.add a (term 1 i))
      (fun a i => Fp.add a (term 2 i)) Rgb.zero
  rw [fcell, hsum]
  rfl

/-- Settles O37: the recursion over the cells is a fold over their indices, one for each channel. -/
theorem inversePixelSumsOverTheCells : Obligations.InversePixelSumsOverTheCells := by
  intro fn mode grid xc w h px py basis sum
  have hsum : isum fn xc w h px py 0 grid Rgb.zero = Rgb.mk (sum Rgb.r) (sum Rgb.g) (sum Rgb.b) := by
    simp only [isum_eq, Nat.zero_add]
    exact foldl_rgb _ (fun a k => Fp.add a (Fp.mul (grid.getD k Rgb.zero).r (basis k)))
      (fun a k => Fp.add a (Fp.mul (grid.getD k Rgb.zero).g (basis k)))
      (fun a k => Fp.add a (Fp.mul (grid.getD k Rgb.zero).b (basis k))) Rgb.zero
  rw [ipixel, hsum]
  rfl

/-! ## The checks on the counts and the target -/

section Target

variable {i : Instr} {s : State} {e : Unit → Except Raise Staged}

theorem exec_of_size_illegal (hstage : stageOf i s = checkTarget s >>= e)
    (h : s.width.toNat = 0 ∨ s.height.toNat = 0) :
    exec i s = .next (errState s 19 1 (s.width.toNat + s.height.toNat * 65536) 0) := by
  have hpack : s.w ||| s.h <<< 16 = s.width.toNat + s.height.toNat * 65536 := or_shiftLeft_eq s.width.isLt
  have hfits : s.width.toNat + s.height.toNat * 65536 < 2 ^ 64 := by
    have hw := s.width.isLt
    have hh := s.height.isLt
    omega
  have herr : stageOf i s = .error ⟨.invalidSize, 1, s.width.toNat + s.height.toNat * 65536, 0⟩ := by
    rw [hstage, checkTarget_size h, bind_error, hpack]
  exact exec_of_stages_error herr (by simp) hfits (by simp)

theorem exec_of_capacity_exceeded (hstage : stageOf i s = checkTarget s >>= e) (hw : 1 ≤ s.width.toNat)
    (hh : 1 ≤ s.height.toNat) (hcap : s.params.pixCap < imageBytes s) :
    exec i s = .next (errState s 20 s.params.pixCap (imageBytes s) 0) := by
  have herr : stageOf i s = .error ⟨.capacityExceeded, s.params.pixCap, imageBytes s, 0⟩ := by
    rw [hstage, checkTarget_capacity hw hh hcap]
    rfl
  have hneed : imageBytes s < 2 ^ 64 := s.need_lt.trans (by norm_num)
  exact exec_of_stages_error herr (hcap.trans hneed) hneed (by simp)

theorem stageOf_of_components_legal (hstage : stageOf i s = checkComponents s >>= e) (h : componentsLegal s) :
    stageOf i s = e () := by
  have hpass : checkComponents s = .ok () := checkComponents_ok_iff.2 h
  rw [hstage, hpass, bind_ok]

theorem stageOf_of_target_legal (hstage : stageOf i s = checkTarget s >>= e) (h : targetLegal s) :
    stageOf i s = e () := by
  have hpass : checkTarget s = .ok () := checkTarget_ok_iff.2 h
  rw [hstage, hpass, bind_ok]

end Target

/-! ## The checks on an image -/

section Image

variable {i : Instr} {s : State} {e : Unit → Except Raise Staged} (hstage : stageOf i s = checkImage s >>= e)
include hstage

theorem exec_of_length_mismatch (h : s.pixLen.toNat ≠ imageBytes s) :
    exec i s = .next (errState s 1 (imageBytes s) s.pixLen.toNat 0) := by
  have hcheck : checkImage s = .error ⟨.dimensionMismatch, imageBytes s, s.pixLen.toNat, 0⟩ := if_pos h
  have herr : stageOf i s = .error ⟨.dimensionMismatch, imageBytes s, s.pixLen.toNat, 0⟩ := by
    rw [hstage, hcheck, bind_error]
  exact exec_of_stages_error herr (s.need_lt.trans (by norm_num)) s.pixLen.isLt (by simp)

/-- Where PIX_LEN fits the size, the checks on the counts and the target are left. -/
theorem stageOf_of_length_fits (h : s.pixLen.toNat = imageBytes s) :
    stageOf i s = checkComponents s >>= fun _ => checkTarget s >>= e := by
  have hcheck : checkImage s = checkComponents s >>= fun _ => checkTarget s := if_neg (not_not.2 h)
  rw [hstage, hcheck, bind_assoc]

theorem stageOf_of_image_legal (h : s.pixLen.toNat = imageBytes s) (hc : componentsLegal s) (ht : targetLegal s) :
    stageOf i s = e () :=
  stageOf_of_target_legal (stageOf_of_components_legal (stageOf_of_length_fits hstage h) hc) ht

end Image

/-- FDCT and ENCODE check the image before anything else (44_transform.md R173). -/
theorem stageOf_eq_checkImage_bind {i : Instr} (s : State) (hi : i = .fdct ∨ i = .encode) :
    ∃ e, stageOf i s = checkImage s >>= e := by
  rcases hi with rfl | rfl
  · exact ⟨_, rfl⟩
  · exact ⟨_, rfl⟩

/-- Settles O40: each check is reached where those before it pass, and its error is what is staged. -/
theorem imageInputChecksInOrder : Obligations.ImageInputChecksInOrder := by
  intro s i hi
  obtain ⟨e, hstage⟩ := stageOf_eq_checkImage_bind s hi
  have hcounts := stageOf_of_length_fits hstage
  have htarget (hlen : s.pixLen.toNat = imageBytes s) := stageOf_of_components_legal (hcounts hlen)
  exact ⟨exec_of_length_mismatch hstage, fun hlen => exec_of_components_illegal (hcounts hlen),
    fun hlen hc => exec_of_size_illegal (htarget hlen hc), fun hlen hc => exec_of_capacity_exceeded (htarget hlen hc)⟩

/-! ## FDCT -/

/-- A command that stages only the cells of a grid from cell 0 on completes without error, and no element above the grid
changes. -/
theorem exec_of_stages_grid {i : Instr} {s : State} {cells : List Rgb} (h : stageOf i s = .ok { coef := (0, cells) }) :
    ∃ t, exec i s = .next t ∧
      (∀ k (hk : k < cells.length), cell t k = triple cells[k]) ∧
      (∀ e, 3 * cells.length ≤ e → t.coefElem e = s.coefElem e) ∧
      { t with coef := s.coef } = okState s := by
  refine ⟨_, exec_eq i s, ?_⟩
  rw [h]
  refine ⟨fun k hk => ?_, fun e he => s.commit_coefElem_outside { coef := (0, cells) } (.inr ?_), rfl⟩
  · have hcell : (s.commit { coef := (0, cells) }).coefCell (0 + k) = cells[k] := s.commit_coefCell _ hk
    rw [Nat.zero_add] at hcell
    exact congrArg triple hcell
  · rwa [Nat.mul_zero, Nat.zero_add]

/-- A place in a grid by its column and row, `w` columns wide and `h` rows high. -/
theorem rowMajor_lt {w h x y : Nat} (hx : x < w) (hy : y < h) : y * w + x < w * h := by
  calc y * w + x < (y + 1) * w := by rw [Nat.succ_mul]; omega
    _ ≤ h * w := Nat.mul_le_mul_right w hy
    _ = w * h := Nat.mul_comm h w

/-- Cell `(x, y)` of the forward grid (44_transform.md R172). -/
theorem forwardGrid_getElem (fn : Libm) (s : State) {x y : Nat} (hx : x < s.xc)
    (hk : y * s.xc + x < (forwardGrid fn s).length) :
    (forwardGrid fn s)[y * s.xc + x] = fcell fn s.pixByte s.w s.h x y := by
  have hmod : (y * s.xc + x) % s.xc = x := by
    rw [Nat.mul_add_mod_self_right, Nat.mod_eq_of_lt hx]
  have hdiv : (y * s.xc + x) / s.xc = y := by
    rw [Nat.mul_comm, Nat.mul_add_div (Nat.zero_lt_of_lt hx), Nat.div_eq_of_lt hx, Nat.add_zero]
  simp only [forwardGrid, List.getElem_map, List.getElem_range, hmod, hdiv]

/-- Settles O34: where the checks on the image pass, the forward grid is staged, cell by cell from cell 0 on. -/
theorem fdctWritesTheForwardGrid : Obligations.FdctWritesTheForwardGrid := by
  intro s hlen hcounts htarget xc yc
  have hstage : stageOf .fdct s = .ok { coef := (0, forwardGrid Config.libm s) } :=
    stageOf_of_image_legal (i := .fdct) rfl hlen hcounts htarget
  obtain ⟨t, ht, hcell, hframe, hrest⟩ := exec_of_stages_grid hstage
  rw [forwardGrid_length] at hframe
  refine ⟨t, ht, fun x y hx hy => ?_, hframe, hrest⟩
  have hk : y * s.xc + x < (forwardGrid Config.libm s).length := by
    rw [forwardGrid_length]
    exact rowMajor_lt hx hy
  exact (hcell _ hk).trans (congrArg triple (forwardGrid_getElem Config.libm s hx hk))

/-! ## IDCT -/

/-- A command that stages only an image and its length completes without error, and no byte outside the image
changes. -/
theorem exec_of_stages_image {i : Instr} {s : State} {fn : Libm} {mode : GammaRounding} {grid : List Rgb}
    {xc w h : Nat} {n : Word}
    (hstage : stageOf i s = .ok { pix := inverseImage fn mode grid xc w h, pixLen := some n }) :
    ∃ t, exec i s = .next t ∧
      (∀ px py, px < w → py < h →
        (List.range 3).map (fun c => t.pixByte (3 * (py * w + px) + c)) = ipixel fn mode grid xc w h px py) ∧
      (∀ a, (a < pixBase ∨ pixBase + 3 * w * h ≤ a) → t.byteAt a = s.byteAt a) ∧
      { t with mem := s.mem, pixLen := s.pixLen } = okState s ∧ t.pixLen = n := by
  refine ⟨_, exec_eq i s, ?_⟩
  rw [hstage]
  refine ⟨fun px py => s.commit_pixel _ fn mode grid xc w h px py rfl, fun a ha => ?_, rfl, rfl⟩
  refine s.commit_byteAt_outside { pix := inverseImage fn mode grid xc w h, pixLen := some n } ?_ ?_
  · rwa [inverseImage_length]
  · rw [List.length_nil]
    omega

/-- Settles O36: where the checks pass, the image of the grid is staged and its length, which fits PIX_LEN; each check
is reached where those before it pass. -/
theorem idctWritesTheImage : Obligations.IdctWritesTheImage := by
  intro s xc w h grid
  have htarget (hc : componentsLegal s) := stageOf_of_components_legal (i := .idct) rfl hc
  refine ⟨fun hc hsize => ?_, exec_of_components_illegal rfl, fun hc => exec_of_size_illegal (htarget hc),
    fun hc => exec_of_capacity_exceeded (htarget hc)⟩
  obtain ⟨t, ht, hpixels, hframe, hrest, hlen⟩ := exec_of_stages_image (stageOf_of_target_legal (htarget hc) hsize)
  refine ⟨t, ht, hpixels, hframe, hrest, ?_⟩
  rw [hlen]
  exact Nat.mod_eq_of_lt (s.need_lt.trans (by norm_num))

end Sys2Proof.Machine

/-! SUPPORT. NOP, and ENCODE: what it stages, and the hash of a grid by its places. -/

namespace Sys2Proof.Machine

open Sys2Proof.Statements

/-- Settles O22: nothing is committed, and the rest is the completion. -/
theorem nopCompletesWithoutEffect : Obligations.NopCompletesWithoutEffect := by
  intro s
  have hstage : stageOf .nop s = .ok {} := rfl
  rw [exec_eq, hstage, State.complete_ok, State.commit_empty]
  rfl

/-! ## What completes -/

/-- A grid committed from cell 0 on reads as it was staged. -/
theorem State.commit_cell (s : State) {x : Staged} (h0 : x.coef.1 = 0) {k : Nat} {y : Rgb} (hk : x.coef.2[k]? = some y) :
    cell (s.commit x) k = triple y := by
  obtain ⟨hlt, rfl⟩ := List.getElem?_eq_some_iff.1 hk
  have hcell := s.commit_coefCell x hlt
  rw [h0, Nat.zero_add] at hcell
  exact congrArg triple hcell

/-- Digits whose symbols are committed from HASH[0] on are read back as symbols, where they lie in HASH. -/
theorem State.commit_hashSymbol (s : State) {x : Staged} {ds : List Nat} (hx : x.hash = (0, ds.map alpha))
    (hfit : ds.length ≤ hashCap) {k d : Nat} (hk : ds[k]? = some d) : (s.commit x).hashByte k = alpha d := by
  obtain ⟨hlt, rfl⟩ := List.getElem?_eq_some_iff.1 hk
  have hbyte := s.commit_hashByte x (i := k) (by simpa [hx] using hlt) (by simpa [hx] using hfit)
  simpa [hx] using hbyte

/-- A command that stages a grid, its scale and a hash from HASH[0] on completes without error, and nothing outside the
two runs and the three registers changes. -/
theorem exec_of_stages_encoding {i : Instr} {s : State} {cells : List Rgb} {q : BitVec 8} {v : F64} {ds : List Nat}
    {n : BitVec 16}
    (h : stageOf i s = .ok
      { coef := (0, cells), qmax := some q, maxval := some v, hash := (0, ds.map alpha), hashLen := some n })
    (hfit : ds.length ≤ hashCap) :
    ∃ t, exec i s = .next t ∧
      (∀ k x, cells[k]? = some x → cell t k = triple x) ∧
      (∀ e, 3 * cells.length ≤ e → t.coefElem e = s.coefElem e) ∧
      t.qmax = q ∧ t.maxval = v ∧ t.hashLen = n ∧
      (∀ k d, ds[k]? = some d → t.hashByte k = alpha d) ∧
      (∀ a, (a < hashBase ∨ hashBase + ds.length ≤ a) → t.byteAt a = s.byteAt a) ∧
      { t with coef := s.coef, mem := s.mem, qmax := s.qmax, maxval := s.maxval, hashLen := s.hashLen } = okState s := by
  refine ⟨_, exec_eq i s, ?_⟩
  rw [h]
  refine ⟨fun k x hk => s.commit_cell rfl hk, fun e he => s.commit_coefElem_outside _ (.inr ?_), rfl, rfl, rfl,
    fun k d hk => s.commit_hashSymbol rfl hfit hk, fun a ha => s.commit_byteAt_outside _ ?_ ?_, rfl⟩
  · rwa [Nat.mul_zero, Nat.zero_add]
  · rw [List.length_nil]
    omega
  · rwa [List.length_map, Nat.add_zero]

/-! ## The hash of the forward grid -/

theorem cells_of_componentsLegal {s : State} (h : componentsLegal s) : 1 ≤ s.xc * s.yc ∧ s.xc * s.yc ≤ 81 := by
  obtain ⟨hx, hx9, hy, hy9⟩ := h
  exact ⟨Nat.mul_pos hx hy, Nat.mul_le_mul hx9 hy9⟩

theorem forwardGrid_getElem? (fn : Libm) (s : State) {k : Nat} (hk : k < s.xc * s.yc) :
    (forwardGrid fn s)[k]? = some (fcell fn s.pixByte s.w s.h (k % s.xc) (k / s.xc)) := by
  simp [forwardGrid, hk]

/-- A size flag is one digit, and the counts come back from it (45_codec.md R191, R192). -/
theorem sizeFlag_counts {s : State} (h : componentsLegal s) :
    sizeFlag s.xc s.yc < 83 ∧ flagXc (sizeFlag s.xc s.yc) = s.xc ∧ flagYc (sizeFlag s.xc s.yc) = s.yc := by
  obtain ⟨hx, hx9, hy, hy9⟩ : 1 ≤ s.xc ∧ s.xc ≤ 9 ∧ 1 ≤ s.yc ∧ s.yc ≤ 9 := h
  simp only [sizeFlag, flagXc, flagYc]
  omega

/-- The hash of the forward grid has the length of R190, and fits HASH. -/
theorem buildHash_forwardGrid_length {s : State} (h : componentsLegal s) (fn : Libm) (mode : GammaRounding) :
    (buildHash fn mode (forwardGrid fn s) s.xc s.yc).length = hashLength (s.xc * s.yc) ∧
      hashLength (s.xc * s.yc) ≤ hashCap := by
  obtain ⟨hpos, hmax⟩ := cells_of_componentsLegal h
  rw [buildHash_length, List.length_tail, forwardGrid_length, hashLength, hashCap]
  omega

/-- ENCODE of a legal image stages its forward grid, the grid's scale and its hash. -/
theorem stageOf_encode_of_image_legal {s : State} (hlen : s.pixLen.toNat = imageBytes s) (hc : componentsLegal s)
    (ht : targetLegal s) :
    let grid := forwardGrid Config.libm s
    stageOf .encode s = .ok
      { coef := (0, grid)
        qmax := some (BitVec.ofNat 8 (acScale grid.tail).1)
        maxval := some (acScale grid.tail).2
        hash := (0, (buildHash Config.libm s.params.gammaRounding grid s.xc s.yc).map alpha)
        hashLen := some (BitVec.ofNat 16 (hashLength (s.xc * s.yc))) } :=
  stageOf_of_image_legal (i := .encode) rfl hlen hc ht

theorem toNat_hashLength {n : Nat} (h : hashLength n ≤ hashCap) :
    (BitVec.ofNat 16 (hashLength n)).toNat = hashLength n := Nat.mod_eq_of_lt (h.trans_lt (by decide))

/-- Settles O38: a legal image's forward grid, its scale and its hash are what is staged, and the hash has each field at
its place. -/
theorem encodeWritesTheHash : Obligations.EncodeWritesTheHash := by
  intro s hlen hc ht xc yc n grid scale dc ac
  obtain ⟨hpos, -⟩ := cells_of_componentsLegal hc
  obtain ⟨hflag, -, -⟩ := sizeFlag_counts hc
  have hgrid : ∀ k, k < n → (forwardGrid Config.libm s)[k]? = some (grid k) := fun k hk => forwardGrid_getElem? _ s hk
  have hscale : acScale (forwardGrid Config.libm s).tail = scale := by rw [forwardGrid_tail]; rfl
  have hhead : (forwardGrid Config.libm s).headD Rgb.zero = grid 0 := by
    rw [List.headD_eq_head?_getD, List.head?_eq_getElem?, hgrid 0 hpos, Option.getD_some]
  have hq : scale.1 < 83 := Nat.lt_succ_of_le (acScale_fst_le _)
  obtain ⟨hlength, hfit⟩ := buildHash_forwardGrid_length hc Config.libm s.params.gammaRounding
  obtain ⟨hd0, hd1, hdc, hac⟩ :=
    buildHash_field Config.libm s.params.gammaRounding (forwardGrid Config.libm s) s.xc s.yc
  obtain ⟨t, hexec, hcells, hcoef, htq, htv, htn, hbytes, hframe, hrest⟩ :=
    exec_of_stages_encoding (stageOf_encode_of_image_legal hlen hc ht) (hlength ▸ hfit)
  rw [hscale] at hd1 hac htq htv
  rw [hhead] at hdc
  refine ⟨t, hexec, fun k hk => hcells k _ (hgrid k hk), ?coef, ?qmax, htv, ?hashLen, ?sizeFlag, ?maxAc,
    fun i hi => hbytes _ _ (hdc i hi), ?ac, ?frame, hrest⟩
  case coef => rwa [forwardGrid_length] at hcoef
  case qmax =>
    rw [htq]
    exact Nat.mod_eq_of_lt (by omega)
  case hashLen =>
    rw [htn, toNat_hashLength hfit]
    rfl
  case sizeFlag =>
    rw [hbytes 0 _ hd0, Nat.mod_eq_of_lt hflag]
    rfl
  case maxAc => rw [hbytes 1 _ hd1, Nat.mod_eq_of_lt hq]
  case ac =>
    intro k i h1 hk hi
    have hterm : (forwardGrid Config.libm s).tail[k - 1]? = some (grid k) := by
      rw [List.getElem?_tail, Nat.sub_add_cancel h1, hgrid k hk]
    have hplace : 6 + 2 * (k - 1) + i = 4 + 2 * k + i := by omega
    exact hplace ▸ hbytes _ _ (hac (k - 1) i _ hterm hi)
  case frame => rwa [hlength] at hframe

/-- A command that completes without error has staged results (60_exceptions.md R220). -/
theorem stages_of_errcode_eq_zero {i : Instr} {s t : State} (h : exec i s = .next t) (h0 : t.errcode = 0) :
    ∃ x, stageOf i s = .ok x := by
  obtain rfl := exec_eq_next_iff.1 h
  rcases s.complete_cases (stageOf i s) with ⟨x, hx, -⟩ | ⟨r, -, heq⟩
  · exact ⟨x, hx⟩
  · have hcode : r.kind.code ≠ 0 := by cases r.kind <;> decide
    rw [heq, State.raise_errcode] at h0
    exact absurd h0 hcode

/-- Settles O56: an ENCODE without error found a legal image, every place of the hash it wrote is the symbol of a digit,
and the first is the size flag. -/
theorem encodedHashIsWellFormed : Obligations.EncodedHashIsWellFormed := by
  intro s t h h0
  obtain ⟨x, hx⟩ := stages_of_errcode_eq_zero h h0
  obtain ⟨_, hcheck, -⟩ := bind_eq_ok.1 (show stageEncode Config.libm s = .ok x from hx)
  obtain ⟨hlen, hc, ht⟩ := checkImage_ok_iff.1 hcheck
  obtain ⟨hflag, hxc, hyc⟩ := sizeFlag_counts hc
  obtain ⟨hlength, hfit⟩ := buildHash_forwardGrid_length hc Config.libm s.params.gammaRounding
  obtain ⟨hd0, -⟩ := buildHash_field Config.libm s.params.gammaRounding (forwardGrid Config.libm s) s.xc s.yc
  obtain ⟨t', hexec, -, -, -, -, htn, hbytes, -⟩ :=
    exec_of_stages_encoding (stageOf_encode_of_image_legal hlen hc ht) (hlength ▸ hfit)
  obtain rfl : t' = t := by cases hexec.symm.trans h; rfl
  have hashLen_eq : t'.hashLen.toNat = hashLength (s.xc * s.yc) := by rw [htn, toNat_hashLength hfit]
  refine ⟨hashLen_eq, fun i hi => ?_, _, ?_, hxc, hyc⟩
  · rw [hashLen_eq, ← hlength] at hi
    exact ⟨_, by rw [hbytes i _ (List.getElem?_eq_getElem hi), rlut_alpha (buildHash_lt (List.getElem_mem hi))]⟩
  · rw [hbytes 0 _ hd0, Nat.mod_eq_of_lt hflag, rlut_alpha hflag]

end Sys2Proof.Machine

/-! SUPPORT. DECODE: the header checks, the first byte that is no symbol, the checks on the target, and the bytes beyond
the hash. -/

namespace Sys2Proof.Machine

open Sys2Proof.Statements

/-! ## The header checks -/

section Header

variable {s : State}

theorem exec_decode_of_header_error {r : Raise} (h : decodeHeader s = .error r) (hexp : r.exp < 2 ^ 64)
    (hact : r.act < 2 ^ 64) (hpos : r.pos < 2 ^ 64) :
    exec .decode s = .next (errState s r.kind.code r.exp r.act r.pos) := by
  have hstage : stageOf .decode s = .error r := by
    show stageDecode Config.libm s = _
    rw [stageDecode, h, bind_error]
  exact exec_of_stages_error hstage hexp hact hpos

theorem decodeHeader_tooShort (h : s.hashLen.toNat < 6) : decodeHeader s = .error ⟨.tooShort, 6, s.hashLen.toNat, 0⟩ :=
  if_pos h

/-- A first byte that is no symbol fails as it decodes. -/
theorem decodeHeader_invalid (h : 6 ≤ s.hashLen.toNat) (hb : rlut (s.hashByte 0) = none) :
    decodeHeader s = .error ⟨.invalidCharacter, 0, (s.hashByte 0).toNat, 0⟩ := by
  have hdec := s.b83dec_invalid 0 1 0 zero_lt_one hb nofun
  rw [Nat.add_zero] at hdec
  simp only [decodeHeader, if_neg (Nat.not_lt.2 h), hdec, bind_error]

variable {f : Nat} (h : 6 ≤ s.hashLen.toNat) (hf : rlut (s.hashByte 0) = some f)
include h hf

theorem decodeHeader_sizeFlag (hover : 80 < f) (hpolicy : s.params.sizeFlagPolicy = .reject) :
    decodeHeader s = .error ⟨.invalidSizeFlag, 80, f, 0⟩ := by
  simp only [decodeHeader, if_neg (Nat.not_lt.2 h), s.b83dec_one 0 f hf, bind_ok, if_pos (And.intro hover hpolicy)]

theorem decodeHeader_lengthMismatch (hflag : f ≤ 80 ∨ s.params.sizeFlagPolicy = .accept)
    (hlen : s.hashLen.toNat ≠ hashLength (flagXc f * flagYc f)) :
    decodeHeader s = .error ⟨.lengthMismatch, hashLength (flagXc f * flagYc f), s.hashLen.toNat, 0⟩ := by
  have hpass : ¬(80 < f ∧ s.params.sizeFlagPolicy = .reject) := by
    rintro ⟨hover, hreject⟩
    rcases hflag with hle | haccept
    · omega
    · cases hreject.symm.trans haccept
  simp only [decodeHeader, if_neg (Nat.not_lt.2 h), s.b83dec_one 0 f hf, bind_ok, if_neg hpass, if_pos hlen]

end Header

/-- Settles O41: each check is reached where those before it pass, and its error is what is staged. -/
theorem decodeHeaderChecksInOrder : Obligations.DecodeHeaderChecksInOrder := by
  intro s hl
  have hhl : hl < 2 ^ 64 := s.hashLen.isLt.trans (by norm_num)
  refine ⟨fun h => ?_, fun h hb => ?_, fun f h hf => ⟨fun hover hpolicy => ?_, fun hflag hlen => ?_⟩⟩
  · exact exec_decode_of_header_error (decodeHeader_tooShort h) (by simp) hhl (by simp)
  · exact exec_decode_of_header_error (decodeHeader_invalid h hb) (by simp)
      ((s.hashByte 0).isLt.trans (by norm_num)) (by simp)
  · obtain ⟨hf83, -⟩ := rlut_some hf
    exact exec_decode_of_header_error (decodeHeader_sizeFlag h hf hover hpolicy) (by simp)
      (hf83.trans (by norm_num)) (by simp)
  · obtain ⟨hf83, -⟩ := rlut_some hf
    obtain ⟨hcells, -⟩ := cells_le_of_flag hf83
    exact exec_decode_of_header_error (decodeHeader_lengthMismatch h hf hflag hlen)
      (show hashLength (flagXc f * flagYc f) < 2 ^ 64 by rw [hashLength]; omega) hhl (by simp)

/-! ## The first byte that is no symbol -/

/-- A field whose bytes before HASH[j] are symbols fails at HASH[j], which is none. -/
theorem b83dec_invalid_of_spells {s : State} {ds : List Nat} (hds : spells s 0 ds)
    (hb : rlut (s.hashByte ds.length) = none) {p n : Nat} (hp : p ≤ ds.length) (hn : ds.length < p + n) :
    s.b83dec p n = .error ⟨.invalidCharacter, 0, (s.hashByte ds.length).toNat, ds.length⟩ := by
  obtain ⟨j, hj⟩ := Nat.exists_eq_add_of_le hp
  rw [hj] at hb hn ⊢
  exact s.b83dec_invalid p n j (by omega) hb fun i hi => ⟨_, rlut_hashByte_of_spells hds (by omega)⟩

/-- Settles O42: the fields before the byte decode and are in range, and the field that holds it fails there: the max-AC
digit, the DC field, or the AC term of its place. -/
theorem decodeReportsTheFirstInvalidByte : Obligations.DecodeReportsTheFirstInvalidByte := by
  intro s f ds n j hlen hds hf hflag hj hrange hb
  have hheader : decodeHeader s = .ok f := decodeHeader_of_spells hds hf hflag hlen
  have hpos : 1 ≤ j := by
    obtain ⟨h, -⟩ := List.getElem?_eq_some_iff.1 hf
    exact h
  have hj64 : j < 2 ^ 64 := (hlen ▸ hj).trans (s.hashLen.isLt.trans (by norm_num))
  have hfields : decodeFields Config.libm s n = .error ⟨.invalidCharacter, 0, (s.hashByte j).toNat, j⟩ := by
    rcases Nat.lt_or_ge j 2 with h2 | h2
    · rw [decodeFields, b83dec_invalid_of_spells hds hb hpos h2, bind_error]
    rcases Nat.lt_or_ge j 6 with h6 | h6
    · rw [decodeFields, b83dec_of_spells_from_zero hds h2, bind_ok, b83dec_invalid_of_spells hds hb h2 h6, bind_error]
    have hdc := dcDequant_eq (fn := Config.libm) (p := 2) fun hover hfault =>
      Nat.not_lt.2 hover ((hrange hfault).1 h6)
    have hac (k : Nat) (hk : 1 ≤ k) (hkj : 6 + 2 * k ≤ j) := acUnpack_eq (p := 4 + 2 * k) (acField_le hds hkj)
      fun hover hfault => Nat.not_lt.2 hover ((hrange hfault).2 k hk hkj)
    refine decodeFields_acs_error (b83dec_of_spells_from_zero hds h2) (b83dec_dcField hds h6) hdc ?_
    refine decodeAcs_error _ s _ (n - 1) 1 ((j - 4) / 2) _ (by omega) (by omega) (fun k hk hkj => ?_) (.inl ?_)
    · exact ⟨_, _, b83dec_acField hds (by omega), hac k hk (by omega)⟩
    · exact b83dec_invalid_of_spells hds hb (by omega) (by omega)
  exact exec_decode_of_fields_error hheader hfields (by simp) ((s.hashByte j).isLt.trans (by norm_num)) hj64

/-! ## A hash whose fields decode -/

/-- Cell `k` of the grid of a hash whose DC field is `v` and whose AC fields are `vs`, at the scale `mv`, where no field
faults (45_codec.md R204, R205). -/
def decodedCell (fn : Libm) (s : State) (mv : F64) (v : Nat) (vs : Nat → Nat) (k : Nat) : Rgb :=
  if k = 0 then
    { r := toLinear fn (if s.params.overrangePolicy = .mask then v / 2 ^ 16 % 256 else v / 2 ^ 16)
      g := toLinear fn (v / 2 ^ 8 % 256)
      b := toLinear fn (v % 256) }
  else
    acDequantRgb fn
      (if s.params.overrangePolicy = .mask then vs k / 361 % 19 else vs k / 361, vs k / 19 % 19, vs k % 19) mv s.punch

/-- Fields that decode, and under Fault are in range, parse to the grid of their values. -/
theorem decodeFields_of_values {fn : Libm} {s : State} {n q v : Nat} {vs : Nat → Nat} (hn : 1 ≤ n)
    (hq : s.b83dec 1 1 = .ok q) (hdc : s.b83dec 2 4 = .ok v)
    (hac : ∀ k, 1 ≤ k → k < n → s.b83dec (4 + 2 * k) 2 = .ok (vs k))
    (hrange : s.params.overrangePolicy = .fault → v < 2 ^ 24 ∧ ∀ k, 1 ≤ k → k < n → vs k < 6859) :
    decodeFields fn s n = .ok (q, (List.range n).map (decodedCell fn s (decodeScale n q) v vs)) := by
  have hcell := dcDequant_eq (fn := fn) (p := 2) fun hover hfault => Nat.not_lt.2 hover (hrange hfault).1
  have hcells := decodeAcs_ok fn s (decodeScale n q) (n - 1) 1 vs _ fun k hk hkn =>
    ⟨hac k hk (by omega), acUnpack_eq (Nat.le_of_lt_succ (State.b83dec_lt (hac k hk (by omega))))
      fun hover hfault => Nat.not_lt.2 hover ((hrange hfault).2 k hk (by omega))⟩
  obtain ⟨m, rfl⟩ := Nat.exists_eq_add_of_le' hn
  rw [decodeFields, hq, bind_ok, hdc, bind_ok, hcell, bind_ok, hcells, bind_ok, pure_eq_ok, List.range_succ_eq_map,
    List.map_cons, List.map_map]
  simp [decodedCell, Function.comp_def, Nat.add_comm]

/-- After the whole hash has been parsed DECODE checks its target (45_codec.md R202). -/
theorem stageOf_decode_of_fields {s : State} {f q : Nat} {grid : List Rgb} (hheader : decodeHeader s = .ok f)
    (hfields : decodeFields Config.libm s (flagXc f * flagYc f) = .ok (q, grid)) :
    stageOf .decode s = checkTarget s >>= fun _ => pure
      { xcomp := some (BitVec.ofNat 8 (flagXc f))
        ycomp := some (BitVec.ofNat 8 (flagYc f))
        qmax := some (BitVec.ofNat 8 q)
        maxval := some (decodeScale (flagXc f * flagYc f) q)
        coef := (0, grid)
        pix := inverseImage Config.libm s.params.gammaRounding grid (flagXc f) s.w s.h
        pixLen := some (BitVec.ofNat 64 s.need) } := by
  show stageDecode Config.libm s = _
  simp only [stageDecode, hheader, hfields, bind_ok]

/-- Settles O43: the whole hash parses, and the checks on the target are left. -/
theorem decodeOutputChecksComeLast : Obligations.DecodeOutputChecksComeLast := by
  intro s f ds n hlen hds hf hlength hflag hrange
  have hn : 1 ≤ n := Nat.mul_pos (Nat.succ_pos _) (Nat.succ_pos _)
  have hfields := decodeFields_of_values (fn := Config.libm) hn (b83dec_of_spells_from_zero hds (by omega))
    (b83dec_dcField hds (by omega)) (fun k _ hk => b83dec_acField hds (by omega)) hrange
  have htarget := stageOf_decode_of_fields (decodeHeader_of_spells hds hf hflag hlen) hfields
  exact ⟨exec_of_size_illegal htarget, exec_of_capacity_exceeded htarget⟩

/-- A command that stages counts, a scale, a grid and an image completes without error, and nothing outside the two runs
and the five registers changes. -/
theorem exec_of_stages_decoding {i : Instr} {s : State} {xcomp ycomp q : BitVec 8} {v : F64} {cells grid : List Rgb}
    {fn : Libm} {mode : GammaRounding} {xc w h : Nat} {n : Word}
    (hstage : stageOf i s = .ok
      { xcomp := some xcomp, ycomp := some ycomp, qmax := some q, maxval := some v, coef := (0, cells)
        pix := inverseImage fn mode grid xc w h, pixLen := some n }) :
    ∃ t, exec i s = .next t ∧
      t.xcomp = xcomp ∧ t.ycomp = ycomp ∧ t.qmax = q ∧ t.maxval = v ∧ t.pixLen = n ∧
      (∀ k x, cells[k]? = some x → cell t k = triple x) ∧
      (∀ e, 3 * cells.length ≤ e → t.coefElem e = s.coefElem e) ∧
      (∀ px py, px < w → py < h →
        (List.range 3).map (fun c => t.pixByte (3 * (py * w + px) + c)) = ipixel fn mode grid xc w h px py) ∧
      (∀ a, (a < pixBase ∨ pixBase + 3 * w * h ≤ a) → t.byteAt a = s.byteAt a) ∧
      { t with
        xcomp := s.xcomp, ycomp := s.ycomp, qmax := s.qmax, maxval := s.maxval, coef := s.coef, mem := s.mem
        pixLen := s.pixLen } = okState s := by
  refine ⟨_, exec_eq i s, ?_⟩
  rw [hstage]
  refine ⟨rfl, rfl, rfl, rfl, rfl, fun k x hk => s.commit_cell rfl hk,
    fun e he => s.commit_coefElem_outside _ (.inr ?_), fun px py => s.commit_pixel _ fn mode grid xc w h px py rfl,
    fun a ha => s.commit_byteAt_outside _ ?_ ?_, rfl⟩
  · rwa [Nat.mul_zero, Nat.zero_add]
  · rwa [inverseImage_length]
  · rw [List.length_nil]
    omega

/-- Settles O39: every field decodes to its value, so the grid of those values, its scale and its image are staged. -/
theorem decodeWritesTheImage : Obligations.DecodeWritesTheImage := by
  intro s f q dc ac xc yc n policy w h hf hflag hlen hq hdc4 hdc hac hrange htarget mv dcRed acRed grid
  have hn : 1 ≤ n := Nat.mul_pos (Nat.succ_pos _) (Nat.succ_pos _)
  have hdecq : s.b83dec 1 1 = .ok q := s.b83dec_one 1 q (hq 0 zero_lt_one)
  have hdecdc : s.b83dec 2 4 = .ok (number dc) := hdc4 ▸ s.b83dec_of_spells 2 dc hdc
  have hdecac (k : Nat) (hk : 1 ≤ k) (hkn : k < n) : s.b83dec (4 + 2 * k) 2 = .ok (number (ac k)) := by
    obtain ⟨hac2, hspells⟩ := hac k hk hkn
    have hdec := s.b83dec_of_spells _ (ac k) hspells
    rwa [hac2] at hdec
  have hheader := decodeHeader_of_spells hf rfl hflag hlen
  have hfields := decodeFields_of_values (fn := Config.libm) hn hdecq hdecdc hdecac hrange
  have hgrid : decodedCell Config.libm s (decodeScale n q) (number dc) (fun k => number (ac k)) = grid := rfl
  rw [hgrid] at hfields
  obtain ⟨t, hexec, hxc, hyc, htq, htv, htn, hcells, hcoef, hpixels, hframe, hrest⟩ :=
    exec_of_stages_decoding (stageOf_of_target_legal (stageOf_decode_of_fields hheader hfields) htarget)
  obtain ⟨-, -, hx9, hy10⟩ := cells_le_of_flag (decodeHeader_flag_lt hheader)
  have hq83 : q < 83 ^ 1 := State.b83dec_lt hdecq
  refine ⟨t, hexec, ?xcomp, ?ycomp, ?qmax, htv, ?pixLen, fun k hk => hcells k _ (by simp [hk]), ?coef, hpixels, hframe,
    hrest⟩
  case xcomp =>
    rw [hxc]
    exact Nat.mod_eq_of_lt (by omega)
  case ycomp =>
    rw [hyc]
    exact Nat.mod_eq_of_lt (by omega)
  case qmax =>
    rw [htq]
    exact Nat.mod_eq_of_lt (by omega)
  case pixLen =>
    rw [htn]
    exact Nat.mod_eq_of_lt (s.need_lt.trans (by norm_num))
  case coef => rwa [List.length_map, List.length_range] at hcoef

/-! ## Bytes beyond the hash -/

section Beyond

variable {s : State} {m : Memory} {k : Nat}
  (hm : ∀ a, a < 0x2000 + k ∨ 0x2000 + 166 ≤ a → ({ s with mem := m } : State).byteAt a = s.byteAt a)
include hm

/-- A field below HASH[k] decodes alike. -/
theorem b83dec_of_mem_agrees {p n : Nat} (hp : p + n ≤ k) : ({ s with mem := m } : State).b83dec p n = s.b83dec p n := by
  have hfield : ({ s with mem := m } : State).hashField p n = s.hashField p n :=
    List.map_congr_left fun i hi =>
      hm _ (.inl (Nat.add_lt_add_left ((Nat.add_lt_add_left (List.mem_range.1 hi) p).trans_le hp) _))
  rw [State.b83dec, State.b83dec, hfield]

theorem decodeHeader_of_mem_agrees (hk : min s.hashLen.toNat 166 ≤ k) :
    decodeHeader { s with mem := m } = decodeHeader s := by
  by_cases h6 : s.hashLen.toNat < 6
  · rw [decodeHeader_tooShort h6]
    exact decodeHeader_tooShort h6
  · simp only [decodeHeader, b83dec_of_mem_agrees hm (show 0 + 1 ≤ k by omega)]

theorem decodeAcs_of_mem_agrees (fn : Libm) (mv : F64) (count j : Nat) (hj : 4 + 2 * (j + count) ≤ k) :
    decodeAcs fn { s with mem := m } mv count j = decodeAcs fn s mv count j := by
  induction count generalizing j with
  | zero => rfl
  | succ count ih =>
    simp only [decodeAcs, b83dec_of_mem_agrees hm (show 4 + 2 * j + 2 ≤ k by omega), ih (j + 1) (by omega)]

theorem decodeFields_of_mem_agrees (fn : Libm) {n : Nat} (hn : 1 ≤ n) (hnk : hashLength n ≤ k) :
    decodeFields fn { s with mem := m } n = decodeFields fn s n := by
  rw [hashLength] at hnk
  have hq : ({ s with mem := m } : State).b83dec 1 1 = s.b83dec 1 1 := b83dec_of_mem_agrees hm (by omega)
  have hdc : ({ s with mem := m } : State).b83dec 2 4 = s.b83dec 2 4 := b83dec_of_mem_agrees hm (by omega)
  simp only [decodeFields, hq, hdc, decodeAcs_of_mem_agrees hm fn _ (n - 1) 1 (by omega)]

/-- Where the header is sound the fields end at HASH_LEN; where it is not, no field is parsed. -/
theorem stageDecode_of_mem_agrees (fn : Libm) (hk : min s.hashLen.toNat 166 ≤ k) :
    stageDecode fn { s with mem := m } = stageDecode fn s := by
  rw [stageDecode, stageDecode, decodeHeader_of_mem_agrees hm hk]
  cases hheader : decodeHeader s with
  | error r => rfl
  | ok f =>
    obtain ⟨-, -, hlen⟩ := decodeHeader_ok_iff.1 hheader
    obtain ⟨hmax, hpos, -⟩ := cells_le_of_flag (decodeHeader_flag_lt hheader)
    have hnk : hashLength (flagXc f * flagYc f) ≤ k := by
      rw [hashLength] at *
      omega
    simp only [bind_ok, decodeFields_of_mem_agrees hm fn hpos hnk]
    rfl

end Beyond

/-- The same results committed to two memories agree on every byte on which the memories do. -/
theorem State.complete_byteAt_of_mem_agrees (s : State) (m : Memory) (e : Except Raise Staged) {a : Nat}
    (ha : ({ s with mem := m } : State).byteAt a = s.byteAt a) :
    (({ s with mem := m } : State).complete e).byteAt a = (s.complete e).byteAt a := by
  cases e with
  | ok x => simp only [State.complete_ok, State.finish_byteAt, State.commit_byteAt, ha]
  | error r => exact ha

/-- The memory a completion starts from reaches nothing but the memory it ends in. -/
theorem State.complete_mem (s : State) (m : Memory) (e : Except Raise Staged) :
    { ({ s with mem := m } : State).complete e with mem := (s.complete e).mem } = s.complete e := by
  cases e with
  | ok x => rfl
  | error r => rfl

/-- Settles O52: both states stage the same, errors included, and complete alike. -/
theorem decodeIgnoresBytesBeyondTheHash : Obligations.DecodeIgnoresBytesBeyondTheHash := by
  intro s t m k hk hm h
  obtain rfl := exec_eq_next_iff.1 h
  have hstage : stageOf .decode { s with mem := m } = stageOf .decode s := stageDecode_of_mem_agrees hm _ hk
  refine ⟨_, exec_eq _ _, ?_⟩
  rw [hstage]
  exact ⟨s.complete_mem m _, fun a ha => s.complete_byteAt_of_mem_agrees m _ (hm a ha)⟩

end Sys2Proof.Machine

/-! SUPPORT. How a command is accepted, how it completes, with an error or without, and what moves the interrupt
line. -/

namespace Sys2Proof.Machine

open Sys2Proof.Statements

/-! ## Completion -/

theorem ErrKind.code_ne_zero (k : ErrKind) : k.code ≠ 0 := by cases k <;> decide

/-- The codes of 60_exceptions.md R220. -/
theorem ErrKind.code_listed (k : ErrKind) : k.code.toNat ∈ [1, 2, 3, 4, 16, 17, 18, 19, 20, 21, 22] := by
  cases k <;> decide

/-- Settles O45: only a raise leaves a code, and a raise commits nothing. -/
theorem errorsArePrecise : Obligations.ErrorsArePrecise := by
  intro i s t h herr
  obtain rfl := exec_eq_next_iff.1 h
  rcases s.complete_cases (stageOf i s) with ⟨x, _, heq⟩ | ⟨r, _, heq⟩
  · rw [heq] at herr
    exact absurd (s.commit x).finish_errcode herr
  · rw [heq]
    rfl

/-- Settles O46: a completion with results clears the error context; one with an error leaves a listed code, which is
not 0. -/
theorem everyCommandCompletes : Obligations.EveryCommandCompletes := by
  intro i s
  refine ⟨_, exec_eq i s, ?_⟩
  rcases s.complete_cases (stageOf i s) with ⟨x, _, heq⟩ | ⟨r, _, heq⟩
  all_goals rw [heq]
  · exact ⟨rfl, rfl, fun _ => ⟨rfl, rfl, rfl⟩, List.mem_cons_self⟩
  · exact ⟨rfl, rfl, fun h => absurd h r.kind.code_ne_zero, List.mem_cons_of_mem _ r.kind.code_listed⟩

/-! ## Acceptance -/

theorem State.writeCmd_idle {s : State} (hb : s.busy = false) (w : Word) : s.writeCmd w = s.accept w := by
  simp [State.writeCmd, hb]

theorem State.writeCmd_busy {s : State} (hb : s.busy = true) (w : Word) :
    s.writeCmd w = { s with cmdlost := true } := by
  simp [State.writeCmd, hb]

/-- CMD is CSR 3 (10_state.md R29). -/
theorem step_writeCmd {s : State} {w : Word} {rest : List Event} (hr : s.resetHeld = false)
    (ha : s.agenda = .host (.write64 0x018 w) :: rest) :
    step s = .next { { s with agenda := rest }.writeCmd w with port := .written } :=
  step_writeCsr (n := 3) (by decide) hr ha

/-- Settles O7: the write of CSR 3, by the engine phase. -/
theorem cmdWriteIsAcceptedOrLost : Obligations.CmdWriteIsAcceptedOrLost := by
  intro s w rest hr ha
  refine ⟨fun he => ?_, fun w' b he => ?_⟩
  · have hb : s.busy = false := State.busy_eq_false_iff.2 he
    rw [step_writeCmd hr ha, State.writeCmd_idle (s := { s with agenda := rest }) hb]
    rfl
  · have hb : s.busy = true := State.busy_eq_true_iff.2 ⟨w', b, he⟩
    rw [step_writeCmd hr ha, State.writeCmd_busy (s := { s with agenda := rest }) hb]

/-! ## The interrupt line -/

theorem State.irq_eq_true_iff (s : State) : s.irq = true ↔ s.done = true ∧ s.irqen = true := by
  simp [State.irq]

/-- A completion sets DONE and keeps IRQEN, whatever the command ends in (60_exceptions.md R226). -/
theorem irq_of_completeRunning {s t : State} (hb : s.busy = true) (h : completeRunning s = .next t) :
    t.irq = s.irqen := by
  obtain ⟨w, b, he⟩ := State.busy_eq_true_iff.1 hb
  rcases completeRunning_cases s with ⟨hidle, _⟩ | ⟨_, _, i, _, _, heq⟩ | ⟨_, _, _, _, _, heq⟩
  · cases he.symm.trans hidle
  · cases heq.symm.trans h
    rcases s.complete_cases (stageOf i s) with ⟨x, _, hc⟩ | ⟨r, _, hc⟩
    all_goals rw [hc]; rfl
  · cases heq.symm.trans h
    rfl

/-- Settles O21, event by event: each step moves DONE or IRQEN, whose conjunction the line is. -/
theorem irqFollowsDoneAndIrqen : Obligations.IrqFollowsDoneAndIrqen := by
  intro s e rest t hr ha h
  have irq_of_ctrl {v : Word} (he : e = .host (.write64 0x008 v)) : t.irq = (s.done && v.getLsbD 0) := by
    cases ((ctrlAndStatusWritesTakeEffect s v rest hr).1 (he ▸ ha)).symm.trans h
    rfl
  refine ⟨s.irq_eq_true_iff, ?status, ?ctrlClear, ?ctrlSet, ?cmd, ?reset, ?complete⟩
  case status =>
    rintro ⟨v, rfl, hv⟩
    cases ((ctrlAndStatusWritesTakeEffect s v rest hr).2 ha).symm.trans h
    simp [State.irq, hv]
  case ctrlClear =>
    rintro ⟨v, he, hv⟩
    rw [irq_of_ctrl he, hv, Bool.and_false]
  case ctrlSet =>
    rintro ⟨v, he, hv⟩
    rw [irq_of_ctrl he, hv, Bool.and_true]
  case cmd =>
    rintro ⟨w, rfl, hb⟩
    cases ((cmdWriteIsAcceptedOrLost s w rest hr ha).1 (State.busy_eq_false_iff.1 hb)).symm.trans h
    rfl
  case reset =>
    rintro rfl
    cases (step_cons ha).symm.trans h
    rfl
  case complete =>
    rintro rfl hb
    exact irq_of_completeRunning (s := { s with agenda := rest }) hb ((step_complete ha).symm.trans h)

end Sys2Proof.Machine

/-! SUPPORT. Reset, the writes that the BUSY interval suppresses, and what no step changes. -/

namespace Sys2Proof.Machine

/-! ## The state after reset -/

/-- Settles O19: each value is a field of the state after reset, and STATUS is computed from its fields. -/
theorem resetLeavesTheListedValues : Obligations.ResetLeavesTheListedValues := by
  unfold Obligations.ResetLeavesTheListedValues
  decide

/-- Settles O50: the stores list nothing, no error stands, and MAXVAL is 1.0. -/
theorem resetHasTheInvariant : Obligations.ResetHasTheInvariant where
  memCanonical := State.reset_wf.1
  coefCanonical := State.reset_wf.2
  memInWindows := nofun
  coefInFile := nofun
  errcodeLegal := rfl
  contextClear := fun _ => ⟨rfl, rfl, rfl⟩
  busyClear := nofun
  qmaxRange := Nat.zero_le _
  maxvalLegal := legalMaxval_one
  paramsValid := rfl
  heldIdle := fun _ => rfl

/-! ## Assertion and release of reset -/

theorem step_assertReset {s : State} {rest : List Event} (h : s.agenda = .assertReset :: rest) :
    step s = .next { s with agenda := rest }.assertReset := step_cons h

theorem step_releaseReset {s : State} {rest : List Event} (h : s.agenda = .releaseReset :: rest) :
    step s = .next { s with agenda := rest }.releaseReset := step_cons h

/-- An access made while reset is held, as the next event, is not answered (70_reset_and_hazards.md R250). -/
theorem step_heldAccess {s : State} {x : Access} {rest : List Event} (hr : s.resetHeld = true)
    (h : s.agenda = .host x :: rest) : step s = .next { s with agenda := rest, port := .unanswered } := by
  rw [step_host h]
  exact congrArg _ (State.hostAccess_held hr)

/-- Settles O20: the assertion puts the reset values, whatever the engine ran, the access meets a block held in reset,
and the release changes the reset input alone. -/
theorem resetAbandonsTheRunningCommand : Obligations.ResetAbandonsTheRunningCommand := by
  intro s x rest ha
  exact ⟨_, _, _, step_assertReset ha, step_heldAccess rfl rfl, step_releaseReset rfl, rfl, rfl, rfl, rfl⟩

/-! ## Writes while BUSY -/

section Busy

variable {s : State} (hb : s.busy = true)
include hb

theorem State.unlessBusy_busy (t : State) : s.unlessBusy t = s := if_pos hb

theorem State.writeCsr_busy {n : Nat} (h1 : n ≠ 1) (h2 : n ≠ 2) (h3 : n ≠ 3) (v : Word) : s.writeCsr n v = s := by
  unfold State.writeCsr
  split
  case h_4 => exact State.unlessBusy_busy hb _
  all_goals contradiction

/-- Of the 64-bit writes only those to CTRL, STATUS and CMD are not suppressed (70_reset_and_hazards.md R261, R262). -/
theorem State.store64_busy {a : Nat} (h1 : a / 8 ≠ 1) (h2 : a / 8 ≠ 2) (h3 : a / 8 ≠ 3) (v : Word) :
    s.store64 a v = s := by
  unfold State.store64
  split
  · exact State.writeCsr_busy hb h1 h2 h3 v
  · exact State.unlessBusy_busy hb _
  · rfl

/-- Every byte write is suppressed, or is to a row that takes none (70_reset_and_hazards.md R261; 20_memory.md R64,
R66). -/
theorem State.store8_busy (a : Nat) (v : Byte) : s.store8 a v = s := by
  unfold State.store8
  split
  · exact State.unlessBusy_busy hb _
  · exact State.unlessBusy_busy hb _
  · rfl

end Busy

/-- Settles O8: the addresses make legal accesses, so no bus error results, and their stores are suppressed. -/
theorem otherWritesWhileBusyAreIgnored : Obligations.OtherWritesWhileBusyAreIgnored := by
  intro s rest hb hr
  have hb' : ({ s with agenda := rest } : State).busy = true := hb
  refine ⟨fun a v ⟨h8, hlt, hctrl, hstatus, hcmd⟩ ha => ?word, fun a v hin ha => ?byte⟩
  case word =>
    have hl : legalAccess s.params.pixCap .w64 a.toNat = true := (legalAccess_w64_iff _ _).2 (by omega)
    exact step_write64 hr ha hl (State.store64_busy hb' (by omega) (by omega) (by omega) v)
  case byte =>
    have hl : legalAccess s.params.pixCap .w8 a.toNat = true := by
      rcases hin with hwindow | ⟨hlo, _⟩
      · exact legalAccess_of_inByteWindow hwindow
      · exact (legalAccess_w8_iff _ _).2 (by omega)
    exact step_write8 hr ha hl (State.store8_busy hb' a.toNat v)

/-! ## What no step changes -/

theorem State.complete_params (s : State) (e : Except Raise Staged) : (s.complete e).params = s.params := by
  cases e with
  | ok x => rfl
  | error r => rfl

theorem completeRunning_params (s : State) : ∃ t, completeRunning s = .next t ∧ t.params = s.params := by
  rcases completeRunning_cases s with ⟨_, heq⟩ | ⟨_, _, i, _, _, heq⟩ | ⟨_, _, _, _, _, heq⟩
  · exact ⟨_, heq, rfl⟩
  · exact ⟨_, heq, s.complete_params (stageOf i s)⟩
  · exact ⟨_, heq, rfl⟩

theorem State.writeCmd_params (s : State) (v : Word) : (s.writeCmd v).params = s.params := by
  unfold State.writeCmd
  split
  · rfl
  · rfl

theorem State.writeDataCsr_params (s : State) (n : Nat) (v : Word) : (s.writeDataCsr n v).params = s.params := by
  unfold State.writeDataCsr
  split <;> rfl

theorem State.accessEffect_params (s : State) (x : Access) : (s.accessEffect x).params = s.params := by
  rcases s.accessEffect_cases x with heq | ⟨_, heq⟩ | ⟨_, heq⟩ | ⟨v, heq⟩ | ⟨_, n, v, heq⟩ | ⟨_, _, _, _, _, heq⟩ |
    ⟨_, _, _, _, heq⟩
  all_goals rw [heq]
  · rfl
  · rfl
  · exact s.writeCmd_params v
  · exact s.writeDataCsr_params n v

theorem State.hostAccess_params (s : State) (x : Access) : (s.hostAccess x).params = s.params := by
  unfold State.hostAccess
  split_ifs
  · rfl
  · exact s.accessEffect_params x
  · rfl

/-- Settles O47, event by event: an access and reset answer a next state by definition, and a completion ends in a
commit or in a raise. -/
theorem everyStepAnswersANextState : Obligations.EveryStepAnswersANextState := by
  intro s
  rcases step_cases s with ⟨_, heq⟩ | ⟨x, rest, _, heq⟩ | ⟨rest, _, heq⟩ | ⟨rest, _, heq⟩ | ⟨rest, _, heq⟩
  all_goals rw [heq]
  · exact completeRunning_params s
  · exact ⟨_, rfl, State.hostAccess_params _ x⟩
  · exact completeRunning_params { s with agenda := rest }
  · exact ⟨_, rfl, rfl⟩
  · exact ⟨_, rfl, rfl⟩

end Sys2Proof.Machine
